-- ==== Sys2Proof/Word.lean ====
section
/-! DEFINITION. The word types of CORE. Every register, sample and command field has the width the
spec gives it (00_scope.md R11, R12; 30_encoding.md R140). -/

namespace Sys2Proof

/-- One byte of a port transfer (20_memory.md R100). -/
abbrev Byte := BitVec 8

/-- A command word, an audio-port word or a response (30_encoding.md R140, R141, R142). -/
abbrev Word64 := BitVec 64

/-- The bit pattern of an IEEE 754 binary32 number: sign in bit 31, biased exponent in bits 30:23,
fraction in bits 22:0 (00_scope.md R12). The operations are in `Sys2Proof/Machine/F32.lean`. -/
abbrev F32 := BitVec 32

/-- An audio block, `b[c][i]`: the outer list is the channels, the inner one a channel's samples
(20_memory.md R101). -/
abbrev Block := List (List F32)

end Sys2Proof
end

