-- ==== Sys2Proof/Syntax.lean ====
section
/-! DEFINITION. The 26 commands of 30_encoding.md R146 and the audio-port request RENDER of R147: one
constructor per row of spec/opcode_table.json. Operands are the fields as they stand (R143): IMM16 is
16 bits, DATA32 is 32 bits and read as an f32 pattern or as a u32. -/

namespace Sys2Proof

/-- The two ports through which requests reach CORE (00_scope.md R19). -/
inductive Port where
  | command
  | audio
deriving DecidableEq, Repr

/-- ENG_SET_MODE's operand table (30_encoding.md R149; 46_engine.md R433). -/
inductive EngineMode where
  | voice
  | delay
  | voiceDelay
deriving DecidableEq, Repr, Inhabited

/-- OSC_SET_WAVEFORM's operand table (30_encoding.md R149). -/
inductive Waveform where
  | sine
  | saw
  | triangle
  | square
deriving DecidableEq, Repr, Inhabited

/-- FLT_SET_MODE's operand table (30_encoding.md R149). -/
inductive FilterMode where
  | low
  | band
  | high
deriving DecidableEq, Repr, Inhabited

/-- The instructions of CORE: the rows of 30_encoding.md R146 and R147. -/
inductive Instr where
  | nop
  | regRead (reg : BitVec 16)
  | errClear
  | softReset
  | cfgSampleRate (hz : F32)
  | cfgBlockSize (size : BitVec 16)
  | engSetMode (mode : BitVec 16)
  | start
  | oscSetFreq (hz : F32)
  | oscSetWaveform (waveform : BitVec 16)
  | oscSetAmp (value : F32)
  | envSetAttack (seconds : F32)
  | envSetDecay (seconds : F32)
  | envSetSustain (value : F32)
  | envSetRelease (seconds : F32)
  | fltSetCutoff (hz : F32)
  | fltSetRes (value : F32)
  | fltSetMode (mode : BitVec 16)
  | dlySetDelay (samples : BitVec 32)
  | dlySetFeedback (value : F32)
  | seqSetLength (length : BitVec 16)
  | seqSetNote (index : BitVec 16) (note : BitVec 32)
  | seqSetStepMs (ms : BitVec 32)
  | seqStart (nowMs : BitVec 32)
  | seqStop
  | ctlTick (gate : Bool) (nowMs : BitVec 32)
  | render
deriving DecidableEq, Repr

/-- The port that accepts an instruction (30_encoding.md R141, R150): RENDER the audio port, every
other one the command port. -/
def Instr.port : Instr → Port
  | .render => .audio
  | .nop | .regRead _ | .errClear | .softReset | .cfgSampleRate _ | .cfgBlockSize _ | .engSetMode _
  | .start | .oscSetFreq _ | .oscSetWaveform _ | .oscSetAmp _ | .envSetAttack _ | .envSetDecay _
  | .envSetSustain _ | .envSetRelease _ | .fltSetCutoff _ | .fltSetRes _ | .fltSetMode _
  | .dlySetDelay _ | .dlySetFeedback _ | .seqSetLength _ | .seqSetNote _ _ | .seqSetStepMs _
  | .seqStart _ | .seqStop | .ctlTick _ _ => .command

end Sys2Proof
end

