-- ==== Sys2Proof/Config.lean ====
section
/-! DEFINITION. What the spec leaves to the implementation: the OPEN parameters of 00_scope.md R10,
and the free values, which have no body, so that nothing can be proved of them but what the spec
fixes. Legal states read none of them but the pattern of a NaN, which no response and no output block
can show (logs 6 to 9). -/

namespace Sys2Proof

/-- The OPEN parameters of 00_scope.md R10: model arguments. They stand in `State.params`, are never
changed by a step, and reset to the reference values (DESIGN CHOICE, log 1). -/
structure Params where
  /-- DLY_CAP, the capacity of the delay ring, in samples (D32). -/
  dlyCap : Nat
  /-- BLOCK_MAX, the largest block size CFG_BLOCK_SIZE accepts (D38). -/
  blockMax : Nat
  /-- NUM_CH, audio channels in and out (D37). -/
  numCh : Nat
  /-- SEQ_MAX, entries of the sequence RAM (D40). -/
  seqMax : Nat
deriving DecidableEq, Repr

/-- The reference values of 00_scope.md R10. -/
def Params.reference : Params := { dlyCap := 96000, blockMax := 256, numCh := 2, seqMax := 16 }

/-- The f32 operations that can produce a NaN from operands that need not be NaN (00_scope.md R13). -/
inductive ArithOp where
  | add
  | sub
  | mul
  | div
deriving DecidableEq, Repr

namespace Config

/-- FREE VALUE (log 7): the pattern an f32 operation gives where IEEE 754 says its result is a NaN.
`F32.nanOf` makes a NaN of it; which NaN is open. -/
opaque nanResult : ArithOp → F32 → F32 → F32

/-- FREE VALUE (log 8): nextUp of a value that is not finite, for which 00_scope.md R13 states none. -/
opaque nextUpNonfinite : F32 → F32

/-- FREE VALUE (log 8): nextDown of a value that is not finite. -/
opaque nextDownNonfinite : F32 → F32

/-- FREE VALUE (log 9): rne_int outside its domain, the finite values ≥ 0 (00_scope.md R17). -/
opaque rneIntOutside : F32 → Nat

/-- FREE VALUE (log 6): what the datapath reads of an unset 32-bit parameter, by register number. No
rule reads one (70_reset_and_hazards.md R531). -/
opaque unsetWord : BitVec 16 → BitVec 32

/-- FREE VALUE (log 6): the mode a block latch reads of an unset ENGINE_MODE. -/
opaque unsetMode : EngineMode

/-- FREE VALUE (log 6): the waveform a block latch reads of an unset WAVEFORM. -/
opaque unsetWaveform : Waveform

/-- FREE VALUE (log 6): the filter output a block latch reads of an unset FMODE. -/
opaque unsetFilterMode : FilterMode

/-- FREE VALUE (log 6): the note the sequencer reads at a step whose note is unset. -/
opaque unsetNote : Nat → BitVec 7

end Config

end Sys2Proof
end

