-- ==== Sys2Proof/Machine/F32.lean ====
section
/-! DEFINITION. IEEE 754 binary32 arithmetic on bit patterns: 00_scope.md R12, R13, R15, R16, R17.

Every finite f32 is a whole number of units of 2^-149, the smallest subnormal. An operation computes
its exact result as a fraction of such units and rounds it once, to nearest with ties to even. Subnormal
operands and results are kept and nothing is fused (R13). -/

namespace Sys2Proof.F32

/-- The sign, bit 31. -/
def sign (a : F32) : Bool := a.getLsbD 31

/-- Bits 30:0, the exponent and the fraction. -/
def magBits (a : F32) : Nat := a.toNat % 2 ^ 31

/-- The pattern of +inf, as `magBits`. -/
def infBits : Nat := 0x7F800000

/-- 00_scope.md R13: true for every NaN pattern. -/
def isNaN (a : F32) : Bool := decide (infBits < magBits a)

def isInf (a : F32) : Bool := decide (magBits a = infBits)

def isFinite (a : F32) : Bool := decide (magBits a < infBits)

/-- The f32 with the given sign and bits 30:0. -/
def pack (neg : Bool) (mag : Nat) : F32 := BitVec.ofNat 32 (mag + if neg then 2 ^ 31 else 0)

/-- The magnitude of a finite f32, in units of 2^-149: exponent field 0 is subnormal, every other one
has the hidden bit (00_scope.md R12). -/
def scaled (a : F32) : Nat :=
  let e := magBits a / 2 ^ 23
  let f := magBits a % 2 ^ 23
  if e = 0 then f else (2 ^ 23 + f) * 2 ^ (e - 1)

/-- The value of a finite f32, in units of 2^-149. -/
def value (a : F32) : Int := if sign a then -(scaled a : Int) else (scaled a : Int)

/-- The integer nearest to n / d, ties to even. -/
def rneDiv (n d : Nat) : Nat :=
  let q := n / d
  let r := n % d
  if 2 * r < d then q else if d < 2 * r then q + 1 else q + q % 2

/-- Bits 30:0 of the f32 nearest to num / den units of 2^-149, ties to even. A value of at least 2^24
units keeps 24 significant bits, so it is rounded to a multiple of 2^k units. A result beyond the
largest finite f32 is an infinity. -/
def roundMag (num den : Nat) : Nat :=
  let k := Nat.log2 (num / den) - 23
  min (rneDiv num (den * 2 ^ k) + k * 2 ^ 23) infBits

/-- A NaN made of an unconstrained pattern: the pattern where it is a NaN, else the default NaN. Which
NaN an operation gives is open (log 7). -/
def nanOf (v : F32) : F32 := if isNaN v then v else 0x7FC00000#32

/-- negf, which flips bit 31 (00_scope.md R13). -/
def neg (a : F32) : F32 := a ^^^ 0x80000000#32

/-- absf, which clears bit 31 (00_scope.md R13). -/
def abs (a : F32) : F32 := a &&& 0x7FFFFFFF#32

/-- The sum of two f32, for the operation `op` (00_scope.md R13). An exact sum of 0 is +0.0, unless both
operands are -0.0 (IEEE 754, round to nearest). -/
def sum (op : ArithOp) (a b : F32) : F32 :=
  if isNaN a || isNaN b then nanOf (Config.nanResult op a b)
  else if isInf a then
    if isInf b && (sign a != sign b) then nanOf (Config.nanResult op a b) else a
  else if isInf b then b
  else
    let v := value a + value b
    if v = 0 then pack (sign a && sign b) 0
    else pack (decide (v < 0)) (roundMag v.natAbs 1)

/-- a +f b (00_scope.md R13). -/
def add (a b : F32) : F32 := sum .add a b

/-- a -f b (00_scope.md R13): IEEE 754 subtraction adds b with its sign flipped. -/
def sub (a b : F32) : F32 := sum .sub a (neg b)

/-- a *f b (00_scope.md R13). -/
def mul (a b : F32) : F32 :=
  let s := sign a != sign b
  if isNaN a || isNaN b then nanOf (Config.nanResult .mul a b)
  else if isInf a || isInf b then
    if magBits a = 0 || magBits b = 0 then nanOf (Config.nanResult .mul a b) else pack s infBits
  else pack s (roundMag (scaled a * scaled b) (2 ^ 149))

/-- a /f b (00_scope.md R13). -/
def div (a b : F32) : F32 :=
  let s := sign a != sign b
  if isNaN a || isNaN b then nanOf (Config.nanResult .div a b)
  else if isInf a then
    if isInf b then nanOf (Config.nanResult .div a b) else pack s infBits
  else if isInf b then pack s 0
  else if magBits b = 0 then
    if magBits a = 0 then nanOf (Config.nanResult .div a b) else pack s infBits
  else pack s (roundMag (scaled a * 2 ^ 149) (scaled b))

/-- An integer that orders the f32 that are no NaN as their values are ordered: both zeros are 0. -/
def key (a : F32) : Int := if sign a then -(magBits a : Int) else (magBits a : Int)

/-- The f32 of a key; the zero it gives has the sign `zeroNeg`. -/
def ofKey (zeroNeg : Bool) (k : Int) : F32 :=
  pack (if k = 0 then zeroNeg else decide (k < 0)) k.natAbs

/-- a <f b: false where either is a NaN (00_scope.md R13). -/
def lt (a b : F32) : Bool := !isNaN a && !isNaN b && decide (key a < key b)

/-- a <=f b (00_scope.md R13). -/
def le (a b : F32) : Bool := !isNaN a && !isNaN b && decide (key a ≤ key b)

/-- a >f b (00_scope.md R13). -/
def gt (a b : F32) : Bool := lt b a

/-- a >=f b (00_scope.md R13). -/
def ge (a b : F32) : Bool := le b a

/-- a ==f b: +0.0 equals -0.0 (00_scope.md R13). -/
def eq (a b : F32) : Bool := !isNaN a && !isNaN b && decide (key a = key b)

/-- nextUp, the smallest f32 greater than a finite a (00_scope.md R13). The zero above the smallest
negative f32 is -0.0 (IEEE 754; DEDUCED, log 8). Of a value that is not finite: free (log 8). -/
def nextUp (a : F32) : F32 :=
  if isFinite a then ofKey true (key a + 1) else Config.nextUpNonfinite a

/-- nextDown, the largest f32 less than a finite a (00_scope.md R13). -/
def nextDown (a : F32) : F32 :=
  if isFinite a then ofKey false (key a - 1) else Config.nextDownNonfinite a

/-- u2f, the exact f32 of an integer below 2^24 (00_scope.md R13). -/
def ofNat (n : Nat) : F32 := pack false (roundMag (n * 2 ^ 149) 1)

/-- rne_int (00_scope.md R17): the integer nearest to a finite v ≥ 0, ties to even. Outside that
domain: free (log 9). -/
def rneInt (v : F32) : Nat :=
  if isFinite v && decide (0 ≤ key v) then rneDiv (scaled v) (2 ^ 149) else Config.rneIntOutside v

/-- +0.0 -/
def zero : F32 := 0x00000000#32

/-- 1.0 -/
def one : F32 := 0x3F800000#32

/-- -1.0 -/
def minusOne : F32 := 0xBF800000#32

/-- 2.0 -/
def two : F32 := 0x40000000#32

/-- sat (00_scope.md R15): into [-1.0, 1.0], a NaN to +0.0, -0.0 kept. -/
def sat (x : F32) : F32 :=
  if isNaN x then zero else if lt x minusOne then minusOne else if gt x one then one else x

/-- clampf (00_scope.md R16). -/
def clamp (x lo hi nanv : F32) : F32 :=
  if isNaN x then nanv else if lt x lo then lo else if gt x hi then hi else x

/-- The value stored for a parameter: +0.0 in place of -0.0 (40_command_port.md R182). -/
def plusZero (v : F32) : F32 := if eq v zero then zero else v

end Sys2Proof.F32
end

