-- ==== Sys2Proof/Machine/State.lean ====
section
/-! DEFINITION. The state of CORE, as plain data: the record of 10_state.md R43, with the model
arguments and the ports' streams, which are the model's own fields (logs 1 and 13). -/

namespace Sys2Proof.Machine

/-- PHASE, the lifecycle state (10_state.md R41). -/
inductive Phase where
  | config
  | running
deriving DecidableEq, Repr

/-- The error codes of 60_exceptions.md R480. Codes 7..255 are never produced. -/
inductive Code where
  | ok
  | illegal
  | configRange
  | outOfRange
  | unset
  | wrongPhase
  | badReg
deriving DecidableEq, Repr

/-- The envelope stages (10_state.md R76; 42_envelope.md R267). -/
inductive Stage where
  | idle
  | attack
  | decay
  | sustain
  | release
deriving DecidableEq, Repr

/-- The shadow registers (10_state.md R43, R60). A parameter has no value until a command writes it:
`none` is the spec's own "unset" (R61), and its valid bit is 0 (log 6). -/
structure Shadow where
  fs : Option F32
  block : Option (BitVec 16)
  engineMode : Option EngineMode
  waveform : Option Waveform
  amp : Option F32
  attack : Option F32
  decay : Option F32
  sustain : Option F32
  release : Option F32
  cutoff : Option F32
  res : Option F32
  fmode : Option FilterMode
  delay : Option (BitVec 32)
  feedback : Option F32
deriving DecidableEq, Repr

/-- The sequencer's state (10_state.md R88). -/
structure SeqState where
  run : Bool
  len : Option (BitVec 5)
  stepMs : Option (BitVec 32)
  step : BitVec 4
  lastMs : BitVec 32
deriving DecidableEq, Repr

/-- The GateState mailbox (10_state.md R70). -/
structure Mailbox where
  freq : Option F32
  gate : Bool
  trig : BitVec 32
deriving DecidableEq, Repr

/-- The envelope's state (10_state.md R76). -/
structure EnvState where
  stage : Stage
  level : F32
  prevGate : Bool
  relStart : F32
deriving DecidableEq, Repr

/-- The filter's state (10_state.md R77). -/
structure FltState where
  low : F32
  band : F32
  high : F32
deriving DecidableEq, Repr

/-- The delay ring DLY (10_state.md R83): the entries that are not +0.0, each with its index, indices
strictly rising. An unlisted entry is +0.0, which is what START fills the ring with (46_engine.md
R434). -/
abbrev Memory := List (Nat × F32)

/-- The sequence RAM NOTE (10_state.md R84): the notes that have been stored, each with its index,
indices strictly rising. An unlisted entry is unset. -/
abbrev NoteRam := List (Nat × BitVec 7)

/-- The audio domain's state (10_state.md R42, R43). -/
structure AudioState where
  fsAct : F32
  blkAct : BitVec 16
  oscP : BitVec 32
  env : EnvState
  flt : FltState
  dly : Memory
  dlyW : BitVec 32
  lastTrig : BitVec 32
deriving DecidableEq, Repr

/-- A request the host has issued. A port transfer carries bytes, in little-endian order where they
make a word (20_memory.md R100). The marks are the issuer's own testimony of when it issued the request,
which its duties constrain (60_exceptions.md R500): `overlapped` says that the previous request on the same
port was not yet answered (log 4), `rendering` that a RENDER was in progress on the other port (log 11). -/
inductive Request where
  /-- A transfer on the command port. -/
  | command (bytes : List Byte) (overlapped rendering : Bool)
  /-- A transfer on the audio port, with the input block that follows the word (30_encoding.md R141). -/
  | audio (bytes : List Byte) (input : Block) (overlapped : Bool)
  /-- The hardware reset input (70_reset_and_hazards.md R530). That it takes its turn among the requests,
as a step of its own, is the model's choice (DESIGN CHOICE, log 24). -/
  | reset
deriving DecidableEq, Repr

/-- CORE has no fault: no trap, vector or handler exists (60_exceptions.md R488 to R494), array
accesses have no failure case (20_memory.md R104), and a failing command goes on with an error
response (R490). Nothing raises a fault; that is safe (log 16). -/
inductive Fault where
deriving DecidableEq, Repr

/-- Why a step may be refused. The last five are the host duties that 60_exceptions.md R500 tells a
model to check: "Refusing means the model reports a host error and does not execute the request". -/
inductive Refusal where
  /-- An arm of `exec` whose instruction has no meaning yet. Safe. No arm raises it. -/
  | notModelled (mnemonic : String)
  /-- Raised by the fetch: the command port received anything but a whole 64-bit word. Safe. -/
  | partialWord
  /-- Raised by the fetch: the audio port received any word other than 0x4000000000000000. Safe. -/
  | badAudioWord
  /-- Raised by the fetch: a request issued before the previous one on its port was answered. Safe. -/
  | overlappingRequest
  /-- Raised by the fetch: a SOFT_RESET issued while a RENDER is in progress (R500's last row;
  93_implementation_defined.md U4). Safe. -/
  | softResetDuringRender
  /-- Raised by RENDER in RUNNING: samples per channel other than blk_act, or channels other than
  NUM_CH. Safe. -/
  | blockShape
deriving DecidableEq, Repr

/-- The whole machine. -/
structure State where
  /-- The model arguments of 00_scope.md R10 (the model's own field, log 1). -/
  params : Params
  phase : Phase
  lastErr : Code
  shadow : Shadow
  seq : SeqState
  note : NoteRam
  mb : Mailbox
  audio : AudioState
  /-- Requests issued and not yet executed, first to execute first: the total order of 20_memory.md
  R112 (the model's own field, log 13). -/
  inbox : List Request
  /-- The input block of the RENDER request being executed (the model's own field, log 13). -/
  audioIn : Block
  /-- The command port's responses, newest first (the model's own field, log 13). -/
  responses : List Word64
  /-- The audio port's output blocks, newest first (the model's own field, log 13). -/
  outBlocks : List Block
deriving DecidableEq, Repr

/-- Every parameter unset (10_state.md R95). -/
def Shadow.unset : Shadow :=
  { fs := none, block := none, engineMode := none, waveform := none, amp := none, attack := none,
    decay := none, sustain := none, release := none, cutoff := none, res := none, fmode := none,
    delay := none, feedback := none }

/-- The sequencer after reset (10_state.md R95). -/
def SeqState.reset : SeqState :=
  { run := false, len := none, stepMs := none, step := 0#4, lastMs := 0#32 }

/-- The mailbox after reset (10_state.md R95). -/
def Mailbox.reset : Mailbox := { freq := none, gate := false, trig := 0#32 }

/-- The envelope at reset and after START (10_state.md R95; 46_engine.md R434). -/
def EnvState.reset : EnvState :=
  { stage := .idle, level := 0#32, prevGate := false, relStart := 0#32 }

/-- The filter at reset and after START (10_state.md R95; 46_engine.md R434). -/
def FltState.reset : FltState := { low := 0#32, band := 0#32, high := 0#32 }

/-- The audio domain after reset, its delay ring holding `ring`: reset does not write DLY
(70_reset_and_hazards.md R531). -/
def AudioState.resetKeeping (ring : Memory) : AudioState :=
  { fsAct := 0#32, blkAct := 0#16, oscP := 0#32, env := EnvState.reset, flt := FltState.reset,
    dly := ring, dlyW := 0#32, lastTrig := 0#32 }

/-- The machine right after a hardware reset, with the model arguments `p`: 10_state.md R95. The spec
leaves DLY unspecified and lets a model use any value (70_reset_and_hazards.md R531); here every entry
is +0.0 (DESIGN CHOICE, log 5). Nothing has been requested or answered (log 13). -/
def State.resetWith (p : Params) : State :=
  { params := p
    phase := .config
    lastErr := .ok
    shadow := Shadow.unset
    seq := SeqState.reset
    note := []
    mb := Mailbox.reset
    audio := AudioState.resetKeeping []
    inbox := []
    audioIn := []
    responses := []
    outBlocks := [] }

/-- The machine right after reset, with the reference parameters of 00_scope.md R10 (log 1). -/
def State.reset : State := State.resetWith Params.reference

end Sys2Proof.Machine
end

