-- ==== Sys2Proof/Machine/Ops.lean ====
section
/-! DEFINITION. The shared operations: the two arrays, the response of a command, the failure of a
command (this machine's only exception, 60_exceptions.md R490), and reset. -/

namespace Sys2Proof.Machine

/-! ## Arrays (20_memory.md R104, R121)

An array is a list of (index, element) pairs, indices strictly rising. The spec gives an access no
failure case (R104): every index its rules compute is in range. -/

/-- The element listed at an index. -/
def entryAt {α : Type} : List (Nat × α) → Nat → Option α
  | [], _ => none
  | (a, v) :: rest, k => if a = k then some v else entryAt rest k

/-- List `v` at index `k`, in place of what is listed there. -/
def insertEntry {α : Type} : List (Nat × α) → Nat → α → List (Nat × α)
  | [], k, v => [(k, v)]
  | (a, w) :: rest, k, v =>
    if k < a then (k, v) :: (a, w) :: rest
    else if a = k then (k, v) :: rest
    else (a, w) :: insertEntry rest k v

/-- List nothing at index `k`. -/
def eraseEntry {α : Type} : List (Nat × α) → Nat → List (Nat × α)
  | [], _ => []
  | (a, w) :: rest, k => if a = k then rest else (a, w) :: eraseEntry rest k

/-- The indices rise strictly. -/
def risingIndices {α : Type} : List (Nat × α) → Bool
  | [] => true
  | [_] => true
  | (a, _) :: (b, w) :: rest => decide (a < b) && risingIndices ((b, w) :: rest)

/-- What an unlisted entry of DLY reads as: +0.0, the value START fills the ring with (46_engine.md
R434). -/
def unlisted : F32 := F32.zero

/-- MemRead(DLY, i) (10_state.md R83). -/
def Memory.read (m : Memory) (i : Nat) : F32 := (entryAt m i).getD unlisted

/-- MemWrite(DLY, i, v) (10_state.md R83). Writing what an unlisted entry reads as lists nothing. -/
def Memory.write (m : Memory) (i : Nat) (v : F32) : Memory :=
  if v = unlisted then eraseEntry m i else insertEntry m i v

/-- The canonical form: indices rise strictly and no entry is listed as what an unlisted one reads as,
so that rings that read the same are the same list. -/
def Memory.wf (m : Memory) : Bool := risingIndices m && m.all (fun e => !decide (e.2 = unlisted))

/-- DLY after START has written +0.0 to every entry (46_engine.md R434). -/
def Memory.zeroFilled : Memory := []

/-- NOTE_VALID[i]: a note has been stored at the entry (10_state.md R63). -/
def NoteRam.isSet (m : NoteRam) (i : Nat) : Bool := (entryAt m i).isSome

/-- MemRead(NOTE, i) (10_state.md R84). An unset note is read by no rule; it is a free value (log 6). -/
def NoteRam.read (m : NoteRam) (i : Nat) : BitVec 7 := (entryAt m i).getD (Config.unsetNote i)

/-- MemWrite(NOTE, i, v) (10_state.md R84), which also sets NOTE_VALID[i] (R63). -/
def NoteRam.write (m : NoteRam) (i : Nat) (v : BitVec 7) : NoteRam := insertEntry m i v

/-- The canonical form: indices rise strictly. -/
def NoteRam.wf (m : NoteRam) : Bool := risingIndices m

/-! ## Responses (30_encoding.md R142) -/

/-- The number of an error code (60_exceptions.md R480). -/
def Code.number : Code → BitVec 8
  | .ok => 0#8
  | .illegal => 1#8
  | .configRange => 2#8
  | .outOfRange => 3#8
  | .unset => 4#8
  | .wrongPhase => 5#8
  | .badReg => 6#8

/-- A response: OP echo in 63:56, 55:40 zero, CODE in 39:32, RDATA in 31:0 (30_encoding.md R142). -/
def responseWord (op : BitVec 8) (code : Code) (data : BitVec 32) : Word64 :=
  op ++ 0#16 ++ code.number ++ data

/-- respond(data): a command completes (40_command_port.md R187). LAST_ERR is left alone. -/
def State.respond (op : BitVec 8) (data : BitVec 32) (s : State) : State :=
  { s with responses := responseWord op .ok data :: s.responses }

/-- raise CmdError(code), this machine's only exception: LAST_ERR takes the code, the response carries
it with RDATA = 0, and nothing else changes (40_command_port.md R183; 60_exceptions.md R481, R490). -/
def State.raise (op : BitVec 8) (code : Code) (s : State) : State :=
  { s with lastErr := code, responses := responseWord op code 0#32 :: s.responses }

/-- The end of a command whose checks and effect gave `r`: it responds with 0, or it fails and none of
its effect is kept (40_command_port.md R180, R183, R187). -/
def State.complete (op : BitVec 8) (s : State) (r : Except Code State) :
    Host.Outcome State Fault Refusal :=
  match r with
  | .ok t => .next (t.respond op 0#32)
  | .error c => .next (s.raise op c)

/-- The end of a command that returns data and changes no state: REG_READ (40_command_port.md R190). -/
def State.completeData (op : BitVec 8) (s : State) (r : Except Code (BitVec 32)) :
    Host.Outcome State Fault Refusal :=
  match r with
  | .ok v => .next (s.respond op v)
  | .error c => .next (s.raise op c)

/-! ## Reset -/

/-- RESET (70_reset_and_hazards.md R531; 10_state.md R95): every element of CORE's state to its reset
value, DLY left as it was. The model arguments and the ports' streams are no state of CORE (logs 1,
13). -/
def State.applyReset (s : State) : State :=
  { s with
    phase := .config
    lastErr := .ok
    shadow := Shadow.unset
    seq := SeqState.reset
    note := []
    mb := Mailbox.reset
    audio := AudioState.resetKeeping s.audio.dly }

end Sys2Proof.Machine
end

