-- ==== Sys2Proof/Machine/Operands.lean ====
section
/-! DEFINITION. The fixed constants of CCI-1 (00_scope.md R10) and the operand regimes of
40_command_port.md R184 and R186: refused in CONFIG, clamped in RUNNING. -/

namespace Sys2Proof.Machine

/-! ## Constants (00_scope.md R10, kind FIXED) -/

/-- FS_MIN, 8000.0 Hz -/
def fsMin : F32 := 0x45FA0000#32
/-- FS_MAX, 192000.0 Hz -/
def fsMax : F32 := 0x483B8000#32
/-- F_MIN, 1.0 Hz -/
def fMin : F32 := 0x3F800000#32
/-- FREQ_CEIL, 96000.0 Hz -/
def freqCeil : F32 := 0x47BB8000#32
/-- AMP_MAX, 1.0 -/
def ampMax : F32 := 0x3F800000#32
/-- T_MAX, 60.0 s -/
def tMax : F32 := 0x42700000#32
/-- CUTOFF_MIN, 1.0 Hz -/
def cutoffMin : F32 := 0x3F800000#32
/-- F_CAP, 1.0 -/
def fCap : F32 := 0x3F800000#32
/-- TWO_PI_F32, 6.2831855 -/
def twoPi : F32 := 0x40C90FDB#32
/-- R_MAX, 0.99000001 -/
def rMax : F32 := 0x3F7D70A4#32
/-- FB_MAX, 0.99999994 -/
def fbMax : F32 := 0x3F7FFFFF#32
/-- NOTE_MAX -/
def noteMax : Nat := 127
/-- ID_VALUE, ASCII "DMI1" (00_scope.md R3) -/
def idValue : BitVec 32 := 0x444D4931#32

/-- nextDown(FREQ_CEIL), the highest cutoff CONFIG accepts (40_command_port.md R184). -/
def cutoffMaxConfig : F32 := F32.nextDown freqCeil

/-- nextDown(fs_act / 2), the highest cutoff RUNNING stores (40_command_port.md R184). -/
def cutoffMaxRunning (fsAct : F32) : F32 := F32.nextDown (F32.div fsAct F32.two)

/-! ## Enumerated operands (30_encoding.md R149) -/

/-- ENG_SET_MODE's IMM16; a value outside the table has no mode. -/
def engineModeOf (imm : BitVec 16) : Option EngineMode :=
  match imm.toNat with
  | 0 => some .voice
  | 1 => some .delay
  | 2 => some .voiceDelay
  | _ => none

/-- OSC_SET_WAVEFORM's IMM16. -/
def waveformOf (imm : BitVec 16) : Option Waveform :=
  match imm.toNat with
  | 0 => some .sine
  | 1 => some .saw
  | 2 => some .triangle
  | 3 => some .square
  | _ => none

/-- FLT_SET_MODE's IMM16. -/
def filterModeOf (imm : BitVec 16) : Option FilterMode :=
  match imm.toNat with
  | 0 => some .low
  | 1 => some .band
  | 2 => some .high
  | _ => none

/-- The value of ENGINE_MODE as a register (10_state.md R64). -/
def engineModeNumber : EngineMode → BitVec 32
  | .voice => 0#32
  | .delay => 1#32
  | .voiceDelay => 2#32

/-- The value of WAVEFORM as a register (10_state.md R64). -/
def waveformNumber : Waveform → BitVec 32
  | .sine => 0#32
  | .saw => 1#32
  | .triangle => 2#32
  | .square => 3#32

/-- The value of FMODE as a register (10_state.md R64). -/
def filterModeNumber : FilterMode → BitVec 32
  | .low => 0#32
  | .band => 1#32
  | .high => 2#32

/-- The units a mode uses (46_engine.md R433): the voice in VOICE and VOICE_DELAY. -/
def usesVoice : EngineMode → Bool
  | .voice => true
  | .delay => false
  | .voiceDelay => true

/-- The units a mode uses (46_engine.md R433): the delay in DELAY and VOICE_DELAY. -/
def usesDelay : EngineMode → Bool
  | .voice => false
  | .delay => true
  | .voiceDelay => true

/-! ## The f32 parameters of two regimes -/

/-- The parameters that `store_f32` stores (40_command_port.md R184, R186). -/
inductive F32Param where
  | amp
  | attack
  | decay
  | sustain
  | release
  | cutoff
  | res
  | feedback
deriving DecidableEq, Repr

/-- `shadow.param <- v`, which also sets the parameter's valid bit (10_state.md R62). -/
def Shadow.setF32 (p : F32Param) (v : F32) (h : Shadow) : Shadow :=
  match p with
  | .amp => { h with amp := some v }
  | .attack => { h with attack := some v }
  | .decay => { h with decay := some v }
  | .sustain => { h with sustain := some v }
  | .release => { h with release := some v }
  | .cutoff => { h with cutoff := some v }
  | .res => { h with res := some v }
  | .feedback => { h with feedback := some v }

/-- A value outside the legal set [lo, hi]; a NaN is outside every set (40_command_port.md R184). -/
def outside (x lo hi : F32) : Bool := F32.isNaN x || F32.lt x lo || F32.gt x hi

/-- store_f32 (40_command_port.md R186), by the regimes of R184: in CONFIG a value outside [lo, hi] is
refused with CONFIG_RANGE, in RUNNING it is clamped; -0.0 is stored as +0.0 (R182). -/
def State.storeF32 (p : F32Param) (x lo hi nanv : F32) (s : State) : Except Code State :=
  match s.phase with
  | .config =>
    if outside x lo hi then .error .configRange
    else .ok { s with shadow := s.shadow.setF32 p (F32.plusZero x) }
  | .running =>
    .ok { s with shadow := s.shadow.setF32 p (F32.plusZero (F32.clamp x lo hi nanv)) }

/-- store_clamped_f32 (40_command_port.md R186): FREQ, clamped in both phases, with -0.0 out of the way
as everywhere (R182). -/
def storedFreq (x : F32) : F32 := F32.plusZero (F32.clamp x fMin freqCeil fMin)

/-- min(max(n, lo), hi): an integer operand clamped (40_command_port.md R184). -/
def clampNat (n lo hi : Nat) : Nat := min (max n lo) hi

/-- The integer regime of 40_command_port.md R184: outside [lo, hi] refused in CONFIG, clamped in
RUNNING. -/
def State.rangedNat (n lo hi : Nat) (s : State) : Except Code Nat :=
  match s.phase with
  | .config => if n < lo ∨ hi < n then .error .configRange else .ok n
  | .running => .ok (clampNat n lo hi)

end Sys2Proof.Machine
end

