-- ==== Sys2Proof/Machine/Delay.lean ====
section
/-! DEFINITION. The delay line and its commands (44_delay.md). -/

namespace Sys2Proof.Machine

/-! ## Datapath -/

/-- The read index of DLY_STEP (44_delay.md R340, R343). -/
def readIndex (cap d : Nat) (dlyW : BitVec 32) : Nat := (dlyW.toNat + cap - d) % cap

/-- The write index after DLY_STEP (44_delay.md R340). -/
def nextWrite (cap : Nat) (dlyW : BitVec 32) : BitVec 32 := BitVec.ofNat 32 ((dlyW.toNat + 1) % cap)

/-- The sample DLY_STEP reads, before it writes (44_delay.md R340). -/
def delayed (cap d : Nat) (a : AudioState) : F32 := a.dly.read (readIndex cap d a.dlyW)

/-- The state after DLY_STEP(x): the dry input plus feedback is written, then the write index advances
(44_delay.md R340). -/
def dlyAdvance (cap d : Nat) (g x : F32) (a : AudioState) : AudioState :=
  { a with
    dly := a.dly.write a.dlyW.toNat (F32.add x (F32.mul g (delayed cap d a)))
    dlyW := nextWrite cap a.dlyW }

/-- The output of DLY_STEP(x): y = x +f r (44_delay.md R340, R341). -/
def dlyOut (cap d : Nat) (x : F32) (a : AudioState) : F32 := F32.add x (delayed cap d a)

/-! ## Commands -/

/-- DLY_SET_DELAY (44_delay.md R360): refused beyond the capacity in either phase. -/
def execDlySetDelay (n : BitVec 32) (s : State) : Host.Outcome State Fault Refusal :=
  s.complete 0x28#8 <|
    if s.params.dlyCap ≤ n.toNat then .error .outOfRange
    else .ok { s with shadow := { s.shadow with delay := some n } }

/-- DLY_SET_FEEDBACK (44_delay.md R361). -/
def execDlySetFeedback (g : F32) (s : State) : Host.Outcome State Fault Refusal :=
  s.complete 0x29#8 (s.storeF32 .feedback g F32.zero fbMax F32.zero)

end Sys2Proof.Machine
end

