-- ==== Sys2Proof/Machine/Envelope.lean ====
section
/-! DEFINITION. The ADSR envelope generator and its commands (42_envelope.md). -/

namespace Sys2Proof.Machine

/-! ## Datapath -/

/-- What the envelope needs of the block latch (42_envelope.md R261, R264; 46_engine.md R436). -/
structure EnvLatch where
  attack : F32
  decay : F32
  sustain : F32
  release : F32
  /-- `none` where A = 0: "A slope that belongs to a zero time is not computed" (R261). -/
  attackInc : Option F32
  /-- `none` where D = 0. -/
  decayInc : Option F32
  fsAct : F32
deriving DecidableEq, Repr

/-- ENV_SLOPES (42_envelope.md R261), computed once per block from the latched A, D, S and fs_act. -/
def envSlopes (a d sus rel fs : F32) : EnvLatch :=
  { attack := a
    decay := d
    sustain := sus
    release := rel
    attackInc := if F32.eq a F32.zero then none else some (F32.div F32.one (F32.mul a fs))
    decayInc :=
      if F32.eq d F32.zero then none else some (F32.div (F32.sub F32.one sus) (F32.mul d fs))
    fsAct := fs }

/-- ENV_EVENTS (42_envelope.md R262): a trigger or a rising gate enters ATTACK, a low gate in ATTACK,
DECAY or SUSTAIN enters RELEASE; the level is kept. -/
def envEvents (gate trig : Bool) (e : EnvState) : EnvState :=
  if trig || (gate && !e.prevGate) then { e with stage := .attack, prevGate := gate }
  else if !gate && (e.stage = .attack || e.stage = .decay || e.stage = .sustain) then
    { e with relStart := e.level, stage := .release, prevGate := gate }
  else { e with prevGate := gate }

/-- A stalled ramp moves by one unit in the last place (42_envelope.md R264). -/
def unstall (step : F32 → F32) (level new : F32) : F32 := if F32.eq new level then step level else new

/-- The release slope (42_envelope.md R266): r_inc = rel_start /f (R *f fs_act). -/
def releaseInc (l : EnvLatch) (relStart : F32) : F32 := F32.div relStart (F32.mul l.release l.fsAct)

/-- ENV_ADVANCE in ATTACK (42_envelope.md R264). -/
def advanceAttack (l : EnvLatch) (e : EnvState) : EnvState :=
  let new := unstall F32.nextUp e.level
    (match l.attackInc with
      | none => F32.one
      | some inc => F32.add e.level inc)
  if F32.ge new F32.one then { e with level := F32.one, stage := .decay } else { e with level := new }

/-- ENV_ADVANCE in DECAY (42_envelope.md R264). -/
def advanceDecay (l : EnvLatch) (e : EnvState) : EnvState :=
  let new := unstall F32.nextDown e.level
    (match l.decayInc with
      | none => l.sustain
      | some inc => F32.sub e.level inc)
  if F32.le new l.sustain then { e with level := l.sustain, stage := .sustain }
  else { e with level := new }

/-- ENV_ADVANCE in RELEASE (42_envelope.md R264, R266). -/
def advanceRelease (l : EnvLatch) (e : EnvState) : EnvState :=
  let new := unstall F32.nextDown e.level
    (if F32.eq l.release F32.zero then F32.zero
      else F32.sub e.level (releaseInc l e.relStart))
  if F32.le new F32.zero then { e with level := F32.zero, stage := .idle }
  else { e with level := new }

/-- ENV_ADVANCE (42_envelope.md R264, R265). -/
def envAdvance (l : EnvLatch) (e : EnvState) : EnvState :=
  match e.stage with
  | .idle => { e with level := F32.zero }
  | .attack => advanceAttack l e
  | .decay => advanceDecay l e
  | .sustain => { e with level := l.sustain }
  | .release => advanceRelease l e

/-- ENV_STEP (42_envelope.md R262): the events, then the advance. The sample is the new level. -/
def envStep (l : EnvLatch) (gate trig : Bool) (e : EnvState) : EnvState :=
  envAdvance l (envEvents gate trig e)

/-! ## Commands -/

/-- ENV_SET_ATTACK (42_envelope.md R280). -/
def execEnvSetAttack (seconds : F32) (s : State) : Host.Outcome State Fault Refusal :=
  s.complete 0x18#8 (s.storeF32 .attack seconds F32.zero tMax F32.zero)

/-- ENV_SET_DECAY (42_envelope.md R281). -/
def execEnvSetDecay (seconds : F32) (s : State) : Host.Outcome State Fault Refusal :=
  s.complete 0x19#8 (s.storeF32 .decay seconds F32.zero tMax F32.zero)

/-- ENV_SET_SUSTAIN (42_envelope.md R282). -/
def execEnvSetSustain (level : F32) (s : State) : Host.Outcome State Fault Refusal :=
  s.complete 0x1A#8 (s.storeF32 .sustain level F32.zero F32.one F32.zero)

/-- ENV_SET_RELEASE (42_envelope.md R283). -/
def execEnvSetRelease (seconds : F32) (s : State) : Host.Outcome State Fault Refusal :=
  s.complete 0x1B#8 (s.storeF32 .release seconds F32.zero tMax F32.zero)

end Sys2Proof.Machine
end

