-- ==== Sys2Proof/Machine/Filter.lean ====
section
/-! DEFINITION. The state-variable filter core and its commands (43_filter.md). -/

namespace Sys2Proof.Machine

/-! ## Datapath -/

/-- The cutoff coefficient f of FLT_COEFFS (43_filter.md R300), capped at F_CAP. -/
def cutoffCoeff (fc fs : F32) : F32 :=
  let t1 := F32.div fc fs
  let t2 := F32.mul twoPi t1
  if F32.ge t2 fCap then fCap else t2

/-- The damping q of FLT_COEFFS (43_filter.md R300). -/
def dampingCoeff (res : F32) : F32 := F32.sub F32.one res

/-- FLT_STEP (43_filter.md R303): band from the previous high, low from the new band, high from the new
low and the new band. Each product and sum is rounded separately. -/
def fltStep (f q x : F32) (st : FltState) : FltState :=
  let band := F32.add st.band (F32.mul f st.high)
  let low := F32.add st.low (F32.mul f band)
  let high := F32.sub (F32.sub x low) (F32.mul q band)
  { low := low, band := band, high := high }

/-- The selected output (43_filter.md R304). -/
def fltOut (m : FilterMode) (st : FltState) : F32 :=
  match m with
  | .low => st.low
  | .band => st.band
  | .high => st.high

/-! ## Commands -/

/-- FLT_SET_CUTOFF (43_filter.md R320): the upper bound is nextDown(FREQ_CEIL) in CONFIG and
nextDown(fs_act / 2) in RUNNING. -/
def execFltSetCutoff (hz : F32) (s : State) : Host.Outcome State Fault Refusal :=
  s.complete 0x20#8 <|
    match s.phase with
    | .config => s.storeF32 .cutoff hz cutoffMin cutoffMaxConfig cutoffMin
    | .running => s.storeF32 .cutoff hz cutoffMin (cutoffMaxRunning s.audio.fsAct) cutoffMin

/-- FLT_SET_RES (43_filter.md R321). -/
def execFltSetRes (r : F32) (s : State) : Host.Outcome State Fault Refusal :=
  s.complete 0x21#8 (s.storeF32 .res r F32.zero rMax F32.zero)

/-- FLT_SET_MODE (43_filter.md R322). -/
def execFltSetMode (imm : BitVec 16) (s : State) : Host.Outcome State Fault Refusal :=
  s.complete 0x22#8 <|
    match filterModeOf imm with
    | none => .error .outOfRange
    | some m => .ok { s with shadow := { s.shadow with fmode := some m } }

end Sys2Proof.Machine
end

