-- ==== Sys2Proof/Machine/Flags.lean ====
section
/-! DEFINITION. The status bits, which are views of the state with no storage of their own (10_state.md
R50, R52, R62, R63; log 18), and the register map that REG_READ reads (R60). -/

namespace Sys2Proof.Machine

/-- STATUS: RUNNING in bit 0, SEQ_RUN in bit 1, LAST_ERR in bits 15:8, the rest 0 (10_state.md R50). -/
def State.statusWord (s : State) : BitVec 32 :=
  0#16 ++ s.lastErr.number ++ 0#6 ++ BitVec.ofBool s.seq.run
    ++ BitVec.ofBool (decide (s.phase = .running))

/-- PARAM_VALID, bit 0 first (10_state.md R62). -/
def State.paramBits (s : State) : List Bool :=
  [ s.shadow.fs.isSome, s.shadow.block.isSome, s.shadow.engineMode.isSome, s.mb.freq.isSome,
    s.shadow.waveform.isSome, s.shadow.amp.isSome, s.shadow.attack.isSome, s.shadow.decay.isSome,
    s.shadow.sustain.isSome, s.shadow.release.isSome, s.shadow.cutoff.isSome, s.shadow.res.isSome,
    s.shadow.fmode.isSome, s.shadow.delay.isSome, s.shadow.feedback.isSome, s.seq.len.isSome,
    s.seq.stepMs.isSome ]

/-- PARAM_VALID as a register: bits 31:17 read as 0 (10_state.md R62). -/
def State.paramValidWord (s : State) : BitVec 32 :=
  (BitVec.ofBoolListLE s.paramBits).setWidth 32

/-- NOTE_VALID, bit 0 first: bits SEQ_MAX and above are 0 (10_state.md R63). -/
def State.noteBits (s : State) : List Bool :=
  (List.range 16).map (fun i => decide (i < s.params.seqMax) && s.note.isSet i)

/-- NOTE_VALID as a register (10_state.md R63). -/
def State.noteValidWord (s : State) : BitVec 32 := (BitVec.ofBoolListLE s.noteBits).setWidth 32

/-- VOICE_PARAMS_VALID: PARAM_VALID bits 3..12 all 1 (46_engine.md R432). -/
def State.voiceParamsValid (s : State) : Bool := ((s.paramBits.drop 3).take 10).all id

/-- DELAY_PARAMS_VALID: PARAM_VALID bits 13 and 14 both 1 (46_engine.md R432). -/
def State.delayParamsValid (s : State) : Bool := ((s.paramBits.drop 13).take 2).all id

/-- Every parameter that a mode uses is set (46_engine.md R432, R434). -/
def State.modeParamsValid (s : State) (m : EngineMode) : Bool :=
  (!usesVoice m || s.voiceParamsValid) && (!usesDelay m || s.delayParamsValid)

/-- The registers of 10_state.md R60. -/
inductive Reg where
  | id | status | paramValid | noteValid
  | fs | block | engineMode
  | freq | waveform | amp
  | attack | decay | sustain | release
  | cutoff | res | fmode
  | delay | feedback
  | seqLen | stepMs | seqStep | seqLastMs | mbGate | mbTrig
  | note (i : Nat)
deriving DecidableEq, Repr

/-- The numbers of the registers below 0x080 (10_state.md R60). -/
def fixedReg (n : Nat) : Option Reg :=
  match n with
  | 0x000 => some .id
  | 0x001 => some .status
  | 0x002 => some .paramValid
  | 0x003 => some .noteValid
  | 0x010 => some .fs
  | 0x011 => some .block
  | 0x012 => some .engineMode
  | 0x020 => some .freq
  | 0x021 => some .waveform
  | 0x022 => some .amp
  | 0x028 => some .attack
  | 0x029 => some .decay
  | 0x02A => some .sustain
  | 0x02B => some .release
  | 0x030 => some .cutoff
  | 0x031 => some .res
  | 0x032 => some .fmode
  | 0x038 => some .delay
  | 0x039 => some .feedback
  | 0x040 => some .seqLen
  | 0x041 => some .stepMs
  | 0x042 => some .seqStep
  | 0x043 => some .seqLastMs
  | 0x044 => some .mbGate
  | 0x045 => some .mbTrig
  | _ => none

/-- The register of a number; every other number is undefined (10_state.md R60). NOTE[i] is 0x080 + i,
for i below SEQ_MAX. -/
def regOf (seqMax : Nat) (num : BitVec 16) : Option Reg :=
  if 0x080 ≤ num.toNat then
    if num.toNat - 0x080 < seqMax then some (.note (num.toNat - 0x080)) else none
  else fixedReg num.toNat

/-- The value REG_READ returns: an f32 as its pattern, an integer zero-extended; `none` where the
register is a parameter that is unset (10_state.md R60, R61; 40_command_port.md R190). -/
def State.regValue (s : State) : Reg → Option (BitVec 32)
  | .id => some idValue
  | .status => some s.statusWord
  | .paramValid => some s.paramValidWord
  | .noteValid => some s.noteValidWord
  | .fs => s.shadow.fs
  | .block => s.shadow.block.map (·.setWidth 32)
  | .engineMode => s.shadow.engineMode.map engineModeNumber
  | .freq => s.mb.freq
  | .waveform => s.shadow.waveform.map waveformNumber
  | .amp => s.shadow.amp
  | .attack => s.shadow.attack
  | .decay => s.shadow.decay
  | .sustain => s.shadow.sustain
  | .release => s.shadow.release
  | .cutoff => s.shadow.cutoff
  | .res => s.shadow.res
  | .fmode => s.shadow.fmode.map filterModeNumber
  | .delay => s.shadow.delay
  | .feedback => s.shadow.feedback
  | .seqLen => s.seq.len.map (·.setWidth 32)
  | .stepMs => s.seq.stepMs
  | .seqStep => some (s.seq.step.setWidth 32)
  | .seqLastMs => some s.seq.lastMs
  | .mbGate => some ((BitVec.ofBool s.mb.gate).setWidth 32)
  | .mbTrig => some s.mb.trig
  | .note i => (entryAt s.note i).map (·.setWidth 32)

/-- REG_READ's result: BAD_REG before UNSET (40_command_port.md R190; 60_exceptions.md R486). -/
def State.readReg (s : State) (num : BitVec 16) : Except Code (BitVec 32) :=
  match regOf s.params.seqMax num with
  | none => .error .badReg
  | some r =>
    match s.regValue r with
    | none => .error .unset
    | some v => .ok v

end Sys2Proof.Machine
end

