-- ==== Sys2Proof/Machine/Oscillator.lean ====
section
/-! DEFINITION. The phase accumulator, the waveshaper and the oscillator commands (41_oscillator.md). -/

namespace Sys2Proof.Machine

/-! ## Datapath -/

/-- PHASE_INC(freq, fs), once per block (41_oscillator.md R222). -/
def phaseInc (freq fs : F32) : Nat :=
  let nyq := F32.div fs F32.two
  let feff := if F32.gt freq nyq then nyq else freq
  let t := F32.div feff fs
  let v := F32.mul t 0x4F800000#32
  F32.rneInt v

/-- The phase advance of OSC_STEP: osc_P <- (osc_P + inc) mod 2^32 (41_oscillator.md R220). -/
def phaseAdvance (inc : Nat) (oscP : BitVec 32) : BitVec 32 := BitVec.ofNat 32 (oscP.toNat + inc)

/-- The phase as an f32: pf = u2f(osc_P[31:8]) *f 2^-24 (41_oscillator.md R224). -/
def phaseF32 (oscP : BitVec 32) : F32 :=
  F32.mul (F32.ofNat (oscP.extractLsb' 8 24).toNat) 0x33800000#32

/-- SINE (41_oscillator.md R230): the ROM entry of the top 10 bits, not interpolated. -/
def shapeSine (oscP : BitVec 32) : F32 := sineRom (oscP.extractLsb' 22 10)

/-- SAW (41_oscillator.md R231): (2.0 *f pf) -f 1.0. -/
def shapeSaw (oscP : BitVec 32) : F32 := F32.sub (F32.mul F32.two (phaseF32 oscP)) F32.one

/-- TRIANGLE (41_oscillator.md R233): the saw folded about zero. -/
def shapeTriangle (oscP : BitVec 32) : F32 :=
  F32.sub F32.one (F32.mul F32.two (F32.abs (shapeSaw oscP)))

/-- SQUARE (41_oscillator.md R234): the threshold is phase 0.5. -/
def shapeSquare (oscP : BitVec 32) : F32 := if oscP.getLsbD 31 then F32.minusOne else F32.one

/-- SHAPE(wf, P) (41_oscillator.md R229). -/
def shape (wf : Waveform) (oscP : BitVec 32) : F32 :=
  match wf with
  | .sine => shapeSine oscP
  | .saw => shapeSaw oscP
  | .triangle => shapeTriangle oscP
  | .square => shapeSquare oscP

/-- The oscillator sample of OSC_STEP after the advance (41_oscillator.md R220, R235). -/
def oscSample (wf : Waveform) (amp : F32) (oscP : BitVec 32) : F32 := F32.mul amp (shape wf oscP)

/-! ## Commands -/

/-- OSC_SET_FREQ (41_oscillator.md R240): clamped in both phases, one atomic mailbox update. -/
def execOscSetFreq (hz : F32) (s : State) : Host.Outcome State Fault Refusal :=
  s.complete 0x10#8 (.ok { s with mb := { s.mb with freq := some (storedFreq hz) } })

/-- OSC_SET_WAVEFORM (41_oscillator.md R241). -/
def execOscSetWaveform (imm : BitVec 16) (s : State) : Host.Outcome State Fault Refusal :=
  s.complete 0x11#8 <|
    match waveformOf imm with
    | none => .error .outOfRange
    | some wf => .ok { s with shadow := { s.shadow with waveform := some wf } }

/-- OSC_SET_AMP (41_oscillator.md R242). -/
def execOscSetAmp (a : F32) (s : State) : Host.Outcome State Fault Refusal :=
  s.complete 0x12#8 (s.storeF32 .amp a F32.zero ampMax F32.zero)

end Sys2Proof.Machine
end

