-- ==== Sys2Proof/WellFormed.lean ====
section
/-! DEFINITION. The well-formedness checks. Every operand of `Instr` has exactly the width of the field
that carries it (30_encoding.md R140, R143, R144), so every term of `Instr` is an instruction that can
be encoded, and an operand outside its legal set is no encoding error but a failing command
(30_encoding.md R149). What can be ill formed is the rest of what the host supplies: the model
arguments, a port transfer, and an audio block. -/

namespace Sys2Proof

/-- The bounds of the OPEN parameters (00_scope.md R10). That DLY_CAP is at most 2^32 is DEDUCED from
the 32-bit index of the ring (10_state.md R78, R90; log 15). -/
def Params.wellFormed (p : Params) : Bool :=
  decide (2 ≤ p.dlyCap) && decide (p.dlyCap ≤ 2 ^ 32) && decide (1 ≤ p.blockMax)
    && decide (p.blockMax ≤ 65535) && decide (1 ≤ p.numCh) && decide (1 ≤ p.seqMax)
    && decide (p.seqMax ≤ 16)

/-- A port transfer is a whole 64-bit word: 8 bytes (20_memory.md R100, R102; 60_exceptions.md R500). -/
def wholeWord (bytes : List Byte) : Bool := bytes.length == 8

/-- A block has `numCh` channels of `n` samples each (20_memory.md R101; 60_exceptions.md R500). -/
def hasShape (numCh n : Nat) (b : Block) : Bool :=
  b.length == numCh && b.all (fun channel => channel.length == n)

end Sys2Proof
end

