-- ==== Sys2Proof/Machine/Engine.lean ====
section
/-! DEFINITION. The voice signal chain and the render engine: the configuration commands, START and
RENDER (46_engine.md). -/

namespace Sys2Proof.Machine

/-! ## Configuration and start -/

/-- CFG_SAMPLE_RATE (46_engine.md R430). -/
def execCfgSampleRate (hz : F32) (s : State) : Host.Outcome State Fault Refusal :=
  s.complete 0x08#8 <|
    match s.phase with
    | .running => .error .wrongPhase
    | .config =>
      if outside hz fsMin fsMax then .error .configRange
      else .ok { s with shadow := { s.shadow with fs := some hz } }

/-- CFG_BLOCK_SIZE (46_engine.md R431). -/
def execCfgBlockSize (n : BitVec 16) (s : State) : Host.Outcome State Fault Refusal :=
  s.complete 0x09#8 <|
    match s.phase with
    | .running => .error .wrongPhase
    | .config =>
      if n.toNat < 1 ∨ s.params.blockMax < n.toNat then .error .configRange
      else .ok { s with shadow := { s.shadow with block := some n } }

/-- ENG_SET_MODE (46_engine.md R432): in RUNNING the parameters of the new mode must be set. -/
def execEngSetMode (imm : BitVec 16) (s : State) : Host.Outcome State Fault Refusal :=
  s.complete 0x0A#8 <|
    match engineModeOf imm with
    | none => .error .outOfRange
    | some m =>
      if s.phase = .running ∧ s.modeParamsValid m = false then .error .unset
      else .ok { s with shadow := { s.shadow with engineMode := some m } }

/-- START's cross-check: CUTOFF <f FS /f 2.0 (46_engine.md R434). -/
def cutoffBelowNyquist (cutoff : Option F32) (fs : F32) : Bool :=
  match cutoff with
  | some fc => F32.lt fc (F32.div fs F32.two)
  | none => false

/-- The audio domain as START leaves it (46_engine.md R434): every entry of DLY is +0.0. -/
def startedAudio (fs : F32) (blk : BitVec 16) (trig : BitVec 32) : AudioState :=
  { fsAct := fs, blkAct := blk, oscP := 0#32, env := EnvState.reset, flt := FltState.reset,
    dly := Memory.zeroFilled, dlyW := 0#32, lastTrig := trig }

/-- START (46_engine.md R434): phase, then the UNSET requirements, then the cross-check. -/
def execStart (s : State) : Host.Outcome State Fault Refusal :=
  s.complete 0x0B#8 <|
    match s.phase with
    | .running => .error .wrongPhase
    | .config =>
      match s.shadow.fs, s.shadow.block, s.shadow.engineMode with
      | some fs, some blk, some m =>
        if s.modeParamsValid m = false then .error .unset
        else if usesVoice m && !cutoffBelowNyquist s.shadow.cutoff fs then .error .configRange
        else .ok { s with phase := .running, audio := startedAudio fs blk s.mb.trig }
      | _, _, _ => .error .unset

/-! ## The block latch -/

/-- What the voice uses of the block latch (46_engine.md R436). -/
structure VoiceLatch where
  waveform : Waveform
  amp : F32
  fmode : FilterMode
  gate : Bool
  inc : Nat
  env : EnvLatch
  f : F32
  q : F32
deriving DecidableEq, Repr

/-- What the delay uses of the block latch (46_engine.md R436). -/
structure DelayLatch where
  delay : Nat
  feedback : F32
deriving DecidableEq, Repr

/-- The block latch, by its mode: "A parameter the mode does not use may be unset; it is then not read"
(46_engine.md R436). -/
inductive Latch where
  | voice (v : VoiceLatch)
  | delay (d : DelayLatch)
  | voiceDelay (v : VoiceLatch) (d : DelayLatch)
deriving DecidableEq, Repr

/-- A 32-bit parameter as the latch reads it; unset, it is a free value (log 6). -/
def latched (num : BitVec 16) (v : Option (BitVec 32)) : BitVec 32 := v.getD (Config.unsetWord num)

/-- The voice part of BLOCK_LATCH: the shadow registers, the mailbox, and the quantities computed once
per block (46_engine.md R436; 41_oscillator.md R222; 42_envelope.md R261; 43_filter.md R300). -/
def State.voiceLatch (s : State) : VoiceLatch :=
  { waveform := s.shadow.waveform.getD Config.unsetWaveform
    amp := latched 0x022#16 s.shadow.amp
    fmode := s.shadow.fmode.getD Config.unsetFilterMode
    gate := s.mb.gate
    inc := phaseInc (latched 0x020#16 s.mb.freq) s.audio.fsAct
    env := envSlopes (latched 0x028#16 s.shadow.attack) (latched 0x029#16 s.shadow.decay)
      (latched 0x02A#16 s.shadow.sustain) (latched 0x02B#16 s.shadow.release) s.audio.fsAct
    f := cutoffCoeff (latched 0x030#16 s.shadow.cutoff) s.audio.fsAct
    q := dampingCoeff (latched 0x031#16 s.shadow.res) }

/-- The delay part of BLOCK_LATCH (46_engine.md R436). -/
def State.delayLatch (s : State) : DelayLatch :=
  { delay := (latched 0x038#16 s.shadow.delay).toNat
    feedback := latched 0x039#16 s.shadow.feedback }

/-- BLOCK_LATCH (46_engine.md R436). -/
def State.blockLatch (s : State) : Latch :=
  match s.shadow.engineMode.getD Config.unsetMode with
  | .voice => .voice s.voiceLatch
  | .delay => .delay s.delayLatch
  | .voiceDelay => .voiceDelay s.voiceLatch s.delayLatch

/-- L.trig_event: the trigger counter differs from what the previous latch saw (46_engine.md R437). -/
def State.trigEvent (s : State) : Bool := s.mb.trig != s.audio.lastTrig

/-! ## One sample (46_engine.md R440) -/

/-- A sample and the audio domain after it. -/
structure Sampled where
  out : F32
  audio : AudioState
deriving DecidableEq, Repr

/-- VOICE_STEP (46_engine.md R440): oscillator, then envelope, then filter. -/
def voiceStep (v : VoiceLatch) (trig : Bool) (a : AudioState) : Sampled :=
  let oscP := phaseAdvance v.inc a.oscP
  let env := envStep v.env v.gate trig a.env
  let x := F32.mul (oscSample v.waveform v.amp oscP) env.level
  let flt := fltStep v.f v.q x a.flt
  { out := fltOut v.fmode flt, audio := { a with oscP := oscP, env := env, flt := flt } }

/-- DLY_STEP (44_delay.md R340) as a sample. -/
def delayStep (cap : Nat) (d : DelayLatch) (x : F32) (a : AudioState) : Sampled :=
  { out := dlyOut cap d.delay x a, audio := dlyAdvance cap d.delay d.feedback x a }

/-- SAMPLE(L, i, xin), before saturation (46_engine.md R440). -/
def sample (cap : Nat) (l : Latch) (trig : Bool) (xin : F32) (a : AudioState) : Sampled :=
  match l with
  | .voice v => voiceStep v trig a
  | .delay d => delayStep cap d (F32.sat xin) a
  | .voiceDelay v d =>
    delayStep cap d (F32.sat (voiceStep v trig a).out) (voiceStep v trig a).audio

/-! ## RENDER -/

/-- The samples of one channel of a block, and the audio domain after it. -/
structure Rendered where
  out : List F32
  audio : AudioState
deriving DecidableEq, Repr

/-- The samples of a block, in order, each saturated; `trig` is the trigger of the first one (46_engine.md
R435, R437, R440). -/
def renderSamples (cap : Nat) (l : Latch) : Bool → List F32 → AudioState → Rendered
  | _, [], a => { out := [], audio := a }
  | trig, xin :: rest, a =>
    let y := sample cap l trig xin a
    let r := renderSamples cap l false rest y.audio
    { out := F32.sat y.out :: r.out, audio := r.audio }

/-- The audio domain after the latch: last_trig takes the mailbox's counter (46_engine.md R436, R437). -/
def State.latchedAudio (s : State) : AudioState := { s.audio with lastTrig := s.mb.trig }

/-- A RUNNING RENDER: the latch, then one sample for each sample of input channel 0 (46_engine.md R435,
R441). -/
def State.renderBlock (s : State) : Rendered :=
  renderSamples s.params.dlyCap s.blockLatch s.trigEvent (s.audioIn.headD []) s.latchedAudio

/-- A block of +0.0, of the shape of `b` (46_engine.md R435). -/
def silence (b : Block) : Block := b.map (fun channel => channel.map (fun _ => F32.zero))

/-- RENDER (46_engine.md R435, R441): silence in CONFIG, for as many samples as the request carries
(log 10); in RUNNING one block, the same samples on every channel. A block of the wrong shape in RUNNING
is a host error, which a model refuses (60_exceptions.md R500). -/
def execRender (s : State) : Host.Outcome State Fault Refusal :=
  match s.phase with
  | .config => .next { s with outBlocks := silence s.audioIn :: s.outBlocks }
  | .running =>
    if hasShape s.params.numCh s.audio.blkAct.toNat s.audioIn then
      .next
        { s with
          audio := s.renderBlock.audio
          outBlocks := List.replicate s.params.numCh s.renderBlock.out :: s.outBlocks }
    else .refused .blockShape

end Sys2Proof.Machine
end

