-- ==== Sys2Proof/Machine/Port.lean ====
section
/-! DEFINITION. The port housekeeping commands: NOP, REG_READ, ERR_CLEAR, SOFT_RESET
(40_command_port.md). -/

namespace Sys2Proof.Machine

/-- NOP (40_command_port.md R188). -/
def execNop (s : State) : Host.Outcome State Fault Refusal := s.complete 0x00#8 (.ok s)

/-- REG_READ (40_command_port.md R190). -/
def execRegRead (reg : BitVec 16) (s : State) : Host.Outcome State Fault Refusal :=
  s.completeData 0x01#8 (s.readReg reg)

/-- ERR_CLEAR (40_command_port.md R192). -/
def execErrClear (s : State) : Host.Outcome State Fault Refusal :=
  s.complete 0x02#8 (.ok { s with lastErr := .ok })

/-- SOFT_RESET (40_command_port.md R194): the response is sent after the reset. -/
def execSoftReset (s : State) : Host.Outcome State Fault Refusal :=
  s.complete 0x03#8 (.ok s.applyReset)

end Sys2Proof.Machine
end

