-- ==== Sys2Proof/Machine/Sequencer.lean ====
section
/-! DEFINITION. The step sequencer's commands (45_sequencer.md). -/

namespace Sys2Proof.Machine

/-- SEQ_SET_LENGTH (45_sequencer.md R385): refused while the sequencer runs. -/
def execSeqSetLength (n : BitVec 16) (s : State) : Host.Outcome State Fault Refusal :=
  s.complete 0x30#8 <|
    if s.seq.run then .error .wrongPhase
    else
      match s.rangedNat n.toNat 1 s.params.seqMax with
      | .error c => .error c
      | .ok v => .ok { s with seq := { s.seq with len := some (BitVec.ofNat 5 v) } }

/-- SEQ_SET_NOTE (45_sequencer.md R386): the index is checked before the note value. -/
def execSeqSetNote (i : BitVec 16) (n : BitVec 32) (s : State) : Host.Outcome State Fault Refusal :=
  s.complete 0x31#8 <|
    if s.params.seqMax ≤ i.toNat then .error .outOfRange
    else
      match s.rangedNat n.toNat 0 noteMax with
      | .error c => .error c
      | .ok v => .ok { s with note := s.note.write i.toNat (BitVec.ofNat 7 v) }

/-- SEQ_SET_STEP_MS (45_sequencer.md R387). -/
def execSeqSetStepMs (ms : BitVec 32) (s : State) : Host.Outcome State Fault Refusal :=
  s.complete 0x32#8 <|
    match s.rangedNat ms.toNat 1 (2 ^ 32 - 1) with
    | .error c => .error c
    | .ok v => .ok { s with seq := { s.seq with stepMs := some (BitVec.ofNat 32 v) } }

/-- The frequency of step i: NOTE_ROM[NOTE[i]] (45_sequencer.md R391, R393). -/
def State.stepFreq (s : State) (i : Nat) : F32 := noteRom (s.note.read i)

/-- Every note of the sequence, NOTE[0 .. n - 1], is set (45_sequencer.md R380, R392). -/
def State.notesValid (s : State) (n : Nat) : Bool := (List.range n).all (fun i => s.note.isSet i)

/-- SEQ_START (45_sequencer.md R392): step 0, one atomic mailbox update with a new trigger, the gate
unchanged. -/
def execSeqStart (now : BitVec 32) (s : State) : Host.Outcome State Fault Refusal :=
  s.complete 0x33#8 <|
    match s.seq.len, s.seq.stepMs with
    | some len, some _ =>
      if s.notesValid len.toNat then
        .ok
          { s with
            seq := { s.seq with run := true, step := 0#4, lastMs := now }
            mb := { s.mb with freq := some (s.stepFreq 0), trig := s.mb.trig + 1#32 } }
      else .error .unset
    | _, _ => .error .unset

/-- SEQ_STOP (45_sequencer.md R395). -/
def execSeqStop (s : State) : Host.Outcome State Fault Refusal :=
  s.complete 0x34#8 (.ok { s with seq := { s.seq with run := false } })

/-- Elapsed time since the step began, modulo 2^32 (45_sequencer.md R389). Any now_ms is accepted:
CLOCK_CHECK = modular (log 2). -/
def SeqState.elapsed (q : SeqState) (now : BitVec 32) : BitVec 32 := now - q.lastMs

/-- A step is due: the sequencer runs and its step time has elapsed (45_sequencer.md R393). -/
def SeqState.due (q : SeqState) (now : BitVec 32) : Bool :=
  q.run && decide ((q.stepMs.getD (Config.unsetWord 0x041#16)).toNat ≤ (q.elapsed now).toNat)

/-- The step after this one, modulo the length (45_sequencer.md R393). -/
def SeqState.nextStep (q : SeqState) : BitVec 4 :=
  BitVec.ofNat 4
    ((q.step.toNat + 1) % (q.len.map (·.toNat)).getD (Config.unsetWord 0x040#16).toNat)

/-- CTL_TICK (45_sequencer.md R393): at most one step, then one atomic mailbox update. -/
def execCtlTick (gate : Bool) (now : BitVec 32) (s : State) : Host.Outcome State Fault Refusal :=
  s.complete 0x35#8 <| .ok <|
    if s.seq.due now then
      { s with
        seq := { s.seq with step := s.seq.nextStep, lastMs := now }
        mb := { freq := some (s.stepFreq s.seq.nextStep.toNat), gate := gate,
                trig := s.mb.trig + 1#32 } }
    else { s with mb := { s.mb with gate := gate } }

end Sys2Proof.Machine
end

