-- ==== Sys2Proof/Machine/Dispatch.lean ====
section
/-! DEFINITION. The dispatch: one arm per instruction, in the order of the opcode table. -/

namespace Sys2Proof.Machine

def exec (i : Instr) (s : State) : Host.Outcome State Fault Refusal :=
  match i with
  | .nop => Sys2Proof.Machine.execNop s
  | .regRead reg => Sys2Proof.Machine.execRegRead reg s
  | .errClear => Sys2Proof.Machine.execErrClear s
  | .softReset => Sys2Proof.Machine.execSoftReset s
  | .cfgSampleRate hz => Sys2Proof.Machine.execCfgSampleRate hz s
  | .cfgBlockSize size => Sys2Proof.Machine.execCfgBlockSize size s
  | .engSetMode mode => Sys2Proof.Machine.execEngSetMode mode s
  | .start => Sys2Proof.Machine.execStart s
  | .oscSetFreq hz => Sys2Proof.Machine.execOscSetFreq hz s
  | .oscSetWaveform waveform => Sys2Proof.Machine.execOscSetWaveform waveform s
  | .oscSetAmp value => Sys2Proof.Machine.execOscSetAmp value s
  | .envSetAttack seconds => Sys2Proof.Machine.execEnvSetAttack seconds s
  | .envSetDecay seconds => Sys2Proof.Machine.execEnvSetDecay seconds s
  | .envSetSustain value => Sys2Proof.Machine.execEnvSetSustain value s
  | .envSetRelease seconds => Sys2Proof.Machine.execEnvSetRelease seconds s
  | .fltSetCutoff hz => Sys2Proof.Machine.execFltSetCutoff hz s
  | .fltSetRes value => Sys2Proof.Machine.execFltSetRes value s
  | .fltSetMode mode => Sys2Proof.Machine.execFltSetMode mode s
  | .dlySetDelay samples => Sys2Proof.Machine.execDlySetDelay samples s
  | .dlySetFeedback value => Sys2Proof.Machine.execDlySetFeedback value s
  | .seqSetLength length => Sys2Proof.Machine.execSeqSetLength length s
  | .seqSetNote index note => Sys2Proof.Machine.execSeqSetNote index note s
  | .seqSetStepMs ms => Sys2Proof.Machine.execSeqSetStepMs ms s
  | .seqStart nowMs => Sys2Proof.Machine.execSeqStart nowMs s
  | .seqStop => Sys2Proof.Machine.execSeqStop s
  | .ctlTick gate nowMs => Sys2Proof.Machine.execCtlTick gate nowMs s
  | .render => Sys2Proof.Machine.execRender s

end Sys2Proof.Machine
end

