-- ==== Sys2Proof/Decode.lean ====
section
/-! DEFINITION. Command encoding: 30_encoding.md. The fields of a word, the decoder of each port, the
encoder, and the byte order of a transport (20_memory.md R100, R101). -/

namespace Sys2Proof

/-! ## Words and bytes -/

/-- The bytes of a word as a transport carries it: little-endian, the byte of bits 7:0 first
(20_memory.md R100). -/
def bytesOfWord (w : Word64) : List Byte :=
  [w.extractLsb' 0 8, w.extractLsb' 8 8, w.extractLsb' 16 8, w.extractLsb' 24 8,
   w.extractLsb' 32 8, w.extractLsb' 40 8, w.extractLsb' 48 8, w.extractLsb' 56 8]

/-- The word that a transfer of exactly 8 bytes carries; any other transfer is no word (20_memory.md
R102). -/
def wordOfBytes : List Byte → Option Word64
  | [b0, b1, b2, b3, b4, b5, b6, b7] => some (b7 ++ b6 ++ b5 ++ b4 ++ b3 ++ b2 ++ b1 ++ b0)
  | _ => none

/-- The four little-endian bytes of a sample (20_memory.md R101). -/
def bytesOfSample (x : F32) : List Byte :=
  [x.extractLsb' 0 8, x.extractLsb' 8 8, x.extractLsb' 16 8, x.extractLsb' 24 8]

/-- A block serialised: channel-major, four little-endian bytes a sample (20_memory.md R101). -/
def bytesOfBlock (b : Block) : List Byte := b.flatMap (fun channel => channel.flatMap bytesOfSample)

/-- The samples of a serialised run; bytes that do not fill a sample give none (20_memory.md R101). -/
def samplesOfBytes : List Byte → Option (List F32)
  | [] => some []
  | b0 :: b1 :: b2 :: b3 :: rest => (samplesOfBytes rest).map ((b3 ++ b2 ++ b1 ++ b0) :: ·)
  | _ => none

/-! ## The fields of format C (30_encoding.md R140, R143) -/

def opOf (w : Word64) : BitVec 8 := w.extractLsb' 56 8
def rsvOf (w : Word64) : BitVec 8 := w.extractLsb' 48 8
def immOf (w : Word64) : BitVec 16 := w.extractLsb' 32 16
def dataOf (w : Word64) : BitVec 32 := w.extractLsb' 0 32

/-- A word of format C with RSV = 0 (30_encoding.md R140). -/
def formatC (op : BitVec 8) (imm : BitVec 16) (data : BitVec 32) : Word64 := op ++ 0#8 ++ imm ++ data

/-! ## Decoding -/

/-- Keep `i` where the unused fields are zero (30_encoding.md R145). -/
def ifZero (unused : Bool) (i : Instr) : Option Instr := if unused then some i else none

/-- The command a word on the command port encodes: the row of 30_encoding.md R146 that it matches. A
word with a nonzero RSV, a nonzero unused field or an unlisted OP matches none (R145, R150); OP 0x40 is
unlisted here, as RENDER is legal only on the audio port (R141). -/
def decodeCommand (w : Word64) : Option Instr :=
  let imm := immOf w
  let data := dataOf w
  if rsvOf w = 0#8 then
    match (opOf w).toNat with
    | 0x00 => ifZero (imm = 0#16 && data = 0#32) .nop
    | 0x01 => ifZero (data = 0#32) (.regRead imm)
    | 0x02 => ifZero (imm = 0#16 && data = 0#32) .errClear
    | 0x03 => ifZero (imm = 0#16 && data = 0#32) .softReset
    | 0x08 => ifZero (imm = 0#16) (.cfgSampleRate data)
    | 0x09 => ifZero (data = 0#32) (.cfgBlockSize imm)
    | 0x0A => ifZero (data = 0#32) (.engSetMode imm)
    | 0x0B => ifZero (imm = 0#16 && data = 0#32) .start
    | 0x10 => ifZero (imm = 0#16) (.oscSetFreq data)
    | 0x11 => ifZero (data = 0#32) (.oscSetWaveform imm)
    | 0x12 => ifZero (imm = 0#16) (.oscSetAmp data)
    | 0x18 => ifZero (imm = 0#16) (.envSetAttack data)
    | 0x19 => ifZero (imm = 0#16) (.envSetDecay data)
    | 0x1A => ifZero (imm = 0#16) (.envSetSustain data)
    | 0x1B => ifZero (imm = 0#16) (.envSetRelease data)
    | 0x20 => ifZero (imm = 0#16) (.fltSetCutoff data)
    | 0x21 => ifZero (imm = 0#16) (.fltSetRes data)
    | 0x22 => ifZero (data = 0#32) (.fltSetMode imm)
    | 0x28 => ifZero (imm = 0#16) (.dlySetDelay data)
    | 0x29 => ifZero (imm = 0#16) (.dlySetFeedback data)
    | 0x30 => ifZero (data = 0#32) (.seqSetLength imm)
    | 0x31 => some (.seqSetNote imm data)
    | 0x32 => ifZero (imm = 0#16) (.seqSetStepMs data)
    | 0x33 => ifZero (imm = 0#16) (.seqStart data)
    | 0x34 => ifZero (imm = 0#16 && data = 0#32) .seqStop
    | 0x35 => ifZero (imm.extractLsb' 1 15 = 0#15) (.ctlTick (imm.getLsbD 0) data)
    | _ => none
  else none

/-- The RENDER word of format A (30_encoding.md R141, R147). -/
def renderWord : Word64 := 0x4000000000000000#64

/-- Why a transfer is no instruction. -/
inductive Reject where
  /-- Not a whole 64-bit word: a host error (60_exceptions.md R500). -/
  | partialWord
  /-- A command word that encodes no row of 30_encoding.md R146: the command fails with ILLEGAL (R150). -/
  | illegal (w : Word64)
  /-- An audio-port word other than RENDER: a host error (30_encoding.md R150). -/
  | badAudioWord
deriving DecidableEq, Repr

/-- The instruction that a transfer on a port carries. Total on any bytes. -/
def decode (p : Port) (bytes : List Byte) : Except Reject Instr :=
  match wordOfBytes bytes with
  | none => .error (match p with | .command => .partialWord | .audio => .badAudioWord)
  | some w =>
    match p with
    | .command =>
      match decodeCommand w with
      | some i => .ok i
      | none => .error (.illegal w)
    | .audio => if w = renderWord then .ok .render else .error .badAudioWord

/-! ## Encoding -/

/-- The opcode of an instruction (30_encoding.md R146, R147). -/
def Instr.opcode : Instr → BitVec 8
  | .nop => 0x00#8
  | .regRead _ => 0x01#8
  | .errClear => 0x02#8
  | .softReset => 0x03#8
  | .cfgSampleRate _ => 0x08#8
  | .cfgBlockSize _ => 0x09#8
  | .engSetMode _ => 0x0A#8
  | .start => 0x0B#8
  | .oscSetFreq _ => 0x10#8
  | .oscSetWaveform _ => 0x11#8
  | .oscSetAmp _ => 0x12#8
  | .envSetAttack _ => 0x18#8
  | .envSetDecay _ => 0x19#8
  | .envSetSustain _ => 0x1A#8
  | .envSetRelease _ => 0x1B#8
  | .fltSetCutoff _ => 0x20#8
  | .fltSetRes _ => 0x21#8
  | .fltSetMode _ => 0x22#8
  | .dlySetDelay _ => 0x28#8
  | .dlySetFeedback _ => 0x29#8
  | .seqSetLength _ => 0x30#8
  | .seqSetNote _ _ => 0x31#8
  | .seqSetStepMs _ => 0x32#8
  | .seqStart _ => 0x33#8
  | .seqStop => 0x34#8
  | .ctlTick _ _ => 0x35#8
  | .render => 0x40#8

/-- The word of an instruction, by the operand columns of 30_encoding.md R146 and by R147. -/
def encode : Instr → Word64
  | .nop => formatC 0x00#8 0#16 0#32
  | .regRead reg => formatC 0x01#8 reg 0#32
  | .errClear => formatC 0x02#8 0#16 0#32
  | .softReset => formatC 0x03#8 0#16 0#32
  | .cfgSampleRate hz => formatC 0x08#8 0#16 hz
  | .cfgBlockSize size => formatC 0x09#8 size 0#32
  | .engSetMode mode => formatC 0x0A#8 mode 0#32
  | .start => formatC 0x0B#8 0#16 0#32
  | .oscSetFreq hz => formatC 0x10#8 0#16 hz
  | .oscSetWaveform wf => formatC 0x11#8 wf 0#32
  | .oscSetAmp a => formatC 0x12#8 0#16 a
  | .envSetAttack t => formatC 0x18#8 0#16 t
  | .envSetDecay t => formatC 0x19#8 0#16 t
  | .envSetSustain l => formatC 0x1A#8 0#16 l
  | .envSetRelease t => formatC 0x1B#8 0#16 t
  | .fltSetCutoff hz => formatC 0x20#8 0#16 hz
  | .fltSetRes r => formatC 0x21#8 0#16 r
  | .fltSetMode mode => formatC 0x22#8 mode 0#32
  | .dlySetDelay n => formatC 0x28#8 0#16 n
  | .dlySetFeedback g => formatC 0x29#8 0#16 g
  | .seqSetLength n => formatC 0x30#8 n 0#32
  | .seqSetNote i n => formatC 0x31#8 i n
  | .seqSetStepMs ms => formatC 0x32#8 0#16 ms
  | .seqStart now => formatC 0x33#8 0#16 now
  | .seqStop => formatC 0x34#8 0#16 0#32
  | .ctlTick gate now => formatC 0x35#8 (if gate then 1#16 else 0#16) now
  | .render => renderWord

/-! ## The opcode table (30_encoding.md R146, R147, R152) -/

/-- A row of the opcode table: its fixed bits, and where they stand. -/
structure OpcodeRow where
  pattern : Word64
  mask : Word64
deriving DecidableEq, Repr

/-- A word encodes a row when it agrees with the pattern in every bit of the mask (30_encoding.md R146). -/
def OpcodeRow.encodes (r : OpcodeRow) (w : Word64) : Bool := w &&& r.mask == r.pattern

def maskNone : Word64 := 0xFFFFFFFFFFFFFFFF#64
def maskImm : Word64 := 0xFFFF0000FFFFFFFF#64
def maskData : Word64 := 0xFFFFFFFF00000000#64

/-- The rows of the command opcodes, in the order of 30_encoding.md R146. -/
def commandRows : List OpcodeRow :=
  [ { pattern := 0x0000000000000000#64, mask := maskNone },
    { pattern := 0x0100000000000000#64, mask := maskImm },
    { pattern := 0x0200000000000000#64, mask := maskNone },
    { pattern := 0x0300000000000000#64, mask := maskNone },
    { pattern := 0x0800000000000000#64, mask := maskData },
    { pattern := 0x0900000000000000#64, mask := maskImm },
    { pattern := 0x0A00000000000000#64, mask := maskImm },
    { pattern := 0x0B00000000000000#64, mask := maskNone },
    { pattern := 0x1000000000000000#64, mask := maskData },
    { pattern := 0x1100000000000000#64, mask := maskImm },
    { pattern := 0x1200000000000000#64, mask := maskData },
    { pattern := 0x1800000000000000#64, mask := maskData },
    { pattern := 0x1900000000000000#64, mask := maskData } ] ++
  [ { pattern := 0x1A00000000000000#64, mask := maskData },
    { pattern := 0x1B00000000000000#64, mask := maskData },
    { pattern := 0x2000000000000000#64, mask := maskData },
    { pattern := 0x2100000000000000#64, mask := maskData },
    { pattern := 0x2200000000000000#64, mask := maskImm },
    { pattern := 0x2800000000000000#64, mask := maskData },
    { pattern := 0x2900000000000000#64, mask := maskData },
    { pattern := 0x3000000000000000#64, mask := maskImm },
    { pattern := 0x3100000000000000#64, mask := 0xFFFF000000000000#64 },
    { pattern := 0x3200000000000000#64, mask := maskData },
    { pattern := 0x3300000000000000#64, mask := maskData },
    { pattern := 0x3400000000000000#64, mask := maskNone },
    { pattern := 0x3500000000000000#64, mask := 0xFFFFFFFE00000000#64 } ]

/-- The row of the audio-port request (30_encoding.md R147). -/
def renderRow : OpcodeRow := { pattern := 0x4000000000000000#64, mask := maskNone }

/-! ## The host's reading of one table word -/

/-- The instruction of a word whose bits above `nbits` are zero: what the command port's decoder reads
of its bytes, and, for a word that is no command, what the audio port's reads. -/
def decodeTableWord (nbits w : Nat) : Option Instr :=
  let bytes := bytesOfWord (BitVec.ofNat 64 (w % 2 ^ nbits))
  match decode .command bytes with
  | .ok i => some i
  | .error _ =>
    match decode .audio bytes with
    | .ok i => some i
    | .error _ => none

end Sys2Proof
end

