-- ==== Sys2Proof/Machine/Fetch.lean ====
section
/-! DEFINITION. Taking the next request. CORE fetches nothing (10_state.md R46): what it executes is
pushed to it, one command or request at a time, in one total order of the two ports' steps (R47;
20_memory.md R112). -/

namespace Sys2Proof.Machine

/-- What the next request asks of CORE. -/
inductive Fetched where
  /-- No request: nothing happens between commands (45_sequencer.md R388; 60_exceptions.md R508; log 14). -/
  | idle
  /-- Run an instruction, from the state that has taken the request. -/
  | run (i : Instr) (s : State)
  /-- The request is finished with: a hardware reset, or a command word that is ILLEGAL. -/
  | done (s : State)
  /-- The request breaks a duty of the host (60_exceptions.md R500). -/
  | refuse (r : Refusal)
deriving DecidableEq, Repr

/-- A transfer on the command port (40_command_port.md R180, R181): a word that encodes no row fails with
ILLEGAL (30_encoding.md R150). A SOFT_RESET issued while a RENDER is in progress breaks a duty of the host
and is refused (60_exceptions.md R500; 93_implementation_defined.md U4; log 11). -/
def fetchCommand (bytes : List Byte) (overlapped rendering : Bool) (s : State) : Fetched :=
  if overlapped then .refuse .overlappingRequest
  else
    match decode .command bytes with
    | .ok i => if i = .softReset ∧ rendering = true then .refuse .softResetDuringRender else .run i s
    | .error (.illegal w) => .done (s.raise (opOf w) .illegal)
    | .error .partialWord => .refuse .partialWord
    | .error .badAudioWord => .refuse .badAudioWord

/-- A transfer on the audio port (30_encoding.md R141): the request's input block is delivered with it. -/
def fetchAudio (bytes : List Byte) (input : Block) (overlapped : Bool) (s : State) : Fetched :=
  if overlapped then .refuse .overlappingRequest
  else
    match decode .audio bytes with
    | .ok i => .run i { s with audioIn := input }
    | .error _ => .refuse .badAudioWord

/-- The head of the inbox, taken. 20_memory.md R112 names only commands and RENDERs as steps, and
70_reset_and_hazards.md R530 and R531 do not say when a hardware reset takes place among them. Here it is
one more atomic step of the same total order: it cuts no command or RENDER short, sends no response, and
leaves the requests behind it waiting (DESIGN CHOICE, unsafe, log 24). -/
def State.fetch (s : State) : Fetched :=
  match s.inbox with
  | [] => .idle
  | .command bytes overlapped rendering :: rest =>
    fetchCommand bytes overlapped rendering { s with inbox := rest }
  | .audio bytes input overlapped :: rest => fetchAudio bytes input overlapped { s with inbox := rest }
  | .reset :: rest => .done { s.applyReset with inbox := rest }

/-- The input block of a request that `withFetchWord` places: zeros, in the shape a RENDER must have. -/
def State.zeroInput (s : State) : Block :=
  List.replicate s.params.numCh (List.replicate s.audio.blkAct.toNat F32.zero)

/-- The request that carries a word of the opcode table: on the command port, but for the RENDER word,
which only the audio port accepts (30_encoding.md R141, R147). -/
def State.requestOfWord (s : State) (nbits w : Nat) : Request :=
  let bytes := bytesOfWord (BitVec.ofNat 64 (w % 2 ^ nbits))
  match decode .audio bytes with
  | .ok _ => .audio bytes s.zeroInput false
  | .error _ => .command bytes false false

end Sys2Proof.Machine
end

