-- ==== Sys2Proof/Machine/Step.lean ====
section
/-! DEFINITION. One step of CORE: the next request of the total order, executed whole (20_memory.md
R105, R112). -/

namespace Sys2Proof.Machine

/-- One step. With no request waiting the state is unchanged. -/
def step (s : State) : Host.Outcome State Fault Refusal :=
  match s.fetch with
  | .idle => .next s
  | .run i t => exec i t
  | .done t => .next t
  | .refuse r => .refused r

/-- `s` with the instruction whose bits are `w` issued as the very next request. -/
def State.withFetchWord (s : State) (nbits w : Nat) : State :=
  { s with inbox := s.requestOfWord nbits w :: s.inbox }

end Sys2Proof.Machine
end

