-- ==== Sys2Proof/Machine/Assembler.lean ====
section
/-! DEFINITION. The assembler syntax of 30_encoding.md R153 to R155: the command that a source line
stands for. What the rules leave open of a line's layout is the model's choice (log 22). No part of the
machine: a step reads words. -/

namespace Sys2Proof.Machine

/-- A run of characters of a source line. -/
abbrev Token := List Char

/-! ## Numbers -/

/-- The value of a hexadecimal digit. -/
def hexDigit (c : Char) : Option Nat :=
  if '0' ≤ c ∧ c ≤ '9' then some (c.toNat - '0'.toNat)
  else if 'a' ≤ c ∧ c ≤ 'f' then some (c.toNat - 'a'.toNat + 10)
  else if 'A' ≤ c ∧ c ≤ 'F' then some (c.toNat - 'A'.toNat + 10)
  else none

/-- The value of a decimal digit. -/
def decDigit (c : Char) : Option Nat :=
  match hexDigit c with
  | some d => if d < 10 then some d else none
  | none => none

/-- The number that digits write in a base, from `acc` on. -/
def digitsFrom (base : Nat) (digit : Char → Option Nat) (acc : Nat) : Token → Option Nat
  | [] => some acc
  | c :: cs =>
    match digit c with
    | some d => digitsFrom base digit (acc * base + d) cs
    | none => none

/-- One or more decimal digits. -/
def decimal (t : Token) : Option Nat := if t.isEmpty then none else digitsFrom 10 decDigit 0 t

/-- One or more hexadecimal digits. -/
def hexadecimal (t : Token) : Option Nat := if t.isEmpty then none else digitsFrom 16 hexDigit 0 t

/-- An integer, decimal or `0x` hexadecimal (30_encoding.md R153). -/
def integer (t : Token) : Option Nat :=
  match t with
  | '0' :: 'x' :: h => hexadecimal h
  | _ => decimal t

/-- An integer operand that its field holds (30_encoding.md R153, R154). -/
def integerOperand (w : Nat) (t : Token) : Option (BitVec w) :=
  match integer t with
  | some n => if n < 2 ^ w then some (BitVec.ofNat w n) else none
  | none => none

/-- A gate operand: 0 or 1 (30_encoding.md R154). -/
def gateOperand (t : Token) : Option Bool :=
  match integer t with
  | some 0 => some false
  | some 1 => some true
  | _ => none

/-- A decimal literal without its sign, rounded to the nearest binary32 with ties to even (30_encoding.md
R153): digits, and a point with digits after it where it has a fraction. -/
def decimalF32 (neg : Bool) (t : Token) : Option F32 :=
  match t.span (· ≠ '.') with
  | (whole, []) => (decimal whole).map (fun n => F32.pack neg (F32.roundMag (n * 2 ^ 149) 1))
  | (whole, _ :: fraction) =>
    match decimal whole, decimal fraction with
    | some n, some k =>
      some (F32.pack neg (F32.roundMag ((n * 10 ^ fraction.length + k) * 2 ^ 149)
        (10 ^ fraction.length)))
    | _, _ => none

/-- An f32 operand: a decimal literal, or `#0x` and exactly eight hexadecimal digits (30_encoding.md
R153). -/
def f32Operand (t : Token) : Option F32 :=
  match t with
  | '#' :: '0' :: 'x' :: h =>
    if h.length = 8 then (hexadecimal h).map (BitVec.ofNat 32) else none
  | '-' :: rest => decimalF32 true rest
  | _ => decimalF32 false t

/-! ## Names -/

/-- The number that a table gives a name. -/
def named : List (String × Nat) → Token → Option Nat
  | [], _ => none
  | (name, n) :: rest, t => if name.toList = t then some n else named rest t

/-- A name of a table, or a number (30_encoding.md R153). -/
def namedOperand (names : List (String × Nat)) (t : Token) : Option (BitVec 16) :=
  match named names t with
  | some n => some (BitVec.ofNat 16 n)
  | none => integerOperand 16 t

/-- ENG_SET_MODE's names (30_encoding.md R149). -/
def engineModeNames : List (String × Nat) := [("VOICE", 0), ("DELAY", 1), ("VOICE_DELAY", 2)]

/-- OSC_SET_WAVEFORM's names (30_encoding.md R149). -/
def waveformNames : List (String × Nat) :=
  [("SINE", 0), ("SAW", 1), ("TRIANGLE", 2), ("SQUARE", 3)]

/-- FLT_SET_MODE's names (30_encoding.md R149). -/
def filterModeNames : List (String × Nat) := [("LOW", 0), ("BAND", 1), ("HIGH", 2)]

/-- The names of the registers below 0x080 (10_state.md R60). -/
def registerNames : List (String × Nat) :=
  [ ("ID", 0x000), ("STATUS", 0x001), ("PARAM_VALID", 0x002), ("NOTE_VALID", 0x003), ("FS", 0x010),
    ("BLOCK", 0x011), ("ENGINE_MODE", 0x012), ("FREQ", 0x020), ("WAVEFORM", 0x021), ("AMP", 0x022),
    ("ATTACK", 0x028), ("DECAY", 0x029), ("SUSTAIN", 0x02A), ("RELEASE", 0x02B), ("CUTOFF", 0x030),
    ("RES", 0x031), ("FMODE", 0x032), ("DELAY", 0x038), ("FEEDBACK", 0x039), ("SEQ_LEN", 0x040),
    ("STEP_MS", 0x041), ("SEQ_STEP", 0x042), ("SEQ_LAST_MS", 0x043), ("MB_GATE", 0x044),
    ("MB_TRIG", 0x045) ]

/-- A register operand: a name, `NOTE3` for NOTE[3], or a number (30_encoding.md R153; 10_state.md R60).
NOTE's indices are those an implementation may have, below 16 (00_scope.md R10). -/
def registerOperand (t : Token) : Option (BitVec 16) :=
  match t with
  | 'N' :: 'O' :: 'T' :: 'E' :: i =>
    match decimal i with
    | some n => if n < 16 then some (BitVec.ofNat 16 (0x080 + n)) else none
    | none => namedOperand registerNames t
  | _ => namedOperand registerNames t

/-! ## Lines -/

/-- A command without operands. -/
def noOperand (i : Instr) : List Token → Option Instr
  | [] => some i
  | _ => none

/-- A command of one operand. -/
def oneOperand {α : Type} (parse : Token → Option α) (make : α → Instr) : List Token → Option Instr
  | [t] => (parse t).map make
  | _ => none

/-- A command of two operands. -/
def twoOperands {α β : Type} (parse : Token → Option α) (parse' : Token → Option β)
    (make : α → β → Instr) : List Token → Option Instr
  | [t, t'] =>
    match parse t, parse' t' with
    | some a, some b => some (make a b)
    | _, _ => none
  | _ => none

/-- The note of SET_NOTE: 0 to 127 (30_encoding.md R155). -/
def noteOperand (t : Token) : Option (BitVec 7) :=
  match integer t with
  | some n => if n ≤ 127 then some (BitVec.ofNat 7 n) else none
  | none => none

/-- The commands with their operands in the order of 30_encoding.md R154, and the pseudo-instructions
of R155. -/
def assemblerRows : List (String × (List Token → Option Instr)) :=
  [ ("NOP", noOperand .nop), ("REG_READ", oneOperand registerOperand .regRead),
    ("ERR_CLEAR", noOperand .errClear), ("SOFT_RESET", noOperand .softReset),
    ("CFG_SAMPLE_RATE", oneOperand f32Operand .cfgSampleRate),
    ("CFG_BLOCK_SIZE", oneOperand (integerOperand 16) .cfgBlockSize),
    ("ENG_SET_MODE", oneOperand (namedOperand engineModeNames) .engSetMode),
    ("START", noOperand .start), ("OSC_SET_FREQ", oneOperand f32Operand .oscSetFreq),
    ("OSC_SET_WAVEFORM", oneOperand (namedOperand waveformNames) .oscSetWaveform),
    ("OSC_SET_AMP", oneOperand f32Operand .oscSetAmp),
    ("ENV_SET_ATTACK", oneOperand f32Operand .envSetAttack),
    ("ENV_SET_DECAY", oneOperand f32Operand .envSetDecay),
    ("ENV_SET_SUSTAIN", oneOperand f32Operand .envSetSustain),
    ("ENV_SET_RELEASE", oneOperand f32Operand .envSetRelease) ] ++
  [ ("FLT_SET_CUTOFF", oneOperand f32Operand .fltSetCutoff),
    ("FLT_SET_RES", oneOperand f32Operand .fltSetRes),
    ("FLT_SET_MODE", oneOperand (namedOperand filterModeNames) .fltSetMode),
    ("DLY_SET_DELAY", oneOperand (integerOperand 32) .dlySetDelay),
    ("DLY_SET_FEEDBACK", oneOperand f32Operand .dlySetFeedback),
    ("SEQ_SET_LENGTH", oneOperand (integerOperand 16) .seqSetLength),
    ("SEQ_SET_NOTE", twoOperands (integerOperand 16) (integerOperand 32) .seqSetNote),
    ("SEQ_SET_STEP_MS", oneOperand (integerOperand 32) .seqSetStepMs),
    ("SEQ_START", oneOperand (integerOperand 32) .seqStart), ("SEQ_STOP", noOperand .seqStop),
    ("CTL_TICK", twoOperands (integerOperand 32) gateOperand (fun now gate => .ctlTick gate now)),
    ("RENDER", noOperand .render) ] ++
  [ ("SET_NOTE", oneOperand noteOperand (fun n => .oscSetFreq (noteRom n))),
    ("GATE_ON", oneOperand (integerOperand 32) (.ctlTick true)),
    ("GATE_OFF", oneOperand (integerOperand 32) (.ctlTick false)),
    ("READ", oneOperand registerOperand .regRead) ]

/-- A token without the spaces around it. -/
def trim (t : Token) : Token :=
  ((t.dropWhile (· = ' ')).reverse.dropWhile (· = ' ')).reverse

/-- The pieces of an operand list, between its commas. -/
def splitCommas : Token → List Token
  | [] => [[]]
  | c :: cs =>
    if c = ',' then [] :: splitCommas cs
    else
      match splitCommas cs with
      | [] => [[c]]
      | t :: ts => (c :: t) :: ts

/-- The operands written after a mnemonic (30_encoding.md R153). -/
def operandTokens (t : Token) : List Token :=
  if (trim t).isEmpty then [] else (splitCommas t).map trim

/-- The row of a mnemonic. -/
def rowOf : List (String × (List Token → Option Instr)) → Token → Option (List Token → Option Instr)
  | [], _ => none
  | (name, parse) :: rest, m => if name.toList = m then some parse else rowOf rest m

/-- The command that a source line stands for; `none` where the line has none (30_encoding.md R153 to
R155). -/
def assemble (line : String) : Option Instr :=
  let (mnemonic, operands) := (trim line.toList).span (· ≠ ' ')
  match rowOf assemblerRows mnemonic with
  | some parse => parse (operandTokens operands)
  | none => none

/-- The word of a source line (30_encoding.md R156). -/
def assembleWord (line : String) : Option Word64 := (assemble line).map encode

end Sys2Proof.Machine
end

