-- ==== Sys2Proof/Safety.lean ====
section
/-! DEFINITION. What counts as a safe run of CORE, in the terms the claims use: the host's duties, and
the invariants that the spec states of every reachable state. -/

namespace Sys2Proof.Machine

/-! ## The host's duties (60_exceptions.md R500) -/

/-- A request that breaks no duty: a whole word, not overlapping the one before it on its port, no
SOFT_RESET while a RENDER is in progress, on the audio port the RENDER word, and in RUNNING a block of
NUM_CH channels of blk_act samples. -/
def Request.meetsDuties (s : State) : Request → Bool
  | .command bytes overlapped rendering =>
    !overlapped && wholeWord bytes
      && !(rendering && decide (bytes = bytesOfWord (encode .softReset)))
  | .audio bytes input overlapped =>
    !overlapped && decide (bytes = bytesOfWord renderWord)
      && (decide (s.phase = .config) || hasShape s.params.numCh s.audio.blkAct.toNat input)
  | .reset => true

/-! ## Legal values (10_state.md R64) -/

/-- A stored f32 in [lo, hi], and not -0.0. Between bounds that are finite it is no NaN and no infinity. -/
def legalF32 (lo hi v : F32) : Bool :=
  F32.le lo v && F32.le v hi && !decide (v = 0x80000000#32)

/-- Every f32 parameter that is set holds a legal value: the f32 rows of 10_state.md R64. -/
structure LegalF32s (s : State) : Prop where
  fs : ∀ v, s.shadow.fs = some v → legalF32 fsMin fsMax v = true
  freq : ∀ v, s.mb.freq = some v → legalF32 fMin freqCeil v = true
  amp : ∀ v, s.shadow.amp = some v → legalF32 F32.zero ampMax v = true
  attack : ∀ v, s.shadow.attack = some v → legalF32 F32.zero tMax v = true
  decay : ∀ v, s.shadow.decay = some v → legalF32 F32.zero tMax v = true
  sustain : ∀ v, s.shadow.sustain = some v → legalF32 F32.zero F32.one v = true
  release : ∀ v, s.shadow.release = some v → legalF32 F32.zero tMax v = true
  cutoff : ∀ v, s.shadow.cutoff = some v → legalF32 cutoffMin cutoffMaxConfig v = true
  res : ∀ v, s.shadow.res = some v → legalF32 F32.zero rMax v = true
  feedback : ∀ v, s.shadow.feedback = some v → legalF32 F32.zero fbMax v = true

/-! ## The structural invariant -/

/-- What a running sequencer relies on (45_sequencer.md R385, R392, R393): its length, step time and
frequency are set, every note it plays is set, and its step is one of them. -/
def State.sequencerReady (s : State) : Prop :=
  ∃ n, s.seq.len = some n ∧ s.seq.stepMs.isSome = true ∧ s.notesValid n.toNat = true
    ∧ s.mb.freq.isSome = true ∧ s.seq.step.toNat < n.toNat

/-- What a RUNNING CORE relies on (46_engine.md R434, R436; 10_state.md R80): a mode whose parameters
are all set, and a sample rate and block size that are the configured ones. -/
def State.engineReady (s : State) : Prop :=
  ∃ m, s.shadow.engineMode = some m ∧ s.modeParamsValid m = true
    ∧ s.shadow.fs = some s.audio.fsAct ∧ s.shadow.block = some s.audio.blkAct

/-- The structural invariant of CORE: bounds of the model arguments, the canonical form and the bounds
of the two arrays, the integer rows of 10_state.md R64, and what a running sequencer and a RUNNING
engine rely on. -/
structure CoreInv (s : State) : Prop where
  params : s.params.wellFormed = true
  noteForm : s.note.wf = true
  noteIndex : ∀ e ∈ s.note, e.1 < s.params.seqMax
  ringForm : s.audio.dly.wf = true
  ringIndex : ∀ e ∈ s.audio.dly, e.1 < s.params.dlyCap
  writeIndex : s.audio.dlyW.toNat < s.params.dlyCap
  block : ∀ n, s.shadow.block = some n → 1 ≤ n.toNat ∧ n.toNat ≤ s.params.blockMax
  delay : ∀ d, s.shadow.delay = some d → d.toNat < s.params.dlyCap
  length : ∀ n, s.seq.len = some n → 1 ≤ n.toNat ∧ n.toNat ≤ s.params.seqMax
  stepMs : ∀ m, s.seq.stepMs = some m → 1 ≤ m.toNat
  sequencer : s.seq.run = true → s.sequencerReady
  engine : s.phase = .running → s.engineReady
  idle : s.audio.env.stage = .idle → s.audio.env.level = F32.zero

/-- The envelope's levels are in [+0.0, 1.0] and never -0.0 (10_state.md R76; 42_envelope.md R267). -/
structure EnvLegal (e : EnvState) : Prop where
  level : legalF32 F32.zero F32.one e.level = true
  relStart : legalF32 F32.zero F32.one e.relStart = true

end Sys2Proof.Machine
end

