-- ==== Sys2Proof/Certificates/Slice0/Obligations.lean ====
section
/-! DEFINITION. The statements for the provers. -/

open Sys2Proof Sys2Proof.Machine

/-! ## The terms of the statements -/

namespace Sys2Proof.Spec

/-- A command with opcode `op` has the effect `t` and responds OK with RDATA = 0. -/
def ok (op : BitVec 8) (t : State) : Host.Outcome State Fault Refusal :=
  .next { t with responses := responseWord op .ok 0#32 :: t.responses }

/-- A command with opcode `op` changes nothing and responds OK with data. -/
def okData (op : BitVec 8) (v : BitVec 32) (s : State) : Host.Outcome State Fault Refusal :=
  .next { s with responses := responseWord op .ok v :: s.responses }

/-- A command with opcode `op` fails: LAST_ERR takes the code, the response carries it, nothing else
changes. -/
def fail (op : BitVec 8) (c : Code) (s : State) : Host.Outcome State Fault Refusal :=
  .next { s with lastErr := c, responses := responseWord op c 0#32 :: s.responses }

/-- What a store writes in place of -0.0. -/
def stored (v : F32) : F32 := if F32.eq v F32.zero then F32.zero else v

/-- The commands that store an f32 parameter by the two regimes. -/
def f32Command : F32Param → F32 → Instr
  | .amp => .oscSetAmp
  | .attack => .envSetAttack
  | .decay => .envSetDecay
  | .sustain => .envSetSustain
  | .release => .envSetRelease
  | .cutoff => .fltSetCutoff
  | .res => .fltSetRes
  | .feedback => .dlySetFeedback

/-- The lowest legal value of an f32 parameter, which is also what a NaN stores in RUNNING. -/
def f32Min : F32Param → F32
  | .cutoff => 0x3F800000#32
  | _ => 0x00000000#32

/-- The highest legal value of an f32 parameter. -/
def f32Max (s : State) : F32Param → F32
  | .amp => 0x3F800000#32
  | .attack => 0x42700000#32
  | .decay => 0x42700000#32
  | .sustain => 0x3F800000#32
  | .release => 0x42700000#32
  | .cutoff =>
    match s.phase with
    | .config => 0x47BB7FFF#32
    | .running => F32.nextDown (F32.div s.audio.fsAct 0x40000000#32)
  | .res => 0x3F7D70A4#32
  | .feedback => 0x3F7FFFFF#32

/-- The parameters of a voice mode are set. -/
def voiceSet (s : State) : Prop :=
  s.mb.freq ≠ none ∧ s.shadow.waveform ≠ none ∧ s.shadow.amp ≠ none ∧ s.shadow.attack ≠ none
    ∧ s.shadow.decay ≠ none ∧ s.shadow.sustain ≠ none ∧ s.shadow.release ≠ none
    ∧ s.shadow.cutoff ≠ none ∧ s.shadow.res ≠ none ∧ s.shadow.fmode ≠ none

/-- The parameters of a delay mode are set. -/
def delaySet (s : State) : Prop := s.shadow.delay ≠ none ∧ s.shadow.feedback ≠ none

/-- The parameters that a mode needs are set. -/
def modeSet (s : State) : EngineMode → Prop
  | .voice => voiceSet s
  | .delay => delaySet s
  | .voiceDelay => voiceSet s ∧ delaySet s

/-- STATUS, by its fields. -/
def status (s : State) : BitVec 32 :=
  BitVec.ofNat 32 (256 * s.lastErr.number.toNat + (if s.seq.run then 2 else 0)
    + (if s.phase = .running then 1 else 0))

/-- The register map: each number with the register's value, `none` where it is unset. -/
def registers (s : State) : List (Nat × Option (BitVec 32)) :=
  [ (0x000, some 0x444D4931#32), (0x001, some (status s)), (0x002, some s.paramValidWord),
    (0x003, some s.noteValidWord), (0x010, s.shadow.fs),
    (0x011, s.shadow.block.map (fun v => BitVec.ofNat 32 v.toNat)),
    (0x012, s.shadow.engineMode.map engineModeNumber), (0x020, s.mb.freq),
    (0x021, s.shadow.waveform.map waveformNumber), (0x022, s.shadow.amp), (0x028, s.shadow.attack),
    (0x029, s.shadow.decay), (0x02A, s.shadow.sustain), (0x02B, s.shadow.release),
    (0x030, s.shadow.cutoff), (0x031, s.shadow.res), (0x032, s.shadow.fmode.map filterModeNumber),
    (0x038, s.shadow.delay), (0x039, s.shadow.feedback),
    (0x040, s.seq.len.map (fun v => BitVec.ofNat 32 v.toNat)), (0x041, s.seq.stepMs),
    (0x042, some (BitVec.ofNat 32 s.seq.step.toNat)), (0x043, some s.seq.lastMs),
    (0x044, some (if s.mb.gate then 1#32 else 0#32)), (0x045, some s.mb.trig) ]
  ++ (List.range s.params.seqMax).map
      (fun i => (0x080 + i, (entryAt s.note i).map (fun v => BitVec.ofNat 32 v.toNat)))

/-- The command opcodes of 30_encoding.md section 3. -/
def listedOps : List (BitVec 8) :=
  [0x00#8, 0x01#8, 0x02#8, 0x03#8, 0x08#8, 0x09#8, 0x0A#8, 0x0B#8, 0x10#8, 0x11#8, 0x12#8, 0x18#8,
   0x19#8, 0x1A#8, 0x1B#8, 0x20#8, 0x21#8, 0x22#8, 0x28#8, 0x29#8, 0x30#8, 0x31#8, 0x32#8, 0x33#8,
   0x34#8, 0x35#8]

/-- The command opcodes with a dash in the IMM16 column. -/
def opsWithoutImm : List (BitVec 8) :=
  [0x00#8, 0x02#8, 0x03#8, 0x08#8, 0x0B#8, 0x10#8, 0x12#8, 0x18#8, 0x19#8, 0x1A#8, 0x1B#8, 0x20#8,
   0x21#8, 0x28#8, 0x29#8, 0x32#8, 0x33#8, 0x34#8]

/-- The command opcodes with a dash in the DATA32 column. -/
def opsWithoutData : List (BitVec 8) :=
  [0x00#8, 0x01#8, 0x02#8, 0x03#8, 0x09#8, 0x0A#8, 0x0B#8, 0x11#8, 0x22#8, 0x30#8, 0x34#8]

/-- The codes that a command can raise after it has been decoded. -/
def mayRaise : Instr → List Code
  | .nop | .errClear | .softReset | .oscSetFreq _ | .seqStop | .ctlTick _ _ | .render => []
  | .regRead _ => [.badReg, .unset]
  | .cfgSampleRate _ | .cfgBlockSize _ => [.wrongPhase, .configRange]
  | .engSetMode _ => [.outOfRange, .unset]
  | .start => [.wrongPhase, .unset, .configRange]
  | .oscSetWaveform _ | .fltSetMode _ | .dlySetDelay _ => [.outOfRange]
  | .oscSetAmp _ | .envSetAttack _ | .envSetDecay _ | .envSetSustain _ | .envSetRelease _
  | .fltSetCutoff _ | .fltSetRes _ | .dlySetFeedback _ | .seqSetStepMs _ => [.configRange]
  | .seqSetLength _ => [.wrongPhase, .configRange]
  | .seqSetNote _ _ => [.outOfRange, .configRange]
  | .seqStart _ => [.unset]

/-- The audio domain after delay samples with the inputs `xs`. -/
def delayRun (cap d : Nat) (g : F32) (xs : List F32) (a : AudioState) : AudioState :=
  xs.foldl (fun a x => dlyAdvance cap d g x a) a

/-- The state after `k` CTL_TICKs, each `interval` ms after the one before it. -/
def tickRun (gate : Bool) (interval : BitVec 32) : Nat → State → Option State
  | 0, s => some s
  | k + 1, s =>
    match exec (.ctlTick gate (s.seq.lastMs + interval)) s with
    | .next t => tickRun gate interval k t
    | _ => none

/-- The mode a RUNNING block renders in. -/
def latchedVoice (s : State) : Option VoiceLatch :=
  match s.blockLatch with
  | .voice v => some v
  | .delay _ => none
  | .voiceDelay v _ => some v

/-- The ten voice parameters that BLOCK_LATCH copies. -/
structure Voice where
  freq : F32
  waveform : Waveform
  amp : F32
  attack : F32
  decay : F32
  sustain : F32
  release : F32
  cutoff : F32
  res : F32
  fmode : FilterMode

/-- The shadow registers and the mailbox hold the voice parameters `v`. -/
def voiceIs (s : State) (v : Voice) : Prop :=
  s.mb.freq = some v.freq ∧ s.shadow.waveform = some v.waveform ∧ s.shadow.amp = some v.amp
    ∧ s.shadow.attack = some v.attack ∧ s.shadow.decay = some v.decay
    ∧ s.shadow.sustain = some v.sustain ∧ s.shadow.release = some v.release
    ∧ s.shadow.cutoff = some v.cutoff ∧ s.shadow.res = some v.res ∧ s.shadow.fmode = some v.fmode

/-- PHASE_INC (41_oscillator.md R222). -/
def increment (freq fs : F32) : Nat :=
  F32.rneInt (F32.mul (F32.div (if F32.lt (F32.div fs 0x40000000#32) freq then F32.div fs 0x40000000#32
    else freq) fs) 0x4F800000#32)

/-- FLT_COEFFS' f (43_filter.md R300). -/
def cutoffF (fc fs : F32) : F32 :=
  if F32.le 0x3F800000#32 (F32.mul 0x40C90FDB#32 (F32.div fc fs)) then 0x3F800000#32
  else F32.mul 0x40C90FDB#32 (F32.div fc fs)

/-- The audio domain after VOICE_STEP (46_engine.md R440), at the sample rate `fs`. -/
def voiceAudio (v : Voice) (fs : F32) (gate trig : Bool) (a : AudioState) : AudioState :=
  let P := BitVec.ofNat 32 (a.oscP.toNat + increment v.freq fs)
  let env := envStep (envSlopes v.attack v.decay v.sustain v.release fs) gate trig a.env
  let x := F32.mul (F32.mul v.amp (shape v.waveform P)) env.level
  let band := F32.add a.flt.band (F32.mul (cutoffF v.cutoff fs) a.flt.high)
  let low := F32.add a.flt.low (F32.mul (cutoffF v.cutoff fs) band)
  let high := F32.sub (F32.sub x low) (F32.mul (F32.sub 0x3F800000#32 v.res) band)
  { a with oscP := P, env := env, flt := { low := low, band := band, high := high } }

/-- The filter output that FMODE selects (43_filter.md R304). -/
def selected (v : Voice) (a : AudioState) : F32 :=
  match v.fmode with
  | .low => a.flt.low
  | .band => a.flt.band
  | .high => a.flt.high

/-- The sample that DLY_STEP reads (44_delay.md R340). -/
def ringSample (cap d : Nat) (a : AudioState) : F32 := a.dly.read ((a.dlyW.toNat + cap - d) % cap)

/-- The audio domain after DLY_STEP(x) (44_delay.md R340). -/
def delayAudio (cap d : Nat) (g x : F32) (a : AudioState) : AudioState :=
  { a with
    dly := a.dly.write a.dlyW.toNat (F32.add x (F32.mul g (ringSample cap d a)))
    dlyW := BitVec.ofNat 32 ((a.dlyW.toNat + 1) % cap) }

/-- `r` is the f32 that num / den units of 2^-149 round to (00_scope.md R13): the nearest, of two equally
near ones the one with an even last bit, and an infinity from half a unit above the largest finite f32
on. -/
structure IsRounded (neg : Bool) (num : Int) (den : Nat) (r : F32) : Prop where
  notNaN : F32.isNaN r = false
  sign : F32.sign r = neg
  finite : F32.isFinite r = true ↔ |num| < (2 ^ 25 - 1) * 2 ^ 252 * den
  nearest : F32.isFinite r = true → ∀ c : F32, F32.isFinite c = true →
    |F32.value r * den - num| ≤ |F32.value c * den - num|
  tiesToEven : F32.isFinite r = true → ∀ c : F32, F32.isFinite c = true →
    F32.value c ≠ F32.value r → |F32.value r * den - num| = |F32.value c * den - num| →
    r.getLsbD 0 = false

/-- The infinity of a sign. -/
def infinity (neg : Bool) : F32 := if neg then 0xFF800000#32 else 0x7F800000#32

/-- The zero of a sign. -/
def signedZero (neg : Bool) : F32 := if neg then 0x80000000#32 else 0x00000000#32

/-- The four operations give a NaN exactly where IEEE 754 says so, and pass infinities on
(00_scope.md R13). -/
structure SpecialsFollowIeee (a b : F32) : Prop where
  nan : F32.isNaN a = true ∨ F32.isNaN b = true →
    F32.isNaN (F32.add a b) = true ∧ F32.isNaN (F32.sub a b) = true ∧
    F32.isNaN (F32.mul a b) = true ∧ F32.isNaN (F32.div a b) = true
  infinite : F32.isInf a = true → F32.isInf b = true →
    (F32.sign a = F32.sign b → F32.add a b = a ∧ F32.isNaN (F32.sub a b) = true) ∧
    (F32.sign a ≠ F32.sign b → F32.isNaN (F32.add a b) = true ∧ F32.sub a b = a) ∧
    F32.mul a b = infinity (F32.sign a != F32.sign b) ∧ F32.isNaN (F32.div a b) = true
  infiniteFinite : F32.isInf a = true → F32.isFinite b = true →
    F32.add a b = a ∧ F32.sub a b = a ∧
    (F32.value b = 0 → F32.isNaN (F32.mul a b) = true) ∧
    (F32.value b ≠ 0 → F32.mul a b = infinity (F32.sign a != F32.sign b)) ∧
    F32.div a b = infinity (F32.sign a != F32.sign b)
  finiteInfinite : F32.isFinite a = true → F32.isInf b = true →
    F32.add a b = b ∧ F32.sub a b = F32.neg b ∧
    (F32.value a = 0 → F32.isNaN (F32.mul a b) = true) ∧
    (F32.value a ≠ 0 → F32.mul a b = infinity (F32.sign a != F32.sign b)) ∧
    F32.div a b = signedZero (F32.sign a != F32.sign b)
  byZero : F32.isFinite a = true → F32.isFinite b = true → F32.value b = 0 →
    (F32.value a = 0 → F32.isNaN (F32.div a b) = true) ∧
    (F32.value a ≠ 0 → F32.div a b = infinity (F32.sign a != F32.sign b))

/-- Comparisons go by value, NaNs apart; nextUp and nextDown are the neighbours of a finite f32; and rne_int
is the nearest integer, an even one at a tie (00_scope.md R13, R17). -/
structure OrderFollowsValue (a b : F32) : Prop where
  nan : F32.isNaN a = true ∨ F32.isNaN b = true →
    F32.lt a b = false ∧ F32.le a b = false ∧ F32.eq a b = false
  finite : F32.isFinite a = true → F32.isFinite b = true →
    (F32.lt a b = true ↔ F32.value a < F32.value b) ∧ (F32.le a b = true ↔ F32.value a ≤ F32.value b) ∧
    (F32.eq a b = true ↔ F32.value a = F32.value b)
  infinite : F32.isFinite a = true → F32.isInf b = true →
    F32.lt a b = !F32.sign b ∧ F32.lt b a = F32.sign b
  nextUp : F32.isFinite a = true → F32.lt a (F32.nextUp a) = true ∧
    (F32.lt a b = true → F32.le (F32.nextUp a) b = true)
  nextDown : F32.isFinite a = true → F32.lt (F32.nextDown a) a = true ∧
    (F32.lt b a = true → F32.le b (F32.nextDown a) = true)
  rneInt : F32.isFinite a = true → 0 ≤ F32.value a →
    2 * |(F32.rneInt a : Int) * 2 ^ 149 - F32.value a| ≤ 2 ^ 149 ∧
    (2 * |(F32.rneInt a : Int) * 2 ^ 149 - F32.value a| = 2 ^ 149 → F32.rneInt a % 2 = 0)

/-- The shadow registers after `shadow.p <- v` (40_command_port.md R186). -/
def withF32 (h : Shadow) (v : F32) : F32Param → Shadow
  | .amp => { h with amp := some v }
  | .attack => { h with attack := some v }
  | .decay => { h with decay := some v }
  | .sustain => { h with sustain := some v }
  | .release => { h with release := some v }
  | .cutoff => { h with cutoff := some v }
  | .res => { h with res := some v }
  | .feedback => { h with feedback := some v }

/-- ATTACK's next level before the stall and completion tests (42_envelope.md R261, R264). -/
def attackRamp (a fs level : F32) : F32 :=
  if F32.eq a 0x00000000#32 then 0x3F800000#32
  else F32.add level (F32.div 0x3F800000#32 (F32.mul a fs))

/-- DECAY's next level before the stall and completion tests (42_envelope.md R261, R264). -/
def decayRamp (d sus fs level : F32) : F32 :=
  if F32.eq d 0x00000000#32 then sus
  else F32.sub level (F32.div (F32.sub 0x3F800000#32 sus) (F32.mul d fs))

/-- RELEASE's next level before the stall and completion tests (42_envelope.md R264, R266). -/
def releaseRamp (r fs relStart level : F32) : F32 :=
  if F32.eq r 0x00000000#32 then 0x00000000#32
  else F32.sub level (F32.div relStart (F32.mul r fs))

/-- A ramp's next level `n`, moved to the neighbour of the level where it stalls (42_envelope.md R264). -/
def unstalled (neighbour : F32 → F32) (level n : F32) : F32 :=
  if F32.eq n level then neighbour level else n

/-- While CORE is RUNNING, the sample rate and the block size in force are the configured ones. -/
def ratesAreConfigured (s : State) : Prop :=
  s.phase = .running → s.shadow.fs = some s.audio.fsAct ∧ s.shadow.block = some s.audio.blkAct

end Sys2Proof.Spec

/-! ## Encoding -/

/-- 30_encoding.md section 3: each instruction's own port reads it back from the bytes of its word, with
every operand at every value. -/
def Obligations.DecodeOfEncodeIsInstruction : Prop :=
  ∀ i : Instr, decode i.port (bytesOfWord (encode i)) = .ok i

/-- 30_encoding.md sections 3 and 4: no other bytes and no other port give an instruction. -/
def Obligations.DecodedBytesAreTheEncoding : Prop :=
  ∀ (p : Port) (bytes : List Byte) (i : Instr),
    decode p bytes = .ok i → p = i.port ∧ bytes = bytesOfWord (encode i)

/-- 30_encoding.md R152: a command is 8 bytes, the decoder accepts exactly the words that match a row of
the opcode table, and each word matches at most one row; the row's OP value is the instruction's. -/
def Obligations.DecoderAgreesWithOpcodeTable : Prop :=
  (∀ (bytes : List Byte) (i : Instr), decode .command bytes = .ok i → bytes.length = 8) ∧
  (∀ w : Word64, (decodeCommand w).isSome = commandRows.any (fun r => r.encodes w)) ∧
  commandRows.Pairwise (fun r r' => ∀ w : Word64, r.encodes w = true → r'.encodes w = false) ∧
  (∀ (w : Word64) (i : Instr), decodeCommand w = some i → w.extractLsb' 56 8 = i.opcode)

/-- 30_encoding.md R156: the spec's nine example lines, each assembled to the spec's word, which decodes
to the line's command. -/
def Obligations.SpecExampleLinesAssembleAndDecode : Prop :=
  ∀ e ∈ [ ("NOP", Instr.nop, 0x0000000000000000#64),
          ("REG_READ STATUS", .regRead 0x001#16, 0x0100000100000000#64),
          ("CFG_SAMPLE_RATE 48000.0", .cfgSampleRate 0x473B8000#32, 0x08000000473B8000#64),
          ("CFG_BLOCK_SIZE 4", .cfgBlockSize 4#16, 0x0900000400000000#64),
          ("OSC_SET_FREQ 440.0", .oscSetFreq 0x43DC0000#32, 0x1000000043DC0000#64),
          ("OSC_SET_WAVEFORM SAW", .oscSetWaveform 1#16, 0x1100000100000000#64),
          ("SEQ_SET_NOTE 3, 65", .seqSetNote 3#16 65#32, 0x3100000300000041#64),
          ("CTL_TICK 500, 1", .ctlTick true 500#32, 0x35000001000001F4#64),
          ("DLY_SET_DELAY 3", .dlySetDelay 3#32, 0x2800000000000003#64) ],
    assembleWord e.1 = some e.2.2 ∧ decodeTableWord 64 e.2.2.toNat = some e.2.1

/-- 30_encoding.md section 1: the four fields of a response. -/
def Obligations.ResponseCarriesOpCodeAndData : Prop :=
  ∀ (op : BitVec 8) (c : Code) (v : BitVec 32),
    (responseWord op c v).extractLsb' 56 8 = op ∧ (responseWord op c v).extractLsb' 40 16 = 0#16 ∧
    (responseWord op c v).extractLsb' 32 8 = c.number ∧ (responseWord op c v).extractLsb' 0 32 = v

/-! ## One step -/

/-- 20_memory.md section 6, 40_command_port.md section 1: where the head of the inbox decodes to an
instruction, a step is that instruction's `exec`, from the state that has taken the request (and, on the
audio port, received its input block). A SOFT_RESET marked as issued during a RENDER is refused (the mark
is the model's choice, log 11); every other command runs whatever that mark. -/
def Obligations.StepRunsDecodedInstruction : Prop :=
  (∀ (s : State) (bytes : List Byte) (rendering : Bool) (rest : List Request) (i : Instr),
    s.inbox = .command bytes false rendering :: rest → decode .command bytes = .ok i →
    (i = .softReset → rendering = false) →
    step s = exec i { s with inbox := rest }) ∧
  (∀ (s : State) (bytes : List Byte) (input : Block) (rest : List Request) (i : Instr),
    s.inbox = .audio bytes input false :: rest → decode .audio bytes = .ok i →
    step s = exec i { s with inbox := rest, audioIn := input }) ∧
  (∀ (s : State) (rest : List Request),
    s.inbox = .command (bytesOfWord (encode .softReset)) false true :: rest →
    step s = .refused .softResetDuringRender)

/-- 30_encoding.md R150: a command word that matches no row fails with ILLEGAL, echoes its OP byte, and
changes nothing but LAST_ERR; so does every word of an unlisted OP (0x40 is one on the command port), of a
nonzero RSV or of a nonzero unused field; and an audio-port word other than RENDER is refused. -/
def Obligations.UnlistedWordFailsIllegal : Prop :=
  (∀ (s : State) (w : Word64) (rendering : Bool) (rest : List Request),
    s.inbox = .command (bytesOfWord w) false rendering :: rest →
    commandRows.any (fun r => r.encodes w) = false →
    step s = Spec.fail (w.extractLsb' 56 8) .illegal { s with inbox := rest }) ∧
  (∀ w : Word64, (w.extractLsb' 56 8 ∉ Spec.listedOps ∨ w.extractLsb' 48 8 ≠ 0#8 ∨
      (w.extractLsb' 56 8 ∈ Spec.opsWithoutImm ∧ w.extractLsb' 32 16 ≠ 0#16) ∨
      (w.extractLsb' 56 8 ∈ Spec.opsWithoutData ∧ w.extractLsb' 0 32 ≠ 0#32) ∨
      (w.extractLsb' 56 8 = 0x35#8 ∧ w.extractLsb' 33 15 ≠ 0#15)) →
    commandRows.any (fun r => r.encodes w) = false) ∧
  (∀ (s : State) (w : Word64) (input : Block) (rest : List Request),
    s.inbox = .audio (bytesOfWord w) input false :: rest → w ≠ 0x4000000000000000#64 →
    step s = .refused .badAudioWord)

/-- 60_exceptions.md section 6: a step is refused exactly where the next request breaks a duty of the
host; every other step gives a next state. The model's choices in it: a request issued before the one
before it on its port was answered, and a SOFT_RESET issued during a RENDER, are told apart by marks that
the request carries, and without its mark a request is in order (logs 4 and 11); any now_ms is accepted
(log 2); a RENDER in CONFIG may have any shape (log 10); no request is a step that gives a next state
(log 14); a hardware reset is a step of its own and is always in order (log 24); a transfer is a list of
bytes, and any on the audio port that is not the RENDER word is a bad word (log 17). -/
def Obligations.StepIsRefusedExactlyOnHostErrors : Prop :=
  (∀ (s : State) (q : Request) (rest : List Request), s.inbox = q :: rest →
    q.meetsDuties s = false → ∃ r, step s = .refused r) ∧
  (∀ (s : State) (q : Request) (rest : List Request), s.inbox = q :: rest →
    q.meetsDuties s = true → ∃ t, step s = .next t) ∧
  (∀ s : State, s.inbox = [] → ∃ t, step s = .next t)

/-- 10_state.md R95: SOFT_RESET and the hardware reset put every element of CORE's state at the value the
table gives, the two valid bitmaps among them, and the machine's reset state is that table. DLY's contents are unspecified there: the
statement says nothing of them. The arguments and the ports' streams are the model's own fields, and that a
hardware reset is one atomic step of the inbox, which leaves the requests behind it waiting, is the model's
choice (log 24). -/
def Obligations.ResetGivesTheResetTable : Prop :=
  (∀ s : State, ∃ ring, exec .softReset s = Spec.ok 0x03#8
    { s with
      phase := .config, lastErr := .ok
      shadow := { fs := none, block := none, engineMode := none, waveform := none, amp := none,
                  attack := none, decay := none, sustain := none, release := none, cutoff := none,
                  res := none, fmode := none, delay := none, feedback := none }
      seq := { run := false, len := none, stepMs := none, step := 0#4, lastMs := 0#32 }
      note := [], mb := { freq := none, gate := false, trig := 0#32 }
      audio := { fsAct := 0#32, blkAct := 0#16, oscP := 0#32,
                 env := { stage := .idle, level := 0#32, prevGate := false, relStart := 0#32 },
                 flt := { low := 0#32, band := 0#32, high := 0#32 },
                 dly := ring, dlyW := 0#32, lastTrig := 0#32 } }) ∧
  (∀ (s : State) (rest : List Request), s.inbox = .reset :: rest → ∃ ring, step s = .next
    { s with
      phase := .config, lastErr := .ok
      shadow := { fs := none, block := none, engineMode := none, waveform := none, amp := none,
                  attack := none, decay := none, sustain := none, release := none, cutoff := none,
                  res := none, fmode := none, delay := none, feedback := none }
      seq := { run := false, len := none, stepMs := none, step := 0#4, lastMs := 0#32 }
      note := [], mb := { freq := none, gate := false, trig := 0#32 }
      audio := { fsAct := 0#32, blkAct := 0#16, oscP := 0#32,
                 env := { stage := .idle, level := 0#32, prevGate := false, relStart := 0#32 },
                 flt := { low := 0#32, band := 0#32, high := 0#32 },
                 dly := ring, dlyW := 0#32, lastTrig := 0#32 }
      inbox := rest }) ∧
  (∃ ring, State.reset =
    { State.reset with
      phase := .config, lastErr := .ok
      shadow := { fs := none, block := none, engineMode := none, waveform := none, amp := none,
                  attack := none, decay := none, sustain := none, release := none, cutoff := none,
                  res := none, fmode := none, delay := none, feedback := none }
      seq := { run := false, len := none, stepMs := none, step := 0#4, lastMs := 0#32 }
      note := [], mb := { freq := none, gate := false, trig := 0#32 }
      audio := { fsAct := 0#32, blkAct := 0#16, oscP := 0#32,
                 env := { stage := .idle, level := 0#32, prevGate := false, relStart := 0#32 },
                 flt := { low := 0#32, band := 0#32, high := 0#32 },
                 dly := ring, dlyW := 0#32, lastTrig := 0#32 } }) ∧
  (∀ s t : State, (exec .softReset s = .next t ∨ ∃ rest, s.inbox = .reset :: rest ∧ step s = .next t) →
    t.paramValidWord = 0#32 ∧ t.noteValidWord = 0#32) ∧
  State.reset.paramValidWord = 0#32 ∧ State.reset.noteValidWord = 0#32

/-- 70_reset_and_hazards.md section 1: SOFT_RESET leaves every entry of DLY as it was. -/
def Obligations.SoftResetKeepsTheDelayRing : Prop :=
  ∀ s : State, ∃ t, exec .softReset s = .next t ∧ ∀ i, t.audio.dly.read i = s.audio.dly.read i

/-! ## Every command: responses, failures, LAST_ERR -/

/-- 40_command_port.md R183 (and section 1): every command gives a next state and exactly one response,
which echoes its OP. Where the response carries an error code, RDATA is 0, LAST_ERR takes the code, and
nothing else has changed; so it is with a word that is ILLEGAL, which echoes bits 63:56. -/
def Obligations.CommandAnswersOnceAndFailsPrecisely : Prop :=
  (∀ (i : Instr) (s : State), i ≠ .render → ∃ t c v, exec i s = .next t ∧
    t.responses = responseWord i.opcode c v :: s.responses ∧
    (c ≠ .ok → v = 0#32 ∧
      t = { s with lastErr := c, responses := responseWord i.opcode c 0#32 :: s.responses }) ∧
    (v ≠ 0#32 → ∃ reg, i = .regRead reg)) ∧
  (∀ i : Instr, (encode i).extractLsb' 56 8 = i.opcode) ∧
  (∀ (s : State) (w : Word64) (rendering : Bool) (rest : List Request),
    s.inbox = .command (bytesOfWord w) false rendering :: rest → decodeCommand w = none →
    step s = .next { s with inbox := rest, lastErr := .illegal,
                            responses := responseWord (w.extractLsb' 56 8) .illegal 0#32 :: s.responses })

/-- 10_state.md R51: LAST_ERR takes the code of a failing command, is left alone by a successful one (a
runtime clamp among them) but for ERR_CLEAR and SOFT_RESET, which write 0, and RENDER never writes it. A
word that is ILLEGAL writes ILLEGAL. The codes are numbered as 60_exceptions.md R480 has them. -/
def Obligations.LastErrHoldsTheMostRecentFailure : Prop :=
  (∀ (i : Instr) (s t : State) (c : Code) (v : BitVec 32), exec i s = .next t →
    t.responses = responseWord i.opcode c v :: s.responses →
    (c ≠ .ok → t.lastErr = c) ∧
    (c = .ok → i ≠ .errClear → i ≠ .softReset → t.lastErr = s.lastErr)) ∧
  (∀ (i : Instr) (s t : State), (i = .errClear ∨ i = .softReset) → exec i s = .next t →
    t.lastErr = .ok) ∧
  (∀ s t : State, exec .render s = .next t → t.lastErr = s.lastErr) ∧
  (∀ (s t : State) (w : Word64) (rendering : Bool) (rest : List Request),
    s.inbox = .command (bytesOfWord w) false rendering :: rest → decodeCommand w = none → step s = .next t →
    t.lastErr = .illegal) ∧
  [Code.ok, .illegal, .configRange, .outOfRange, .unset, .wrongPhase, .badReg].map Code.number =
    [0#8, 1#8, 2#8, 3#8, 4#8, 5#8, 6#8]

/-- 60_exceptions.md section 1: the codes each command can raise; those that raise CONFIG_RANGE alone do
so in CONFIG only. -/
def Obligations.CommandRaisesOnlyItsListedCodes : Prop :=
  ∀ (i : Instr) (s t : State) (c : Code) (v : BitVec 32), exec i s = .next t →
    t.responses = responseWord i.opcode c v :: s.responses → c ≠ .ok →
    c ∈ Spec.mayRaise i ∧ (c = .configRange → s.phase = .config)

/-! ## Port commands -/

/-- 40_command_port.md section 2, 45_sequencer.md section 3: NOP does nothing, ERR_CLEAR clears LAST_ERR,
SEQ_STOP stops the sequencer, in every state and with nothing else changed. -/
def Obligations.NopErrClearAndSeqStopComplete : Prop :=
  ∀ s : State, exec .nop s = Spec.ok 0x00#8 s ∧
    exec .errClear s = Spec.ok 0x02#8 { s with lastErr := .ok } ∧
    exec .seqStop s = Spec.ok 0x34#8 { s with seq := { s.seq with run := false } }

/-- 40_command_port.md section 2, 10_state.md section 4: REG_READ returns the value of the register of
every number in the map, UNSET for a parameter that has no value, BAD_REG for a number outside the map,
and changes nothing else. -/
def Obligations.RegReadReturnsTheMappedRegister : Prop :=
  ∀ (s : State) (n : BitVec 16),
    (∀ v, (n.toNat, some v) ∈ Spec.registers s → exec (.regRead n) s = Spec.okData 0x01#8 v s) ∧
    ((n.toNat, none) ∈ Spec.registers s → exec (.regRead n) s = Spec.fail 0x01#8 .unset s) ∧
    ((∀ e ∈ Spec.registers s, e.1 ≠ n.toNat) → exec (.regRead n) s = Spec.fail 0x01#8 .badReg s)

/-- 10_state.md section 4: each bit of PARAM_VALID and NOTE_VALID says whether its parameter or note is
set; the bits above are 0. -/
def Obligations.ValidBitsSayWhatIsSet : Prop :=
  ∀ s : State,
    (∀ e ∈ [ (0, s.shadow.fs.isSome), (1, s.shadow.block.isSome), (2, s.shadow.engineMode.isSome),
             (3, s.mb.freq.isSome), (4, s.shadow.waveform.isSome), (5, s.shadow.amp.isSome),
             (6, s.shadow.attack.isSome), (7, s.shadow.decay.isSome), (8, s.shadow.sustain.isSome),
             (9, s.shadow.release.isSome), (10, s.shadow.cutoff.isSome), (11, s.shadow.res.isSome),
             (12, s.shadow.fmode.isSome), (13, s.shadow.delay.isSome),
             (14, s.shadow.feedback.isSome), (15, s.seq.len.isSome), (16, s.seq.stepMs.isSome) ],
      s.paramValidWord.getLsbD e.1 = e.2) ∧
    (∀ k, 17 ≤ k → s.paramValidWord.getLsbD k = false) ∧
    (∀ k, k < 16 → k < s.params.seqMax → s.noteValidWord.getLsbD k = (entryAt s.note k).isSome) ∧
    (∀ k, (16 ≤ k ∨ s.params.seqMax ≤ k) → s.noteValidWord.getLsbD k = false)

/-! ## The f32 parameters -/

/-- 40_command_port.md section 1: in CONFIG, a value inside the legal set of AMP, ATTACK, DECAY, SUSTAIN,
RELEASE, CUTOFF, RES or FEEDBACK is stored as given (+0.0 in place of -0.0) in that parameter's own shadow
register, and nothing else changes. -/
def Obligations.ConfigStoresLegalF32Parameter : Prop :=
  ∀ (p : F32Param) (x : F32) (s : State), s.phase = .config →
    F32.le (Spec.f32Min p) x = true → F32.le x (Spec.f32Max s p) = true →
    exec (Spec.f32Command p x) s = Spec.ok (Spec.f32Command p x).opcode
      { s with shadow := Spec.withF32 s.shadow (Spec.stored x) p }

/-- 40_command_port.md section 1: in CONFIG, a NaN or a value outside the legal set fails with
CONFIG_RANGE. -/
def Obligations.ConfigRefusesIllegalF32Parameter : Prop :=
  ∀ (p : F32Param) (x : F32) (s : State), s.phase = .config →
    (F32.isNaN x = true ∨ F32.lt x (Spec.f32Min p) = true ∨ F32.lt (Spec.f32Max s p) x = true) →
    exec (Spec.f32Command p x) s = Spec.fail (Spec.f32Command p x).opcode .configRange s

/-- 40_command_port.md section 1: in RUNNING, every value is accepted and the nearest legal one stored, a
NaN as the lowest, in the parameter's own shadow register; LAST_ERR and all else are left alone. -/
def Obligations.RunningClampsF32Parameter : Prop :=
  ∀ (p : F32Param) (x : F32) (s : State), s.phase = .running →
    exec (Spec.f32Command p x) s = Spec.ok (Spec.f32Command p x).opcode
      { s with shadow := Spec.withF32 s.shadow (Spec.stored
          (if F32.isNaN x then Spec.f32Min p
           else if F32.lt x (Spec.f32Min p) then Spec.f32Min p
           else if F32.lt (Spec.f32Max s p) x then Spec.f32Max s p else x)) p }

/-- 41_oscillator.md section 3: OSC_SET_FREQ stores in either phase: F_MIN for a NaN and for a value below
it, FREQ_CEIL for a value above it, any other value as given; the gate and the trigger stay. -/
def Obligations.OscSetFreqClampsInBothPhases : Prop :=
  ∀ (x : F32) (s : State),
    ((F32.isNaN x = true ∨ F32.lt x 0x3F800000#32 = true) → exec (.oscSetFreq x) s =
      Spec.ok 0x10#8 { s with mb := { s.mb with freq := some 0x3F800000#32 } }) ∧
    (F32.lt 0x47BB8000#32 x = true → exec (.oscSetFreq x) s =
      Spec.ok 0x10#8 { s with mb := { s.mb with freq := some 0x47BB8000#32 } }) ∧
    (F32.le 0x3F800000#32 x = true → F32.le x 0x47BB8000#32 = true → exec (.oscSetFreq x) s =
      Spec.ok 0x10#8 { s with mb := { s.mb with freq := some x } })

/-! ## Enumerated and integer parameters -/

/-- 41_oscillator.md section 3, 43_filter.md section 3: OSC_SET_WAVEFORM and FLT_SET_MODE store the name
of a code of their table, in either phase, and refuse every other code. -/
def Obligations.WaveformAndFilterModeFollowTheirTables : Prop :=
  ∀ (s : State) (imm : BitVec 16),
    (∀ wf, (imm.toNat, wf) ∈ [(0, Waveform.sine), (1, .saw), (2, .triangle), (3, .square)] →
      exec (.oscSetWaveform imm) s =
        Spec.ok 0x11#8 { s with shadow := { s.shadow with waveform := some wf } }) ∧
    (4 ≤ imm.toNat → exec (.oscSetWaveform imm) s = Spec.fail 0x11#8 .outOfRange s) ∧
    (∀ m, (imm.toNat, m) ∈ [(0, FilterMode.low), (1, .band), (2, .high)] →
      exec (.fltSetMode imm) s =
        Spec.ok 0x22#8 { s with shadow := { s.shadow with fmode := some m } }) ∧
    (3 ≤ imm.toNat → exec (.fltSetMode imm) s = Spec.fail 0x22#8 .outOfRange s)

/-- 46_engine.md section 1: ENG_SET_MODE stores a mode of its table; in RUNNING only one whose parameters
are set; every other code is refused. -/
def Obligations.EngSetModeChecksTheNewModesParameters : Prop :=
  ∀ (s : State) (imm : BitVec 16),
    (∀ m, (imm.toNat, m) ∈ [(0, EngineMode.voice), (1, .delay), (2, .voiceDelay)] →
      (s.phase = .config ∨ Spec.modeSet s m →
        exec (.engSetMode imm) s =
          Spec.ok 0x0A#8 { s with shadow := { s.shadow with engineMode := some m } }) ∧
      (s.phase = .running → ¬ Spec.modeSet s m →
        exec (.engSetMode imm) s = Spec.fail 0x0A#8 .unset s)) ∧
    (3 ≤ imm.toNat → exec (.engSetMode imm) s = Spec.fail 0x0A#8 .outOfRange s)

/-- 46_engine.md section 1: CFG_SAMPLE_RATE and CFG_BLOCK_SIZE store a legal value in CONFIG, fail with
CONFIG_RANGE on any other value there, and are refused in RUNNING whatever their operand. -/
def Obligations.SampleRateAndBlockSizeAreSetInConfigOnly : Prop :=
  ∀ (s : State) (x : F32) (n : BitVec 16),
    (s.phase = .config → F32.le 0x45FA0000#32 x = true → F32.le x 0x483B8000#32 = true →
      exec (.cfgSampleRate x) s =
        Spec.ok 0x08#8 { s with shadow := { s.shadow with fs := some x } }) ∧
    (s.phase = .config →
      (F32.isNaN x = true ∨ F32.lt x 0x45FA0000#32 = true ∨ F32.lt 0x483B8000#32 x = true) →
      exec (.cfgSampleRate x) s = Spec.fail 0x08#8 .configRange s) ∧
    (s.phase = .running → exec (.cfgSampleRate x) s = Spec.fail 0x08#8 .wrongPhase s) ∧
    (s.phase = .config → 1 ≤ n.toNat → n.toNat ≤ s.params.blockMax →
      exec (.cfgBlockSize n) s =
        Spec.ok 0x09#8 { s with shadow := { s.shadow with block := some n } }) ∧
    (s.phase = .config → (n.toNat = 0 ∨ s.params.blockMax < n.toNat) →
      exec (.cfgBlockSize n) s = Spec.fail 0x09#8 .configRange s) ∧
    (s.phase = .running → exec (.cfgBlockSize n) s = Spec.fail 0x09#8 .wrongPhase s)

/-- 44_delay.md section 2: in either phase DLY_SET_DELAY stores a delay below DLY_CAP and refuses any
other with OUT_OF_RANGE, the delay in force unchanged. -/
def Obligations.DlySetDelayRefusesBeyondCapacity : Prop :=
  ∀ (s : State) (n : BitVec 32),
    (n.toNat < s.params.dlyCap → exec (.dlySetDelay n) s =
      Spec.ok 0x28#8 { s with shadow := { s.shadow with delay := some n } }) ∧
    (s.params.dlyCap ≤ n.toNat → exec (.dlySetDelay n) s = Spec.fail 0x28#8 .outOfRange s)

/-! ## Engine -/

/-- 46_engine.md section 1: in CONFIG, with FS, BLOCK, ENGINE_MODE and the mode's parameters set and, in a
voice mode, the cutoff below half the sample rate, START leaves CONFIG: it latches FS, BLOCK and the
trigger counter, clears the oscillator, the envelope, the filter and the write index, and every entry of
DLY is +0.0. Nothing else changes. -/
def Obligations.StartClearsTheAudioDomain : Prop :=
  ∀ (s : State) (fs : F32) (blk : BitVec 16) (m : EngineMode), s.phase = .config →
    s.shadow.fs = some fs → s.shadow.block = some blk → s.shadow.engineMode = some m →
    Spec.modeSet s m →
    (m ≠ .delay → ∃ fc, s.shadow.cutoff = some fc ∧ F32.lt fc (F32.div fs 0x40000000#32) = true) →
    ∃ ring, exec .start s = Spec.ok 0x0B#8
      { s with
        phase := .running
        audio := { fsAct := fs, blkAct := blk, oscP := 0#32,
                   env := { stage := .idle, level := 0#32, prevGate := false, relStart := 0#32 },
                   flt := { low := 0#32, band := 0#32, high := 0#32 },
                   dly := ring, dlyW := 0#32, lastTrig := s.mb.trig } } ∧
      ∀ i, Memory.read ring i = 0#32

/-- 46_engine.md section 1, 60_exceptions.md section 2: START fails with WRONG_PHASE in RUNNING, then with
UNSET where a parameter it needs is unset, then with CONFIG_RANGE where a voice mode's cutoff is not below
half the sample rate. -/
def Obligations.StartFailsInPriorityOrder : Prop :=
  ∀ s : State,
    (s.phase = .running → exec .start s = Spec.fail 0x0B#8 .wrongPhase s) ∧
    (s.phase = .config →
      (s.shadow.fs = none ∨ s.shadow.block = none ∨ s.shadow.engineMode = none ∨
        ∃ m, s.shadow.engineMode = some m ∧ ¬ Spec.modeSet s m) →
      exec .start s = Spec.fail 0x0B#8 .unset s) ∧
    (∀ fs fc m, s.phase = .config → s.shadow.fs = some fs → s.shadow.block ≠ none →
      s.shadow.engineMode = some m → Spec.modeSet s m → m ≠ .delay → s.shadow.cutoff = some fc →
      F32.lt fc (F32.div fs 0x40000000#32) = false →
      exec .start s = Spec.fail 0x0B#8 .configRange s)

/-- 46_engine.md section 2: in CONFIG, RENDER answers silence, in the shape of the request's block, and
changes nothing, not even last_trig. -/
def Obligations.RenderIsSilentInConfig : Prop :=
  ∀ s : State, s.phase = .config → exec .render s =
    .next { s with outBlocks := s.audioIn.map (fun ch => ch.map (fun _ => 0x00000000#32)) :: s.outBlocks }

/-- 46_engine.md section 2: a RUNNING RENDER with a block of NUM_CH channels of blk_act samples completes:
it answers blk_act samples, the same on each of the NUM_CH channels, takes the trigger counter into
last_trig, and changes nothing but the audio domain's datapath; fs_act and blk_act stay. -/
def Obligations.RenderAnswersOneBlockOnEveryChannel : Prop :=
  ∀ (s : State) (input : List F32) (others : List (List F32)), s.phase = .running →
    s.audioIn = input :: others → input.length = s.audio.blkAct.toNat →
    (∀ ch ∈ others, ch.length = s.audio.blkAct.toNat) → others.length + 1 = s.params.numCh →
    ∃ out a, exec .render s = .next
        { s with audio := a, outBlocks := List.replicate s.params.numCh out :: s.outBlocks } ∧
      out.length = s.audio.blkAct.toNat ∧ a.lastTrig = s.mb.trig ∧ a.fsAct = s.audio.fsAct ∧
      a.blkAct = s.audio.blkAct

/-- 46_engine.md section 2: a RUNNING RENDER is one SAMPLE after another on the samples of input channel
0, from the latched audio domain, each one saturated into the output, with the trigger edge on the first
sample only. What a sample is, from the shadow registers and the mailbox: in VOICE, the phase advanced by
PHASE_INC, amplitude times shape times envelope level through the filter, and the output FMODE selects;
in DELAY, DLY_STEP of the saturated input sample; in VOICE_DELAY, DLY_STEP of the saturated voice. The
voice modes use nothing of the input block but its length. -/
def Obligations.RenderStepsOneSampleAfterAnother : Prop :=
  ∀ (s : State) (input : List F32) (others : List (List F32)) (t : State), s.phase = .running →
    s.audioIn = input :: others → exec .render s = .next t →
    ∃ states : List AudioState, ∃ out : List F32, states.length = input.length + 1 ∧
      out.length = input.length ∧ states[0]? = some { s.audio with lastTrig := s.mb.trig } ∧
      states[input.length]? = some t.audio ∧
      t.outBlocks = List.replicate s.params.numCh out :: s.outBlocks ∧
      ∀ (i : Nat) (x : F32) (a : AudioState) (trig : Bool), input[i]? = some x → states[i]? = some a →
        trig = (decide (i = 0) && decide (s.mb.trig ≠ s.audio.lastTrig)) →
        (states[i + 1]? = some (sample s.params.dlyCap s.blockLatch trig x a).audio ∧
          out[i]? = some (F32.sat (sample s.params.dlyCap s.blockLatch trig x a).out)) ∧
        (∀ v, s.shadow.engineMode = some .voice → Spec.voiceIs s v →
          states[i + 1]? = some (Spec.voiceAudio v s.audio.fsAct s.mb.gate trig a) ∧
          out[i]? = some (F32.sat
            (Spec.selected v (Spec.voiceAudio v s.audio.fsAct s.mb.gate trig a)))) ∧
        (∀ d g, s.shadow.engineMode = some .delay → s.shadow.delay = some d →
          s.shadow.feedback = some g →
          states[i + 1]? = some (Spec.delayAudio s.params.dlyCap d.toNat g (F32.sat x) a) ∧
          out[i]? = some (F32.sat
            (F32.add (F32.sat x) (Spec.ringSample s.params.dlyCap d.toNat a)))) ∧
        (∀ v d g y, s.shadow.engineMode = some .voiceDelay → Spec.voiceIs s v →
          s.shadow.delay = some d → s.shadow.feedback = some g →
          y = F32.sat (Spec.selected v (Spec.voiceAudio v s.audio.fsAct s.mb.gate trig a)) →
          states[i + 1]? = some (Spec.delayAudio s.params.dlyCap d.toNat g y
            (Spec.voiceAudio v s.audio.fsAct s.mb.gate trig a)) ∧
          out[i]? = some (F32.sat (F32.add y (Spec.ringSample s.params.dlyCap d.toNat a))))

/-- 46_engine.md section 2: every sample of every output block is in [-1.0, 1.0] and no NaN, whatever the
state and the input. -/
def Obligations.OutputIsAlwaysInRange : Prop :=
  ∀ s t : State, exec .render s = .next t → ∃ b, t.outBlocks = b :: s.outBlocks ∧
    ∀ ch ∈ b, ∀ x ∈ ch, F32.isNaN x = false ∧ F32.le 0xBF800000#32 x = true ∧
      F32.le x 0x3F800000#32 = true

/-- 46_engine.md section 2: in DELAY mode a RENDER leaves the oscillator, the envelope and the filter
alone; in VOICE mode it leaves DLY and dly_w alone. -/
def Obligations.UnusedUnitsKeepTheirState : Prop :=
  ∀ s t : State, exec .render s = .next t →
    (s.shadow.engineMode = some .delay →
      t.audio.oscP = s.audio.oscP ∧ t.audio.env = s.audio.env ∧ t.audio.flt = s.audio.flt) ∧
    (s.shadow.engineMode = some .voice →
      t.audio.dly = s.audio.dly ∧ t.audio.dlyW = s.audio.dlyW)

/-- 41_oscillator.md section 1: in a voice mode, a block of n samples advances the phase word by n times
the block's phase increment, modulo 2^32. -/
def Obligations.PhaseAdvancesByTheIncrementEachSample : Prop :=
  ∀ (s t : State) (input : List F32) (others : List (List F32)) (v : VoiceLatch),
    s.phase = .running → s.audioIn = input :: others → Spec.latchedVoice s = some v →
    exec .render s = .next t →
    t.audio.oscP.toNat = (s.audio.oscP.toNat + input.length * v.inc) % 2 ^ 32

/-- 44_delay.md section 1: in a delay mode, a block of n samples advances the write index by n, modulo
DLY_CAP, and it stays in the ring. -/
def Obligations.WriteIndexAdvancesByOneEachSample : Prop :=
  ∀ (s t : State) (input : List F32) (others : List (List F32)), s.phase = .running →
    2 ≤ s.params.dlyCap → s.params.dlyCap ≤ 2 ^ 32 → s.audio.dlyW.toNat < s.params.dlyCap →
    (s.shadow.engineMode = some .delay ∨ s.shadow.engineMode = some .voiceDelay) →
    s.audioIn = input :: others → exec .render s = .next t →
    t.audio.dlyW.toNat = (s.audio.dlyW.toNat + input.length) % s.params.dlyCap

/-! ## Datapath -/

/-- 44_delay.md section 1: for 1 ≤ d < DLY_CAP, what DLY_STEP reads d samples later is what it wrote now;
for d = 0 the delay is DLY_CAP samples. -/
def Obligations.DelayedSampleReturnsAfterTheDelay : Prop :=
  ∀ (cap d : Nat) (g x : F32) (xs : List F32) (a : AudioState), 2 ≤ cap → cap ≤ 2 ^ 32 →
    a.dly.wf = true → a.dlyW.toNat < cap → d < cap →
    xs.length + 1 = (if d = 0 then cap else d) →
    delayed cap d (Spec.delayRun cap d g (x :: xs) a) = F32.add x (F32.mul g (delayed cap d a))

/-- 44_delay.md section 1: DLY_STEP reads before it writes, writes the input plus feedback at dly_w and
nowhere else, and answers the input plus what it read. -/
def Obligations.DelayStepWritesOneEntry : Prop :=
  ∀ (cap d : Nat) (g x : F32) (a : AudioState), a.dly.wf = true →
    dlyOut cap d x a = F32.add x (a.dly.read ((a.dlyW.toNat + cap - d) % cap)) ∧
    (dlyAdvance cap d g x a).dly.read a.dlyW.toNat =
      F32.add x (F32.mul g (a.dly.read ((a.dlyW.toNat + cap - d) % cap))) ∧
    ∀ j, j ≠ a.dlyW.toNat → (dlyAdvance cap d g x a).dly.read j = a.dly.read j

/-- 41_oscillator.md section 2: SHAPE of each waveform, for every phase word P. SINE is the entry of
SINE_ROM at P[31:22]. SAW and TRIANGLE are exact: with k the top 24 bits of P, SAW is (k - 2^23) * 2^-23
and TRIANGLE is (2^22 - |k - 2^23|) * 2^-22 (values in units of 2^-149). SQUARE is 1.0 below P =
0x80000000 and -1.0 from there on. Every result is in [-1.0, 1.0]. -/
def Obligations.SawAndTriangleAreExact : Prop :=
  ∀ oscP : BitVec 32,
    F32.isFinite (shape .saw oscP) = true ∧
    F32.value (shape .saw oscP) = ((oscP.toNat / 2 ^ 8 : Nat) - 2 ^ 23 : Int) * 2 ^ 126 ∧
    F32.isFinite (shape .triangle oscP) = true ∧
    F32.value (shape .triangle oscP) =
      (2 ^ 22 - |((oscP.toNat / 2 ^ 8 : Nat) - 2 ^ 23 : Int)|) * 2 ^ 127 ∧
    shape .sine oscP = sineRom (BitVec.ofNat 10 (oscP.toNat / 2 ^ 22)) ∧
    (oscP.toNat < 2 ^ 31 → shape .square oscP = 0x3F800000#32) ∧
    (2 ^ 31 ≤ oscP.toNat → shape .square oscP = 0xBF800000#32) ∧
    ∀ wf : Waveform, F32.le 0xBF800000#32 (shape wf oscP) = true ∧
      F32.le (shape wf oscP) 0x3F800000#32 = true

/-- 41_oscillator.md section 2, 45_sequencer.md section 1: the symmetries and spot values of SINE_ROM, and
the octaves, range and spot values of NOTE_ROM. -/
def Obligations.RomTablesHaveTheirSymmetries : Prop :=
  (∀ i : BitVec 10, 513 ≤ i.toNat → sineRom i = F32.neg (sineRom (i - 512#10))) ∧
  (∀ i : BitVec 10, 257 ≤ i.toNat → i.toNat ≤ 511 → sineRom i = sineRom (512#10 - i)) ∧
  sineRom 0#10 = 0#32 ∧ sineRom 512#10 = 0#32 ∧ sineRom 128#10 = 0x3F3504F3#32 ∧
  sineRom 256#10 = 0x3F800000#32 ∧ sineRom 768#10 = 0xBF800000#32 ∧
  (∀ n : BitVec 7, n.toNat ≤ 115 → noteRom (n + 12#7) = noteRom n + 0x00800000#32) ∧
  (∀ n : BitVec 7, F32.le 0x3F800000#32 (noteRom n) = true ∧
    F32.le (noteRom n) 0x47BB8000#32 = true) ∧
  noteRom 69#7 = 0x43DC0000#32 ∧ noteRom 60#7 = 0x4382D013#32 ∧ noteRom 0#7 = 0x4102D013#32 ∧
  noteRom 127#7 = 0x4643FF6A#32

/-- 00_scope.md R15: sat maps any f32 into [-1.0, 1.0]: a NaN to +0.0, a value below -1.0 to -1.0, one
above 1.0 to 1.0, and any other value, -0.0 among them, to itself. -/
def Obligations.SatClampsIntoUnitRange : Prop :=
  ∀ x : F32,
    (F32.isNaN (F32.sat x) = false ∧ F32.le 0xBF800000#32 (F32.sat x) = true ∧
      F32.le (F32.sat x) 0x3F800000#32 = true) ∧
    (F32.isNaN x = true → F32.sat x = 0x00000000#32) ∧
    (F32.lt x 0xBF800000#32 = true → F32.sat x = 0xBF800000#32) ∧
    (F32.lt 0x3F800000#32 x = true → F32.sat x = 0x3F800000#32) ∧
    (F32.le 0xBF800000#32 x = true → F32.le x 0x3F800000#32 = true → F32.sat x = x)

/-- 00_scope.md section 5: the sum, difference, product and quotient of finite f32 are the exact result
rounded once: to the nearest f32, a tie to the one with an even last bit, and from half a unit above the
largest finite f32 on to an infinity, with the sign of the exact result, a zero sum or difference +0.0
unless both its terms are -0.0. A NaN operand, the difference of equal infinities, zero times infinity,
infinity by infinity and zero by zero give a NaN; every other operation on an infinity, or by zero, gives
the infinity or zero of IEEE 754. Comparisons go by value, and are false of a NaN; nextUp and nextDown are
the neighbours of a finite f32; rne_int is the nearest integer, an even one at a tie. -/
def Obligations.SumAndProductAreNearest : Prop :=
  ∀ a b : F32,
    (F32.isFinite a = true → F32.isFinite b = true →
      Spec.IsRounded
        (if F32.value a + F32.value b = 0 then F32.sign a && F32.sign b
          else decide (F32.value a + F32.value b < 0))
        (F32.value a + F32.value b) 1 (F32.add a b) ∧
      Spec.IsRounded
        (if F32.value a - F32.value b = 0 then F32.sign a && !F32.sign b
          else decide (F32.value a - F32.value b < 0))
        (F32.value a - F32.value b) 1 (F32.sub a b) ∧
      Spec.IsRounded (F32.sign a != F32.sign b) (F32.value a * F32.value b) (2 ^ 149) (F32.mul a b) ∧
      (F32.value b ≠ 0 →
        Spec.IsRounded (F32.sign a != F32.sign b) (F32.value a * 2 ^ 149 * (F32.value b).sign)
          (F32.value b).natAbs (F32.div a b))) ∧
    Spec.SpecialsFollowIeee a b ∧ Spec.OrderFollowsValue a b

/-- 42_envelope.md section 2: a trigger or a rising gate enters ATTACK from any stage, a low gate in
ATTACK, DECAY or SUSTAIN enters RELEASE and fixes its start, and otherwise the stage stays; the level is
kept and the gate is remembered. -/
def Obligations.EnvelopeEventsKeepTheLevel : Prop :=
  ∀ (gate trig : Bool) (e : EnvState),
    ((trig = true ∨ (gate = true ∧ e.prevGate = false)) →
      envEvents gate trig e =
        { stage := .attack, level := e.level, prevGate := gate, relStart := e.relStart }) ∧
    (trig = false → gate = false → e.stage ≠ .idle → e.stage ≠ .release →
      envEvents gate trig e =
        { stage := .release, level := e.level, prevGate := false, relStart := e.level }) ∧
    (trig = false →
      ((gate = true ∧ e.prevGate = true) ∨ (gate = false ∧ (e.stage = .idle ∨ e.stage = .release))) →
      envEvents gate trig e =
        { stage := e.stage, level := e.level, prevGate := gate, relStart := e.relStart })

/-- 42_envelope.md sections 1 and 2: with legal latched times, sustain level and sample rate, ENV_STEP
keeps level and rel_start in [+0.0, 1.0], never -0.0 or a NaN; IDLE has level +0.0; a stage is followed by
itself, by the next one of the cycle, or by what an event enters. The level is continuous: an event keeps
it, and in a stage of nonzero time a sample moves it toward the stage's target by no more than the f32 sum
or difference with the stage's increment (a_inc, d_inc, r_inc), or by one unit in the last place where the
ramp stalls; in SUSTAIN it is the sustain level, which a decay below a raised sustain level takes at
once. The step is exact: with n the sum or difference of the level and its stage's increment (the target
for a zero time), or the level's neighbour where n equals the level, the level is n, unless n has reached
1.0, the sustain level or 0.0: then it is that target and the next stage begins. -/
def Obligations.EnvelopeStaysInUnitRange : Prop :=
  ∀ (a d sus r fs : F32) (gate trig : Bool) (e e1 e2 : EnvState),
    legalF32 F32.zero tMax a = true → legalF32 F32.zero tMax d = true →
    legalF32 F32.zero F32.one sus = true → legalF32 F32.zero tMax r = true →
    legalF32 fsMin fsMax fs = true → EnvLegal e →
    e1 = envEvents gate trig e → e2 = envStep (envSlopes a d sus r fs) gate trig e →
    EnvLegal e2 ∧ (e2.stage = .idle → e2.level = 0x00000000#32) ∧
    (e1.stage, e2.stage) ∈
      [ (Stage.idle, Stage.idle), (.attack, .attack), (.attack, .decay), (.decay, .decay),
        (.decay, .sustain), (.sustain, .sustain), (.release, .release), (.release, .idle) ] ∧
    e1.level = e.level ∧
    (e1.stage = .attack → F32.lt F32.zero a = true →
      F32.le e.level e2.level = true ∧
      (F32.le e2.level (F32.add e.level (F32.div 0x3F800000#32 (F32.mul a fs))) = true ∨
        e2.level = F32.nextUp e.level)) ∧
    (e1.stage = .decay → F32.lt F32.zero d = true → F32.le sus e.level = true →
      F32.le e2.level e.level = true ∧
      (F32.le (F32.sub e.level (F32.div (F32.sub 0x3F800000#32 sus) (F32.mul d fs))) e2.level = true ∨
        e2.level = F32.nextDown e.level)) ∧
    (e1.stage = .decay → F32.lt e.level sus = true → e2.level = sus ∧ e2.stage = .sustain) ∧
    (e1.stage = .sustain → e2.level = sus) ∧
    (e1.stage = .release → F32.lt F32.zero r = true →
      F32.le e2.level e.level = true ∧
      (F32.le (F32.sub e.level (F32.div e1.relStart (F32.mul r fs))) e2.level = true ∨
        e2.level = F32.nextDown e.level)) ∧
    (e2.prevGate = gate ∧ e2.relStart = e1.relStart) ∧
    (∀ n, e1.stage = .attack → n = Spec.unstalled F32.nextUp e.level (Spec.attackRamp a fs e.level) →
      (e2.level, e2.stage) =
        if F32.le 0x3F800000#32 n then (0x3F800000#32, Stage.decay) else (n, Stage.attack)) ∧
    (∀ n, e1.stage = .decay →
      n = Spec.unstalled F32.nextDown e.level (Spec.decayRamp d sus fs e.level) →
      (e2.level, e2.stage) = if F32.le n sus then (sus, Stage.sustain) else (n, Stage.decay)) ∧
    (∀ n, e1.stage = .release →
      n = Spec.unstalled F32.nextDown e.level (Spec.releaseRamp r fs e1.relStart e.level) →
      (e2.level, e2.stage) =
        if F32.le n 0x00000000#32 then (0x00000000#32, Stage.idle) else (n, Stage.release))

/-- 42_envelope.md section 2: a zero time completes its stage in the sample that enters it: the attack at
1.0, the decay at the sustain level, the release at +0.0. -/
def Obligations.ZeroTimesCompleteAtOnce : Prop :=
  ∀ (a d sus r fs : F32) (e : EnvState),
    (F32.eq a F32.zero = true → e.stage = .attack →
      envAdvance (envSlopes a d sus r fs) e = { e with level := 0x3F800000#32, stage := .decay }) ∧
    (F32.eq d F32.zero = true → e.stage = .decay → legalF32 F32.zero F32.one sus = true →
      envAdvance (envSlopes a d sus r fs) e = { e with level := sus, stage := .sustain }) ∧
    (F32.eq r F32.zero = true → e.stage = .release →
      envAdvance (envSlopes a d sus r fs) e = { e with level := 0x00000000#32, stage := .idle })

/-- 43_filter.md section 2: low = x, band = high = +0.0 is a fixed point of the filter under the constant
input x, for finite coefficients that are not negative. -/
def Obligations.FilterRestsAtItsInput : Prop :=
  ∀ f q x : F32, F32.isFinite f = true → F32.isFinite q = true → F32.isFinite x = true →
    F32.sign f = false → F32.sign q = false → x ≠ 0x80000000#32 →
    fltStep f q x { low := x, band := 0#32, high := 0#32 } = { low := x, band := 0#32, high := 0#32 }

/-- 41_oscillator.md section 1: for a legal frequency and sample rate the phase increment is in
[1, 2^31]. -/
def Obligations.PhaseIncrementIsAtMostHalfATurn : Prop :=
  ∀ freq fs : F32, legalF32 fMin freqCeil freq = true → legalF32 fsMin fsMax fs = true →
    1 ≤ phaseInc freq fs ∧ phaseInc freq fs ≤ 2 ^ 31

/-- 43_filter.md section 1: for a legal cutoff, resonance and sample rate, f is in (0, 1.0] and q in
[1 -f R_MAX, 1.0]. -/
def Obligations.FilterCoefficientsStayStable : Prop :=
  ∀ fc res fs : F32, legalF32 cutoffMin cutoffMaxConfig fc = true → legalF32 F32.zero rMax res = true →
    legalF32 fsMin fsMax fs = true →
    F32.lt F32.zero (cutoffCoeff fc fs) = true ∧ F32.le (cutoffCoeff fc fs) F32.one = true ∧
    F32.le 0x3C23D700#32 (dampingCoeff res) = true ∧ F32.le (dampingCoeff res) F32.one = true

/-! ## Sequencer -/

/-- 45_sequencer.md section 2: SEQ_SET_LENGTH is refused while the sequencer runs; stopped, it stores a
legal length, fails with CONFIG_RANGE on any other in CONFIG, and clamps it in RUNNING. -/
def Obligations.SeqSetLengthIsFrozenWhileRunning : Prop :=
  ∀ (s : State) (n : BitVec 16),
    (s.seq.run = true → exec (.seqSetLength n) s = Spec.fail 0x30#8 .wrongPhase s) ∧
    (s.seq.run = false → 1 ≤ n.toNat → n.toNat ≤ s.params.seqMax → exec (.seqSetLength n) s =
      Spec.ok 0x30#8 { s with seq := { s.seq with len := some (BitVec.ofNat 5 n.toNat) } }) ∧
    (s.seq.run = false → s.phase = .config → (n.toNat = 0 ∨ s.params.seqMax < n.toNat) →
      exec (.seqSetLength n) s = Spec.fail 0x30#8 .configRange s) ∧
    (s.seq.run = false → s.phase = .running → n.toNat = 0 → 1 ≤ s.params.seqMax →
      exec (.seqSetLength n) s = Spec.ok 0x30#8 { s with seq := { s.seq with len := some 1#5 } }) ∧
    (s.seq.run = false → s.phase = .running → 1 ≤ n.toNat → s.params.seqMax < n.toNat →
      exec (.seqSetLength n) s = Spec.ok 0x30#8
        { s with seq := { s.seq with len := some (BitVec.ofNat 5 s.params.seqMax) } })

/-- 45_sequencer.md section 2: SEQ_SET_NOTE refuses an index at or above SEQ_MAX in either phase, first;
a note above 127 fails in CONFIG and is stored as 127 in RUNNING; a stored note is read back at its own
index and every other entry stays. -/
def Obligations.SeqSetNoteStoresOneEntry : Prop :=
  ∀ (s : State) (i : BitVec 16) (n : BitVec 32),
    (s.params.seqMax ≤ i.toNat → exec (.seqSetNote i n) s = Spec.fail 0x31#8 .outOfRange s) ∧
    (i.toNat < s.params.seqMax → s.phase = .config → 127 < n.toNat →
      exec (.seqSetNote i n) s = Spec.fail 0x31#8 .configRange s) ∧
    (i.toNat < s.params.seqMax → (s.phase = .running ∨ n.toNat ≤ 127) →
      ∃ ram, exec (.seqSetNote i n) s = Spec.ok 0x31#8 { s with note := ram } ∧
        entryAt ram i.toNat = some (BitVec.ofNat 7 (min n.toNat 127)) ∧
        ∀ j, j ≠ i.toNat → entryAt ram j = entryAt s.note j)

/-- 45_sequencer.md section 2: SEQ_SET_STEP_MS stores a nonzero time; zero fails in CONFIG and stores 1 in
RUNNING. -/
def Obligations.SeqSetStepMsStoresAPositiveTime : Prop :=
  ∀ (s : State) (ms : BitVec 32),
    (ms ≠ 0#32 → exec (.seqSetStepMs ms) s =
      Spec.ok 0x32#8 { s with seq := { s.seq with stepMs := some ms } }) ∧
    (ms = 0#32 → s.phase = .config →
      exec (.seqSetStepMs ms) s = Spec.fail 0x32#8 .configRange s) ∧
    (ms = 0#32 → s.phase = .running → exec (.seqSetStepMs ms) s =
      Spec.ok 0x32#8 { s with seq := { s.seq with stepMs := some 1#32 } })

/-- 45_sequencer.md section 3: with a length n ≥ 1, a step time and notes 0 .. n - 1 set, SEQ_START plays
step 0: it publishes note 0's frequency and a new trigger in one update, the gate kept. Otherwise it
fails with UNSET. -/
def Obligations.SeqStartPlaysStepZero : Prop :=
  ∀ (s : State) (now : BitVec 32),
    (∀ (n : BitVec 5) (note0 : BitVec 7), s.seq.len = some n → 1 ≤ n.toNat → s.seq.stepMs ≠ none →
      (∀ i, i < n.toNat → entryAt s.note i ≠ none) → entryAt s.note 0 = some note0 →
      exec (.seqStart now) s = Spec.ok 0x33#8
        { s with
          seq := { s.seq with run := true, step := 0#4, lastMs := now }
          mb := { freq := some (noteRom note0), gate := s.mb.gate, trig := s.mb.trig + 1#32 } }) ∧
    ((s.seq.len = none ∨ s.seq.stepMs = none ∨
        ∃ n i, s.seq.len = some n ∧ i < n.toNat ∧ entryAt s.note i = none) →
      exec (.seqStart now) s = Spec.fail 0x33#8 .unset s)

/-- 45_sequencer.md section 3: a CTL_TICK that finds the sequencer running and its step time elapsed
(modulo 2^32) takes exactly one step and publishes the new step's frequency, the gate and a new trigger;
any other only publishes the gate. -/
def Obligations.CtlTickTakesAtMostOneStep : Prop :=
  ∀ (s : State) (gate : Bool) (now : BitVec 32),
    (∀ (n : BitVec 5) (ms : BitVec 32) (note : BitVec 7), s.seq.run = true → s.seq.len = some n →
      n.toNat ≤ 16 → s.seq.stepMs = some ms → ms.toNat ≤ (now - s.seq.lastMs).toNat →
      s.seq.step.toNat < n.toNat → entryAt s.note ((s.seq.step.toNat + 1) % n.toNat) = some note →
      exec (.ctlTick gate now) s = Spec.ok 0x35#8
        { s with
          seq := { s.seq with
                   step := BitVec.ofNat 4 ((s.seq.step.toNat + 1) % n.toNat), lastMs := now }
          mb := { freq := some (noteRom note), gate := gate, trig := s.mb.trig + 1#32 } }) ∧
    ((s.seq.run = false ∨
        ∃ ms, s.seq.stepMs = some ms ∧ (now - s.seq.lastMs).toNat < ms.toNat) →
      exec (.ctlTick gate now) s = Spec.ok 0x35#8 { s with mb := { s.mb with gate := gate } })

/-- 20_memory.md section 3, 45_sequencer.md section 3: CTL_TICK repeated with the same time and gate
changes nothing more but for its response. -/
def Obligations.CtlTickIsIdempotent : Prop :=
  ∀ (s t : State) (gate : Bool) (now : BitVec 32),
    (∀ ms, s.seq.stepMs = some ms → ms ≠ 0#32) → (s.seq.run = true → s.seq.stepMs ≠ none) →
    exec (.ctlTick gate now) s = .next t → exec (.ctlTick gate now) t = Spec.ok 0x35#8 t

/-- 45_sequencer.md section 3: from a running sequencer, k CTL_TICKs each exactly one step time after the
one before leave the step at (step + k) mod length, the time k step times on, and the trigger k up. -/
def Obligations.TicksAtTheStepTimeStepEachTime : Prop :=
  ∀ (s : State) (gate : Bool) (n : BitVec 5) (ms : BitVec 32) (k : Nat), s.seq.run = true →
    s.seq.len = some n → n.toNat ≤ 16 → s.seq.stepMs = some ms → s.seq.step.toNat < n.toNat →
    ∃ t, Spec.tickRun gate ms k s = some t ∧ t.seq.run = true ∧ t.seq.len = some n ∧
      t.seq.stepMs = some ms ∧ t.seq.step.toNat = (s.seq.step.toNat + k) % n.toNat ∧
      t.seq.lastMs = s.seq.lastMs + BitVec.ofNat 32 k * ms ∧
      t.mb.trig = s.mb.trig + BitVec.ofNat 32 k

/-! ## Whole-machine rules -/

/-- 10_state.md R41: PHASE moves from CONFIG to RUNNING by START alone, and back by reset and SOFT_RESET
alone; a START that responds OK moves it, and reset and SOFT_RESET set it to CONFIG. The clauses on a
request rest on the model's choices: that a hardware reset is one atomic step of the inbox (log 24), and
that a request with the mark of an overlap, or a SOFT_RESET with the mark of a RENDER in progress, is
refused and moves nothing (logs 4 and 11). -/
def Obligations.OnlyStartAndResetMoveThePhase : Prop :=
  State.reset.phase = .config ∧
  (∀ (i : Instr) (s t : State), exec i s = .next t → s.phase = .config → t.phase = .running →
    i = .start) ∧
  (∀ (i : Instr) (s t : State), exec i s = .next t → s.phase = .running → t.phase = .config →
    i = .softReset) ∧
  (∀ s t : State, exec .start s = .next t →
    t.responses = responseWord 0x0B#8 .ok 0#32 :: s.responses →
    s.phase = .config ∧ t.phase = .running) ∧
  (∀ s t : State, step s = .next t → t.phase ≠ s.phase →
    (∃ rest, s.inbox = .reset :: rest) ∨
    (∃ rendering rest, s.inbox = .command (bytesOfWord (encode .start)) false rendering :: rest) ∨
    (∃ rest, s.inbox = .command (bytesOfWord (encode .softReset)) false false :: rest)) ∧
  (∀ s t : State, exec .softReset s = .next t → t.phase = .config) ∧
  (∀ (s t : State) (rest : List Request), s.inbox = .reset :: rest → step s = .next t →
    t.phase = .config)

/-- 10_state.md section 1: the two domains own their state: RENDER writes no control-domain state, and no
command but START and SOFT_RESET writes audio-domain state. No instruction changes the model's arguments,
the inbox or the input block. -/
def Obligations.EachDomainWritesOnlyItsOwnState : Prop :=
  ∀ (i : Instr) (s t : State), exec i s = .next t →
    (t.params = s.params ∧ t.inbox = s.inbox ∧ t.audioIn = s.audioIn) ∧
    (i = .render → t.phase = s.phase ∧ t.lastErr = s.lastErr ∧ t.shadow = s.shadow ∧ t.seq = s.seq ∧
      t.note = s.note ∧ t.mb = s.mb ∧ t.responses = s.responses) ∧
    (i ≠ .render → t.outBlocks = s.outBlocks) ∧
    (i ≠ .render → i ≠ .start → i ≠ .softReset → t.audio = s.audio)

/-- 20_memory.md section 6: no command's response or effect on the control domain depends on the audio
domain's state (but for fs_act, which 40_command_port.md section 1 lets FLT_SET_CUTOFF read in RUNNING,
where it is the sample rate that was configured). -/
def Obligations.CommandsDoNotObserveTheAudioDomain : Prop :=
  ∀ (i : Instr) (s : State) (a : AudioState), i ≠ .render → a.fsAct = s.audio.fsAct →
    ∃ t b, exec i s = .next t ∧ exec i { s with audio := a } = .next { t with audio := b }

/-- 10_state.md section 6: the START that leaves CONFIG takes the sample rate and the block size in force
from FS and BLOCK; from then until reset the four stay, whatever is executed, so that in RUNNING the rate
and the size in force are the configured ones: every step keeps that, and reset is in CONFIG. -/
def Obligations.SampleRateAndBlockSizeAreFixedWhileRunning : Prop :=
  (∀ (i : Instr) (s t : State), exec i s = .next t → s.phase = .running → i ≠ .softReset →
    t.audio.fsAct = s.audio.fsAct ∧ t.audio.blkAct = s.audio.blkAct ∧ t.shadow.fs = s.shadow.fs ∧
    t.shadow.block = s.shadow.block) ∧
  (∀ s t : State, exec .start s = .next t → s.phase = .config → t.phase = .running →
    s.shadow.fs = some t.audio.fsAct ∧ s.shadow.block = some t.audio.blkAct ∧
    t.shadow.fs = some t.audio.fsAct ∧ t.shadow.block = some t.audio.blkAct) ∧
  (∀ s t : State, step s = .next t → Spec.ratesAreConfigured s → Spec.ratesAreConfigured t) ∧
  State.reset.phase = .config

/-! ## Invariants -/

/-- Every step keeps the structural invariant: the integer parameters stay in their legal sets (10_state.md
section 4), fs_act and blk_act the configured ones and the level of IDLE +0.0 (10_state.md section 6),
the write index in the ring (44_delay.md section 1), a running sequencer complete (45_sequencer.md section
2), a RUNNING engine's parameters set (46_engine.md sections 1 and 2), the model arguments in the bounds of
00_scope.md section 4 (log 15). That NOTE and DLY are lists in a canonical form is the model's choice
(logs 20 and 21). -/
def Obligations.StepKeepsTheStructuralInvariant : Prop :=
  ∀ s t : State, CoreInv s → step s = .next t → CoreInv t

/-- 10_state.md section 4: every stored f32 parameter stays in its legal set, and is never -0.0, through
every step. -/
def Obligations.StepKeepsF32ParametersLegal : Prop :=
  ∀ s t : State, CoreInv s → LegalF32s s → step s = .next t → LegalF32s t

/-- 10_state.md section 6, 42_envelope.md section 2: the envelope's levels stay in [+0.0, 1.0] through
every step. -/
def Obligations.StepKeepsTheEnvelopeLegal : Prop :=
  ∀ s t : State, CoreInv s → LegalF32s s → EnvLegal s.audio.env → step s = .next t →
    EnvLegal t.audio.env

/-- The reset state meets every invariant. (Its model arguments and its zero delay ring are the model's
choices, logs 1 and 5.) -/
def Obligations.ResetMeetsEveryInvariant : Prop :=
  CoreInv State.reset ∧ LegalF32s State.reset ∧ EnvLegal State.reset.audio.env
end

