-- ==== Sys2Proof/Laws/Arrays.lean ====
section
/-! SUPPORT. Laws of the two arrays: what a read gives after a write, and that every operation keeps the
canonical form. -/

namespace Sys2Proof.Laws.Arrays

open Sys2Proof.Machine

variable {α : Type}

/-- Every index listed is above `k`. -/
def above (k : Nat) (m : List (Nat × α)) : Prop := ∀ e ∈ m, k < e.1

theorem risingIndices_cons (a : Nat) (v : α) (m : List (Nat × α)) :
    risingIndices ((a, v) :: m) = true ↔ above a m ∧ risingIndices m = true := by
  induction m generalizing a v with
  | nil => simp [risingIndices, above]
  | cons e rest ih =>
    obtain ⟨b, w⟩ := e
    rw [risingIndices, Bool.and_eq_true, decide_eq_true_eq]
    constructor
    · rintro ⟨hab, hr⟩
      refine ⟨?_, hr⟩
      intro e he
      rcases List.mem_cons.1 he with rfl | he'
      · exact hab
      · exact lt_trans hab (((ih b w).1 hr).1 e he')
    · rintro ⟨ha, hr⟩
      exact ⟨ha (b, w) (List.mem_cons_self ..), hr⟩

theorem entryAt_of_above {k i : Nat} {m : List (Nat × α)} (h : above k m) (hi : i ≤ k) :
    entryAt m i = none := by
  induction m with
  | nil => rfl
  | cons e rest ih =>
    obtain ⟨a, v⟩ := e
    have ha : k < a := h (a, v) (List.mem_cons_self ..)
    rw [entryAt, if_neg (by omega)]
    exact ih (fun e he => h e (List.mem_cons_of_mem _ he))

/-- What is listed after a write: the value written, and every other entry as before. -/
theorem entryAt_insertEntry (m : List (Nat × α)) (k : Nat) (v : α) (i : Nat) :
    entryAt (insertEntry m k v) i = if i = k then some v else entryAt m i := by
  induction m with
  | nil => simp [insertEntry, entryAt, eq_comm]
  | cons e rest ih =>
    obtain ⟨a, w⟩ := e
    rw [insertEntry]
    split
    · rename_i hk
      by_cases hi : i = k
      · simp [entryAt, hi]
      · simp [entryAt, hi, Ne.symm hi]
    · split
      · rename_i ha
        subst ha
        by_cases hi : i = a
        · simp [entryAt, hi]
        · simp [entryAt, hi, Ne.symm hi]
      · rename_i ha
        rw [entryAt, ih, entryAt]
        by_cases hi : i = k
        · rw [if_neg (by omega), if_pos hi, if_pos hi]
        · simp [hi]

theorem above_insertEntry {b k : Nat} {m : List (Nat × α)} {v : α} (h : above b m) (hk : b < k) :
    above b (insertEntry m k v) := by
  induction m with
  | nil => intro e he; simp [insertEntry] at he; rw [he]; exact hk
  | cons e rest ih =>
    obtain ⟨a, w⟩ := e
    have hr : above b rest := fun e he => h e (List.mem_cons_of_mem _ he)
    have ha : b < a := h (a, w) (List.mem_cons_self ..)
    rw [insertEntry]
    intro e he
    split at he
    · rcases List.mem_cons.1 he with rfl | he'
      · exact hk
      · exact h e he'
    · split at he
      · rcases List.mem_cons.1 he with rfl | he'
        · exact hk
        · exact hr e he'
      · rcases List.mem_cons.1 he with rfl | he'
        · exact ha
        · exact ih hr e he'

theorem risingIndices_insertEntry {m : List (Nat × α)} (h : risingIndices m = true) (k : Nat) (v : α) :
    risingIndices (insertEntry m k v) = true := by
  induction m with
  | nil => rfl
  | cons e rest ih =>
    obtain ⟨a, w⟩ := e
    obtain ⟨ha, hr⟩ := (risingIndices_cons a w rest).1 h
    rw [insertEntry]
    split
    · rename_i hk
      rw [risingIndices_cons]
      refine ⟨?_, h⟩
      intro e he
      rcases List.mem_cons.1 he with rfl | he'
      · exact hk
      · exact lt_trans hk (ha e he')
    · split
      · rename_i hk
        subst hk
        rw [risingIndices_cons]
        exact ⟨ha, hr⟩
      · rename_i h1 h2
        rw [risingIndices_cons]
        exact ⟨above_insertEntry ha (by omega), ih hr⟩

theorem above_eraseEntry {b : Nat} {m : List (Nat × α)} (h : above b m) (k : Nat) :
    above b (eraseEntry m k) := by
  induction m with
  | nil => exact h
  | cons e rest ih =>
    obtain ⟨a, w⟩ := e
    have hr : above b rest := fun e he => h e (List.mem_cons_of_mem _ he)
    rw [eraseEntry]
    split
    · exact hr
    · intro e he
      rcases List.mem_cons.1 he with rfl | he'
      · exact h _ (List.mem_cons_self ..)
      · exact ih hr e he'

theorem risingIndices_eraseEntry {m : List (Nat × α)} (h : risingIndices m = true) (k : Nat) :
    risingIndices (eraseEntry m k) = true := by
  induction m with
  | nil => rfl
  | cons e rest ih =>
    obtain ⟨a, w⟩ := e
    obtain ⟨ha, hr⟩ := (risingIndices_cons a w rest).1 h
    rw [eraseEntry]
    split
    · exact hr
    · rw [risingIndices_cons]
      exact ⟨above_eraseEntry ha k, ih hr⟩

/-- What is listed after an erasure, in the canonical form. -/
theorem entryAt_eraseEntry {m : List (Nat × α)} (h : risingIndices m = true) (k i : Nat) :
    entryAt (eraseEntry m k) i = if i = k then none else entryAt m i := by
  induction m with
  | nil => simp [eraseEntry, entryAt]
  | cons e rest ih =>
    obtain ⟨a, w⟩ := e
    obtain ⟨ha, hr⟩ := (risingIndices_cons a w rest).1 h
    rw [eraseEntry]
    split
    · rename_i hk
      subst hk
      by_cases hi : i = a
      · rw [if_pos hi, entryAt_of_above ha (le_of_eq hi)]
      · simp [entryAt, hi, Ne.symm hi]
    · rename_i hk
      rw [entryAt, ih hr, entryAt]
      by_cases hi : i = k
      · rw [if_neg (by omega), if_pos hi, if_pos hi]
      · simp [hi]

theorem mem_insertEntry {m : List (Nat × α)} {k : Nat} {v : α} {e : Nat × α}
    (h : e ∈ insertEntry m k v) : e = (k, v) ∨ e ∈ m := by
  induction m with
  | nil => simpa [insertEntry] using h
  | cons f rest ih =>
    obtain ⟨a, w⟩ := f
    rw [insertEntry] at h
    split at h
    · simpa using h
    · split at h
      · rcases List.mem_cons.1 h with h' | h'
        · exact .inl h'
        · exact .inr (List.mem_cons_of_mem _ h')
      · rcases List.mem_cons.1 h with h' | h'
        · exact .inr (h' ▸ List.mem_cons_self ..)
        · exact (ih h').imp_right (List.mem_cons_of_mem _)

theorem mem_eraseEntry {m : List (Nat × α)} {k : Nat} {e : Nat × α} (h : e ∈ eraseEntry m k) :
    e ∈ m := by
  induction m with
  | nil => exact h
  | cons f rest ih =>
    obtain ⟨a, w⟩ := f
    rw [eraseEntry] at h
    split at h
    · exact List.mem_cons_of_mem _ h
    · rcases List.mem_cons.1 h with h' | h'
      · exact h' ▸ List.mem_cons_self ..
      · exact List.mem_cons_of_mem _ (ih h')

/-! ## DLY -/

theorem memory_wf_iff (m : Memory) :
    m.wf = true ↔ risingIndices m = true ∧ ∀ e ∈ m, e.2 ≠ unlisted := by
  simp [Memory.wf]

/-- MemWrite keeps the canonical form of DLY. -/
theorem memory_write_wf {m : Memory} (h : m.wf = true) (k : Nat) (v : F32) :
    (m.write k v).wf = true := by
  obtain ⟨hr, hz⟩ := (memory_wf_iff m).1 h
  rw [memory_wf_iff]
  unfold Memory.write
  split
  · exact ⟨risingIndices_eraseEntry hr k, fun e he => hz e (mem_eraseEntry he)⟩
  · rename_i hv
    refine ⟨risingIndices_insertEntry hr k v, fun e he => ?_⟩
    rcases mem_insertEntry he with rfl | he'
    · exact hv
    · exact hz e he'

/-- MemRead after MemWrite: the value written at the entry written, every other entry as before
(20_memory.md R121). -/
theorem memory_read_write {m : Memory} (h : m.wf = true) (k : Nat) (v : F32) (i : Nat) :
    (m.write k v).read i = if i = k then v else m.read i := by
  obtain ⟨hr, -⟩ := (memory_wf_iff m).1 h
  unfold Memory.read Memory.write
  split
  · rename_i hv
    rw [entryAt_eraseEntry hr]
    by_cases hi : i = k <;> simp [hi, hv]
  · rw [entryAt_insertEntry]
    by_cases hi : i = k <;> simp [hi]

theorem memory_zeroFilled_wf : Memory.wf Memory.zeroFilled = true := rfl

theorem memory_zeroFilled_read (i : Nat) : Memory.read Memory.zeroFilled i = F32.zero := rfl

/-! ## NOTE -/

theorem noteRam_write_wf {m : NoteRam} (h : m.wf = true) (k : Nat) (v : BitVec 7) :
    (m.write k v).wf = true := risingIndices_insertEntry h k v

theorem noteRam_isSet_write (m : NoteRam) (k : Nat) (v : BitVec 7) (i : Nat) :
    (m.write k v).isSet i = (decide (i = k) || m.isSet i) := by
  unfold NoteRam.isSet NoteRam.write
  rw [entryAt_insertEntry]
  by_cases hi : i = k <;> simp [hi]

theorem noteRam_read_write (m : NoteRam) (k : Nat) (v : BitVec 7) (i : Nat) :
    (m.write k v).read i = if i = k then v else m.read i := by
  unfold NoteRam.read NoteRam.write
  rw [entryAt_insertEntry]
  by_cases hi : i = k <;> simp [hi]

end Sys2Proof.Laws.Arrays
end

