-- ==== Sys2Proof/Laws/Encoding.lean ====
section
/-! SUPPORT. Laws of the command words: the fields of a word built from its fields, the bytes of a
word, and serialised blocks. -/

namespace Sys2Proof.Laws.Encoding

/-! ## The fields of format C -/

/-- Bit i of a word of format C. -/
theorem getLsbD_formatC (op : BitVec 8) (imm : BitVec 16) (data : BitVec 32) (i : Nat) :
    (formatC op imm data).getLsbD i =
      if i < 32 then data.getLsbD i
      else if i < 48 then imm.getLsbD (i - 32)
      else if i < 56 then false else op.getLsbD (i - 56) := by
  have h : ∀ v : BitVec (8 + 8 + 16 + 32), v = op ++ 0#8 ++ imm ++ data → v.getLsbD i =
      if i < 32 then data.getLsbD i
      else if i < 48 then imm.getLsbD (i - 32)
      else if i < 56 then false else op.getLsbD (i - 56) := by
    rintro v rfl
    simp only [BitVec.getLsbD_append]
    split_ifs <;> first | omega | rfl | simp
  exact h _ rfl

@[simp] theorem opOf_formatC (op : BitVec 8) (imm : BitVec 16) (data : BitVec 32) :
    opOf (formatC op imm data) = op := by
  apply BitVec.eq_of_getLsbD_eq
  intro i hi
  rw [opOf, BitVec.getLsbD_extractLsb', getLsbD_formatC, if_neg (by omega), if_neg (by omega),
    if_neg (by omega), decide_eq_true hi, Nat.add_sub_cancel_left, Bool.true_and]

@[simp] theorem rsvOf_formatC (op : BitVec 8) (imm : BitVec 16) (data : BitVec 32) :
    rsvOf (formatC op imm data) = 0#8 := by
  apply BitVec.eq_of_getLsbD_eq
  intro i hi
  rw [rsvOf, BitVec.getLsbD_extractLsb', getLsbD_formatC, if_neg (by omega), if_neg (by omega),
    if_pos (by omega), Bool.and_false, BitVec.getLsbD_zero]

@[simp] theorem immOf_formatC (op : BitVec 8) (imm : BitVec 16) (data : BitVec 32) :
    immOf (formatC op imm data) = imm := by
  apply BitVec.eq_of_getLsbD_eq
  intro i hi
  rw [immOf, BitVec.getLsbD_extractLsb', getLsbD_formatC, if_neg (by omega), if_pos (by omega),
    decide_eq_true hi, Nat.add_sub_cancel_left, Bool.true_and]

@[simp] theorem dataOf_formatC (op : BitVec 8) (imm : BitVec 16) (data : BitVec 32) :
    dataOf (formatC op imm data) = data := by
  apply BitVec.eq_of_getLsbD_eq
  intro i hi
  rw [dataOf, BitVec.getLsbD_extractLsb', getLsbD_formatC, if_pos (by omega), decide_eq_true hi,
    Nat.zero_add, Bool.true_and]

/-- A word is its four fields. -/
theorem word_ext {w w' : Word64} (h1 : opOf w = opOf w') (h2 : rsvOf w = rsvOf w')
    (h3 : immOf w = immOf w') (h4 : dataOf w = dataOf w') : w = w' := by
  apply BitVec.eq_of_getLsbD_eq
  intro i hi
  by_cases c1 : i < 32
  · have := congrArg (fun v => v.getLsbD i) h4
    simpa [dataOf, c1] using this
  · by_cases c2 : i < 48
    · have := congrArg (fun v => v.getLsbD (i - 32)) h3
      simpa [immOf, show i - 32 < 16 by omega, show 32 + (i - 32) = i by omega] using this
    · by_cases c3 : i < 56
      · have := congrArg (fun v => v.getLsbD (i - 48)) h2
        simpa [rsvOf, show i - 48 < 8 by omega, show 48 + (i - 48) = i by omega] using this
      · have := congrArg (fun v => v.getLsbD (i - 56)) h1
        simpa [opOf, show i - 56 < 8 by omega, show 56 + (i - 56) = i by omega] using this

/-- A word with RSV = 0 is format C of its other fields (30_encoding.md R140). -/
theorem formatC_fields {w : Word64} (h : rsvOf w = 0#8) : formatC (opOf w) (immOf w) (dataOf w) = w :=
  word_ext (by simp) (by simp [h]) (by simp) (by simp)

/-! ## Bytes (20_memory.md R100, R101) -/

/-- A bit of a word that is put together from two parts at bit `k`. -/
theorem bit_of_parts {n : Nat} (w : BitVec n) (k m i : Nat) (hi : i < m) :
    (w.extractLsb' k m).getLsbD i = w.getLsbD (k + i) := by
  rw [BitVec.getLsbD_extractLsb', decide_eq_true hi, Bool.true_and]

/-- The bytes of a word carry it. -/
@[simp] theorem wordOfBytes_bytesOfWord (w : Word64) : wordOfBytes (bytesOfWord w) = some w := by
  simp only [wordOfBytes, bytesOfWord, Option.some.injEq]
  apply BitVec.eq_of_getLsbD_eq
  intro i hi
  simp only [BitVec.getLsbD_append]
  split_ifs <;> (rw [bit_of_parts _ _ _ _ (by omega)]; congr 1; omega)

/-- Bit j of eight bytes put together. -/
theorem getLsbD_bytes (b0 b1 b2 b3 b4 b5 b6 b7 : Byte) (j : Nat) :
    BitVec.getLsbD (b7 ++ b6 ++ b5 ++ b4 ++ b3 ++ b2 ++ b1 ++ b0 : Word64) j =
      if j < 8 then b0.getLsbD j else if j - 8 < 8 then b1.getLsbD (j - 8)
      else if j - 8 - 8 < 8 then b2.getLsbD (j - 8 - 8)
      else if j - 8 - 8 - 8 < 8 then b3.getLsbD (j - 8 - 8 - 8)
      else if j - 8 - 8 - 8 - 8 < 8 then b4.getLsbD (j - 8 - 8 - 8 - 8)
      else if j - 8 - 8 - 8 - 8 - 8 < 8 then b5.getLsbD (j - 8 - 8 - 8 - 8 - 8)
      else if j - 8 - 8 - 8 - 8 - 8 - 8 < 8 then b6.getLsbD (j - 8 - 8 - 8 - 8 - 8 - 8)
      else b7.getLsbD (j - 8 - 8 - 8 - 8 - 8 - 8 - 8) := by
  show BitVec.getLsbD (w := 8 + 8 + 8 + 8 + 8 + 8 + 8 + 8) (b7 ++ b6 ++ b5 ++ b4 ++ b3 ++ b2 ++ b1 ++ b0) j = _
  simp only [BitVec.getLsbD_append]

/-- The byte of bits 8k .. 8k + 7 of eight bytes put together. -/
theorem byte_of_bytes (b0 b1 b2 b3 b4 b5 b6 b7 : Byte) :
    bytesOfWord (b7 ++ b6 ++ b5 ++ b4 ++ b3 ++ b2 ++ b1 ++ b0) = [b0, b1, b2, b3, b4, b5, b6, b7] := by
  simp only [bytesOfWord, List.cons.injEq, and_true]
  refine ⟨?_, ?_, ?_, ?_, ?_, ?_, ?_, ?_⟩ <;>
    (apply BitVec.eq_of_getLsbD_eq
     intro i hi
     rw [bit_of_parts _ _ _ _ hi, getLsbD_bytes]
     repeat rw [if_neg (by omega)]
     try rw [if_pos (by omega)]
     congr 1
     omega)

/-- The bytes that carry a word are its bytes. -/
theorem bytesOfWord_of_wordOfBytes {l : List Byte} {w : Word64} (h : wordOfBytes l = some w) :
    l = bytesOfWord w := by
  match l, h with
  | [b0, b1, b2, b3, b4, b5, b6, b7], h =>
    rw [← Option.some.inj h]
    exact (byte_of_bytes b0 b1 b2 b3 b4 b5 b6 b7).symm

/-- A transfer is a word exactly where it has 8 bytes (20_memory.md R102). -/
theorem wordOfBytes_isSome (l : List Byte) : (wordOfBytes l).isSome = wholeWord l := by
  match l with
  | [] | [_] | [_, _] | [_, _, _] | [_, _, _, _] | [_, _, _, _, _] | [_, _, _, _, _, _]
  | [_, _, _, _, _, _, _] | [_, _, _, _, _, _, _, _] => rfl
  | _ :: _ :: _ :: _ :: _ :: _ :: _ :: _ :: _ :: l => rfl

/-- The samples of a serialised channel are the channel. -/
theorem samplesOfBytes_bytes (channel : List F32) :
    samplesOfBytes (channel.flatMap bytesOfSample) = some channel := by
  induction channel with
  | nil => rfl
  | cons x xs ih =>
    simp only [List.flatMap_cons, bytesOfSample, List.cons_append, List.nil_append, samplesOfBytes, ih,
      Option.map_some, Option.some.injEq, List.cons.injEq, and_true]
    apply BitVec.eq_of_getLsbD_eq
    intro i hi
    simp only [BitVec.getLsbD_append]
    split_ifs <;> (rw [bit_of_parts _ _ _ _ (by omega)]; congr 1; omega)

end Sys2Proof.Laws.Encoding
end

