-- ==== Sys2Proof/Laws/F32.lean ====
section
/-! SUPPORT. Laws of the binary32 arithmetic: patterns, order, rounding. -/

namespace Sys2Proof.Laws.F32

open Sys2Proof.F32

/-! ## Patterns -/

theorem magBits_lt (a : F32) : magBits a < 2 ^ 31 := Nat.mod_lt _ (by norm_num)

theorem infBits_eq : infBits = 0x7F800000 := rfl

theorem magBits_pack (s : Bool) {m : Nat} (h : m < 2 ^ 31) : magBits (pack s m) = m := by
  cases s <;> simp only [magBits, pack, BitVec.toNat_ofNat] <;> norm_num <;> omega

theorem sign_eq (a : F32) : sign a = decide (2 ^ 31 ≤ a.toNat) := by
  have h := a.isLt
  simp only [sign, BitVec.getLsbD, Nat.testBit, Nat.shiftRight_eq_div_pow, Nat.one_and_eq_mod_two]
  by_cases hc : 2 ^ 31 ≤ a.toNat
  · have h1 : a.toNat / 2 ^ 31 = 1 := by omega
    rw [h1, decide_eq_true hc]
    decide
  · have h1 : a.toNat / 2 ^ 31 = 0 := by omega
    rw [h1, decide_eq_false hc]
    decide

theorem sign_pack (s : Bool) {m : Nat} (h : m < 2 ^ 31) : sign (pack s m) = s := by
  rw [sign_eq]
  cases s <;> simp only [pack, BitVec.toNat_ofNat] <;> norm_num <;> omega

/-- A pattern is its sign and its bits 30:0. -/
theorem pack_sign_magBits (a : F32) : pack (sign a) (magBits a) = a := by
  have h := a.isLt
  apply BitVec.eq_of_toNat_eq
  rw [sign_eq]
  by_cases hc : 2 ^ 31 ≤ a.toNat <;> simp only [pack, magBits, BitVec.toNat_ofNat, hc] <;>
    simp <;> omega

theorem eq_of_sign_magBits {a b : F32} (hs : sign a = sign b) (hm : magBits a = magBits b) : a = b := by
  rw [← pack_sign_magBits a, ← pack_sign_magBits b, hs, hm]

@[simp] theorem isNaN_nanOf (v : F32) : isNaN (nanOf v) = true := by
  unfold nanOf
  split
  · assumption
  · decide

@[simp] theorem magBits_neg (a : F32) : magBits (neg a) = magBits a := by
  unfold magBits neg
  rw [BitVec.toNat_xor, Nat.xor_mod_two_pow]
  simp

@[simp] theorem sign_neg (a : F32) : sign (neg a) = !sign a := by
  simp [sign, neg]

@[simp] theorem magBits_abs (a : F32) : magBits (Sys2Proof.F32.abs a) = magBits a := by
  have h : (0x7FFFFFFF#32).toNat = 2 ^ 31 - 1 := rfl
  unfold magBits Sys2Proof.F32.abs
  rw [BitVec.toNat_and, h, Nat.and_two_pow_sub_one_eq_mod, Nat.mod_mod]

@[simp] theorem sign_abs (a : F32) : sign (Sys2Proof.F32.abs a) = false := by
  simp [sign, Sys2Proof.F32.abs]

theorem isFinite_iff (a : F32) : isFinite a = true ↔ magBits a < 0x7F800000 := by
  rw [isFinite, decide_eq_true_eq, infBits_eq]

theorem isNaN_iff (a : F32) : isNaN a = true ↔ 0x7F800000 < magBits a := by
  rw [isNaN, decide_eq_true_eq, infBits_eq]

theorem not_isNaN_iff (a : F32) : isNaN a = false ↔ magBits a ≤ 0x7F800000 := by
  rw [isNaN, decide_eq_false_iff_not, infBits_eq, Nat.not_lt]

theorem isInf_iff (a : F32) : isInf a = true ↔ magBits a = 0x7F800000 := by
  rw [isInf, decide_eq_true_eq, infBits_eq]

theorem isNaN_of_isFinite {a : F32} (h : isFinite a = true) : isNaN a = false := by
  rw [isFinite_iff] at h
  rw [not_isNaN_iff]
  omega

theorem isInf_of_isFinite {a : F32} (h : isFinite a = true) : isInf a = false := by
  rw [isFinite_iff] at h
  rw [isInf, decide_eq_false_iff_not, infBits_eq]
  omega

/-! ## Order -/

theorem lt_iff (a b : F32) : lt a b = true ↔ isNaN a = false ∧ isNaN b = false ∧ key a < key b := by
  simp [lt, and_assoc]

theorem le_iff (a b : F32) : le a b = true ↔ isNaN a = false ∧ isNaN b = false ∧ key a ≤ key b := by
  simp [le, and_assoc]

theorem eq_iff (a b : F32) : eq a b = true ↔ isNaN a = false ∧ isNaN b = false ∧ key a = key b := by
  simp [eq, and_assoc]

theorem key_neg (a : F32) : key (neg a) = -key a := by
  unfold key
  cases h : sign a <;> simp [h]

theorem le_trans {a b c : F32} (h : le a b = true) (h' : le b c = true) : le a c = true := by
  rw [le_iff] at *
  exact ⟨h.1, h'.2.1, h.2.2.trans h'.2.2⟩

theorem key_bounds (a : F32) : -(2 ^ 31 : Int) < key a ∧ key a < 2 ^ 31 := by
  have := magBits_lt a
  unfold key
  split <;> omega

theorem natAbs_key (a : F32) : (key a).natAbs = magBits a := by
  unfold key
  split <;> simp

/-- The sign of a value that is no zero, from its key. -/
theorem sign_of_key_neg {a : F32} (h : key a < 0) : sign a = true := by
  unfold key at h
  by_contra hs
  simp only [Bool.not_eq_true] at hs
  simp [hs] at h
  omega

theorem sign_of_key_pos {a : F32} (h : 0 < key a) : sign a = false := by
  unfold key at h
  by_contra hs
  simp only [Bool.not_eq_false] at hs
  simp [hs] at h
  omega

/-- Two values in the same place of the order are the same pattern, but for the two zeros. -/
theorem eq_of_key {a b : F32} (h : key a = key b) (h0 : key a ≠ 0) : a = b := by
  apply eq_of_sign_magBits
  · rcases lt_or_gt_of_ne h0 with h1 | h1
    · rw [sign_of_key_neg h1, sign_of_key_neg (h ▸ h1)]
    · rw [sign_of_key_pos h1, sign_of_key_pos (h ▸ h1)]
  · rw [← natAbs_key a, ← natAbs_key b, h]

theorem key_ofKey (z : Bool) {k : Int} (h : k.natAbs < 2 ^ 31) : key (ofKey z k) = k := by
  unfold key ofKey
  rw [magBits_pack _ h, sign_pack _ h]
  by_cases h0 : k = 0
  · simp [h0]
  · by_cases hn : k < 0
    · simp only [h0, hn, if_false, decide_true, if_true]
      omega
    · simp only [h0, hn, if_false, decide_false, Bool.false_eq_true]
      omega

theorem magBits_ofKey (z : Bool) {k : Int} (h : k.natAbs < 2 ^ 31) : magBits (ofKey z k) = k.natAbs := by
  rw [← natAbs_key, key_ofKey z h]

/-- nextUp of a finite value stands one place higher in the order. -/
theorem key_nextUp {a : F32} (h : isFinite a = true) : key (nextUp a) = key a + 1 := by
  have hm := (isFinite_iff a).1 h
  have := natAbs_key a
  simp only [nextUp, h, if_true]
  exact key_ofKey _ (by omega)

/-- nextDown of a finite value stands one place lower in the order. -/
theorem key_nextDown {a : F32} (h : isFinite a = true) : key (nextDown a) = key a - 1 := by
  have hm := (isFinite_iff a).1 h
  have := natAbs_key a
  simp only [nextDown, h, if_true]
  exact key_ofKey _ (by omega)

theorem isNaN_nextDown {a : F32} (h : isFinite a = true) : isNaN (nextDown a) = false := by
  have hm := (isFinite_iff a).1 h
  have h1 := natAbs_key (nextDown a)
  have h2 := natAbs_key a
  rw [key_nextDown h] at h1
  rw [not_isNaN_iff]
  omega

theorem isNaN_nextUp {a : F32} (h : isFinite a = true) : isNaN (nextUp a) = false := by
  have hm := (isFinite_iff a).1 h
  have h1 := natAbs_key (nextUp a)
  have h2 := natAbs_key a
  rw [key_nextUp h] at h1
  rw [not_isNaN_iff]
  omega

/-! ## sat, clampf and the stored zero -/

theorem key_one : key one = 0x3F800000 := by decide
theorem key_minusOne : key minusOne = -0x3F800000 := by decide
theorem key_zero : key zero = 0 := by decide

/-- sat gives a value of [-1.0, 1.0], never a NaN (00_scope.md R15). -/
theorem sat_range (x : F32) :
    isNaN (sat x) = false ∧ -0x3F800000 ≤ key (sat x) ∧ key (sat x) ≤ 0x3F800000 := by
  unfold sat
  split
  · decide
  · rename_i hn
    simp only [Bool.not_eq_true] at hn
    split
    · decide
    · rename_i hl
      split
      · decide
      · rename_i hg
        have h1 : isNaN minusOne = false := by decide
        have h2 : isNaN one = false := by decide
        simp only [lt, gt, hn, h1, h2, key_one, key_minusOne] at hl hg
        simp at hl hg
        exact ⟨hn, hl, hg⟩

/-- clampf gives a value of [lo, hi] where the bounds are no NaN and nanv lies between them
(00_scope.md R16). -/
theorem clamp_range {lo hi nanv : F32} (h1 : le lo hi = true) (h2 : le lo nanv = true)
    (h3 : le nanv hi = true) (x : F32) :
    le lo (clamp x lo hi nanv) = true ∧ le (clamp x lo hi nanv) hi = true := by
  have a1 := (le_iff _ _).1 h1
  unfold clamp
  split
  · exact ⟨h2, h3⟩
  · rename_i hn
    simp only [Bool.not_eq_true] at hn
    split
    · exact ⟨(le_iff _ _).2 ⟨a1.1, a1.1, le_refl _⟩, h1⟩
    · rename_i hl
      split
      · exact ⟨h1, (le_iff _ _).2 ⟨a1.2.1, a1.2.1, le_refl _⟩⟩
      · rename_i hg
        simp only [lt, gt, hn, a1.1, a1.2.1] at hl hg
        simp at hl hg
        exact ⟨(le_iff _ _).2 ⟨a1.1, hn, hl⟩, (le_iff _ _).2 ⟨hn, a1.2.1, hg⟩⟩

theorem key_plusZero (v : F32) : key (plusZero v) = key v := by
  unfold plusZero
  split
  · rename_i h
    rw [eq_iff] at h
    rw [h.2.2]
  · rfl

theorem isNaN_plusZero (v : F32) : isNaN (plusZero v) = isNaN v := by
  unfold plusZero
  split
  · rename_i h
    rw [eq_iff] at h
    rw [h.1]
    decide
  · rfl

/-- -0.0 is never stored (40_command_port.md R182). -/
theorem plusZero_ne_minusZero (v : F32) : plusZero v ≠ 0x80000000#32 := by
  unfold plusZero
  split
  · decide
  · rename_i h
    intro hv
    subst hv
    exact h (by decide)

/-! ## Rounding -/

/-- The magnitude of the finite f32 whose bits 30:0 are `m`, in units of 2^-149. -/
def magValue (m : Nat) : Nat :=
  if m / 2 ^ 23 = 0 then m % 2 ^ 23 else (2 ^ 23 + m % 2 ^ 23) * 2 ^ (m / 2 ^ 23 - 1)

theorem scaled_eq (a : F32) : scaled a = magValue (magBits a) := rfl

/-- rneDiv is the nearest integer, and an even one at a tie. -/
theorem rneDiv_spec (n : Nat) {d : Nat} (hd : 0 < d) :
    2 * n ≤ 2 * (rneDiv n d * d) + d ∧ 2 * (rneDiv n d * d) ≤ 2 * n + d ∧
      (2 * n = 2 * (rneDiv n d * d) + d → rneDiv n d % 2 = 0) ∧
      (2 * (rneDiv n d * d) = 2 * n + d → rneDiv n d % 2 = 0) := by
  have hdm := Nat.div_add_mod n d
  have hlt := Nat.mod_lt n hd
  have hc : d * (n / d) = (n / d) * d := Nat.mul_comm _ _
  have hs : (n / d + 1) * d = (n / d) * d + d := Nat.succ_mul _ _
  unfold rneDiv
  simp only
  split
  · refine ⟨by omega, by omega, fun h => by omega, fun h => by omega⟩
  · split
    · refine ⟨by omega, by omega, fun h => by omega, fun h => by omega⟩
    · rcases Nat.mod_two_eq_zero_or_one (n / d) with h2 | h2
      · rw [h2]
        refine ⟨by simp; omega, by simp; omega, fun _ => h2, fun _ => h2⟩
      · rw [h2]
        refine ⟨by omega, by omega, fun _ => by omega, fun _ => by omega⟩

theorem rneDiv_mul (q : Nat) {d : Nat} (hd : 0 < d) : rneDiv (q * d) d = q := by
  unfold rneDiv
  simp [Nat.mul_div_cancel _ hd, hd]

/-- rneDiv is monotonic in the fraction. -/
theorem rneDiv_mono {n d n' d' : Nat} (hd : 0 < d) (hd' : 0 < d') (h : n * d' ≤ n' * d) :
    rneDiv n d ≤ rneDiv n' d' := by
  by_contra hc
  push Not at hc
  obtain ⟨-, b, -, c⟩ := rneDiv_spec n hd
  obtain ⟨a', -, c', -⟩ := rneDiv_spec n' hd'
  set q := rneDiv n d
  set q' := rneDiv n' d'
  have hdd : 0 < d * d' := Nat.mul_pos hd hd'
  -- the two halves meet only at a tie between neighbours, where both would be even
  have e1 : 2 * (q * d) * d' ≤ (2 * n + d) * d' := Nat.mul_le_mul_right _ b
  have e2 : 2 * n' * d ≤ (2 * (q' * d') + d') * d := Nat.mul_le_mul_right _ a'
  have e3 : 2 * q * (d * d') ≤ (2 * q' + 2) * (d * d') := by nlinarith
  have e4 : 2 * q ≤ 2 * q' + 2 := Nat.le_of_mul_le_mul_right e3 hdd
  have e5 : q = q' + 1 := by omega
  have t1 : 2 * (q * d) = 2 * n + d := by
    by_contra hne
    have : 2 * (q * d) + 1 ≤ 2 * n + d := by omega
    have f1 : (2 * (q * d) + 1) * d' ≤ (2 * n + d) * d' := Nat.mul_le_mul_right _ this
    rw [e5] at f1
    nlinarith
  have t2 : 2 * n' = 2 * (q' * d') + d' := by
    by_contra hne
    have : 2 * n' + 1 ≤ 2 * (q' * d') + d' := by omega
    have f1 : (2 * n' + 1) * d ≤ (2 * (q' * d') + d') * d := Nat.mul_le_mul_right _ this
    rw [e5] at e1
    nlinarith
  have := c t1
  have := c' t2
  omega

/-- Where the shift of roundMag is positive, 24 significant bits are kept. -/
theorem rounded_bounds {n d : Nat} (hd : 0 < d) :
    rneDiv n (d * 2 ^ (Nat.log2 (n / d) - 23)) ≤ 2 ^ 24 ∧
      (0 < Nat.log2 (n / d) - 23 → 2 ^ 23 ≤ rneDiv n (d * 2 ^ (Nat.log2 (n / d) - 23))) := by
  set k := Nat.log2 (n / d) - 23 with hk
  have hdk : 0 < d * 2 ^ k := Nat.mul_pos hd (by positivity)
  have hq : n / d < 2 ^ (Nat.log2 (n / d) + 1) := by
    rcases Nat.eq_zero_or_pos (n / d) with h0 | h0
    · rw [h0]; positivity
    · exact Nat.lt_log2_self
  have hup : n / d < 2 ^ (24 + k) := lt_of_lt_of_le hq (Nat.pow_le_pow_right (by norm_num) (by omega))
  constructor
  · have h1 : n < d * 2 ^ (24 + k) := by
      rw [Nat.div_lt_iff_lt_mul hd] at hup
      linarith [Nat.mul_comm d (2 ^ (24 + k))]
    have h2 : n * 1 ≤ 2 ^ 24 * (d * 2 ^ k) := by
      rw [Nat.pow_add] at h1
      nlinarith
    have h3 := rneDiv_mono hdk Nat.one_pos (n := n) (n' := 2 ^ 24) h2
    have h4 : rneDiv (2 ^ 24) 1 = 2 ^ 24 := by decide
    omega
  · intro hpos
    have hne : n / d ≠ 0 := by
      intro h0
      rw [h0] at hk
      simp [Nat.log2] at hk
      omega
    have hlo : 2 ^ (23 + k) ≤ n / d := by
      have := Nat.log2_self_le hne
      have e : 23 + k = Nat.log2 (n / d) := by omega
      rw [e]; exact this
    have h1 : 2 ^ (23 + k) * d ≤ n := (Nat.le_div_iff_mul_le hd).1 hlo
    have h2 : 2 ^ 23 * (d * 2 ^ k) ≤ n * 1 := by
      rw [Nat.pow_add] at h1
      nlinarith
    have h3 := rneDiv_mono Nat.one_pos hdk (n := 2 ^ 23) (n' := n) h2
    have h4 : rneDiv (2 ^ 23) 1 = 2 ^ 23 := by decide
    omega

theorem roundMag_le_inf (n d : Nat) : roundMag n d ≤ 0x7F800000 := Nat.min_le_right _ _

theorem roundMag_lt (n d : Nat) : roundMag n d < 2 ^ 31 :=
  lt_of_le_of_lt (roundMag_le_inf n d) (by norm_num)

/-- Rounding is monotonic. -/
theorem roundMag_mono {n d n' d' : Nat} (hd : 0 < d) (hd' : 0 < d') (h : n * d' ≤ n' * d) :
    roundMag n d ≤ roundMag n' d' := by
  have hq : n / d ≤ n' / d' := by
    rw [Nat.le_div_iff_mul_le hd']
    have h1 := Nat.div_mul_le_self n d
    have h2 : n / d * d' * d ≤ n' * d := by nlinarith
    exact Nat.le_of_mul_le_mul_right h2 hd
  have hl : Nat.log2 (n / d) ≤ Nat.log2 (n' / d') := by
    rcases Nat.eq_zero_or_pos (n / d) with h0 | h0
    · rw [h0]; simp
    · rw [Nat.le_log2 (by omega)]
      exact (Nat.log2_self_le (by omega)).trans hq
  obtain ⟨u1, -⟩ := rounded_bounds (n := n) hd
  obtain ⟨-, l2⟩ := rounded_bounds (n := n') hd'
  unfold roundMag
  simp only
  apply min_le_min_right
  rcases Nat.eq_or_lt_of_le (Nat.sub_le_sub_right hl 23) with he | hlt
  · rw [← he]
    apply Nat.add_le_add_right
    apply rneDiv_mono
    · exact Nat.mul_pos hd (by positivity)
    · exact Nat.mul_pos hd' (by positivity)
    · have := Nat.mul_le_mul_right (2 ^ (Nat.log2 (n / d) - 23)) h
      nlinarith
  · have := l2 (by omega)
    omega

/-- A value that is an f32 is rounded to itself. -/
theorem roundMag_magValue {m d : Nat} (hm : m < 0x7F800000) (hd : 0 < d) :
    roundMag (magValue m * d) d = m := by
  unfold roundMag
  simp only [Nat.mul_div_cancel _ hd, infBits_eq]
  have hdm := Nat.div_add_mod m (2 ^ 23)
  have hml := Nat.mod_lt m (show 0 < 2 ^ 23 by norm_num)
  unfold magValue
  split
  · rename_i h0
    have hlog : Nat.log2 (m % 2 ^ 23) - 23 = 0 := by
      rcases Nat.eq_zero_or_pos (m % 2 ^ 23) with hz | hz
      · rw [hz]; simp
      · have := (Nat.log2_lt (by omega)).2 hml
        omega
    rw [hlog]
    simp only [pow_zero, Nat.mul_one, rneDiv_mul _ hd]
    omega
  · rename_i h0
    set e := m / 2 ^ 23 with he
    set f := m % 2 ^ 23 with hf
    have hlog : Nat.log2 ((2 ^ 23 + f) * 2 ^ (e - 1)) - 23 = e - 1 := by
      have : Nat.log2 ((2 ^ 23 + f) * 2 ^ (e - 1)) = 23 + (e - 1) := by
        rw [Nat.log2_eq_iff (by positivity)]
        constructor
        · rw [Nat.pow_add]; exact Nat.mul_le_mul_right _ (by omega)
        · have : 2 ^ (23 + (e - 1) + 1) = 2 ^ 24 * 2 ^ (e - 1) := by
            rw [← Nat.pow_add]; congr 1; omega
          rw [this]
          exact Nat.mul_lt_mul_of_pos_right (by omega) (by positivity)
      omega
    rw [hlog]
    have : (2 ^ 23 + f) * 2 ^ (e - 1) * d = (2 ^ 23 + f) * (d * 2 ^ (e - 1)) := by ring
    rw [this, rneDiv_mul _ (Nat.mul_pos hd (by positivity))]
    omega

theorem roundMag_zero (d : Nat) : roundMag 0 d = 0 := by
  simp [roundMag, rneDiv, Nat.log2]

/-- A multiple of `D` nearest to `n` is the one rneDiv gives, an even one at a tie. -/
theorem rneDiv_nearest (n j : Nat) {d : Nat} (hd : 0 < d) :
    |(rneDiv n d * d : Int) - n| ≤ |(j * d : Int) - n| ∧
      (j ≠ rneDiv n d → |(rneDiv n d * d : Int) - n| = |(j * d : Int) - n| → rneDiv n d % 2 = 0) := by
  obtain ⟨a, b, c, e⟩ := rneDiv_spec n hd
  set q := rneDiv n d
  have h2 : 2 * |(q * d : Int) - n| ≤ d := by
    rw [← abs_two, ← abs_mul, abs_le]
    constructor <;> omega
  rcases eq_or_ne j q with rfl | hne
  · exact ⟨le_refl _, fun h => absurd rfl h⟩
  have h1 : (d : Int) ≤ |(q * d : Int) - j * d| := by
    rw [← sub_mul, abs_mul, Nat.abs_cast]
    have : 1 ≤ |(q : Int) - j| := Int.one_le_abs (by omega)
    nlinarith
  have h3 : |(q * d : Int) - j * d| ≤ |(q * d : Int) - n| + |(j * d : Int) - n| := by
    rw [abs_sub_comm (j * d : Int) n]
    exact abs_sub_le _ _ _
  refine ⟨by omega, fun _ he => ?_⟩
  rcases le_or_gt 0 ((q * d : Int) - n) with hs | hs
  · rw [abs_of_nonneg hs] at h2 h3 he
    exact e (by push_cast [← Int.natCast_inj]; omega)
  · rw [abs_of_neg hs] at h2 h3 he
    exact c (by push_cast [← Int.natCast_inj]; omega)

/-- The magnitude that a significand of at most 24 bits and an exponent make. -/
theorem magValue_pack {q k : Nat} (h : q ≤ 2 ^ 24) (h' : 0 < k → 2 ^ 23 ≤ q) :
    magValue (q + k * 2 ^ 23) = q * 2 ^ k := by
  unfold magValue
  have h24 : (2 : Nat) ^ 24 = 2 * 2 ^ 23 := by norm_num
  rcases Nat.lt_or_ge q (2 ^ 23) with hq | hq
  · have hk : k = 0 := by by_contra hc; have := h' (by omega); omega
    subst hk
    rw [if_pos (by omega)]
    simp only [Nat.zero_mul, Nat.add_zero, Nat.pow_zero, Nat.mul_one]
    exact Nat.mod_eq_of_lt hq
  · rcases Nat.eq_or_lt_of_le h with rfl | hlt
    · rw [if_neg (by omega), show (2 ^ 24 + k * 2 ^ 23) % 2 ^ 23 = 0 by omega,
        show (2 ^ 24 + k * 2 ^ 23) / 2 ^ 23 - 1 = k + 1 by omega, Nat.pow_succ 2 k]
      ring
    · rw [if_neg (by omega), show (q + k * 2 ^ 23) % 2 ^ 23 = q - 2 ^ 23 by omega,
        show (q + k * 2 ^ 23) / 2 ^ 23 - 1 = k by omega, show 2 ^ 23 + (q - 2 ^ 23) = q by omega]

/-- A magnitude with 24 significant bits above 2^k is a multiple of 2^k. -/
theorem pow_dvd_magValue {c k : Nat} (h : 2 ^ (23 + k) ≤ magValue c) : 2 ^ k ∣ magValue c := by
  have hm := Nat.mod_lt c (show 0 < 2 ^ 23 by norm_num)
  unfold magValue at h ⊢
  split at h
  · have hk : k = 0 := by
      by_contra hc
      have : 2 ^ 23 ≤ 2 ^ (23 + k) := Nat.pow_le_pow_right (by norm_num) (by omega)
      omega
    simp [hk]
  · rename_i hne
    rw [if_neg hne]
    apply Dvd.dvd.mul_left
    apply pow_dvd_pow
    by_contra hc
    have h1 : (2 ^ 23 + c % 2 ^ 23) * 2 ^ (c / 2 ^ 23 - 1) < 2 ^ 24 * 2 ^ (c / 2 ^ 23 - 1) :=
      Nat.mul_lt_mul_of_pos_right (by omega) (by positivity)
    rw [← Nat.pow_add] at h1
    have h2 : 2 ^ (24 + (c / 2 ^ 23 - 1)) ≤ 2 ^ (23 + k) :=
      Nat.pow_le_pow_right (by norm_num) (by omega)
    omega

/-- roundMag is finite exactly below half a unit above the largest finite f32. -/
theorem roundMag_lt_inf_iff (n : Nat) {d : Nat} (hd : 0 < d) :
    roundMag n d < 0x7F800000 ↔ n < (2 ^ 25 - 1) * 2 ^ 252 * d := by
  constructor
  · intro h
    by_contra hc
    have h1 : roundMag ((2 ^ 25 - 1) * 2 ^ 252) 1 ≤ roundMag n d :=
      roundMag_mono Nat.one_pos hd (by omega)
    have h2 : roundMag ((2 ^ 25 - 1) * 2 ^ 252) 1 = 0x7F800000 := by decide +kernel
    omega
  · intro h
    obtain ⟨u, -⟩ := rounded_bounds (n := n) hd
    have hk : Nat.log2 (n / d) - 23 ≤ 253 := by
      have h1 : n / d < 2 ^ 277 := by
        rw [Nat.div_lt_iff_lt_mul hd]
        exact h.trans_le (Nat.mul_le_mul_right _ (by decide +kernel))
      rcases Nat.eq_zero_or_pos (n / d) with h0 | h0
      · rw [h0]; simp
      · have := (Nat.log2_lt (by omega)).2 h1
        omega
    unfold roundMag
    simp only [infBits_eq]
    apply lt_of_le_of_lt (Nat.min_le_left _ _)
    rcases Nat.lt_or_eq_of_le hk with hlt | he
    · omega
    · rw [he]
      obtain ⟨-, b, -⟩ := rneDiv_spec n (d := d * 2 ^ 253) (Nat.mul_pos hd (by positivity))
      have : rneDiv n (d * 2 ^ 253) < 2 ^ 24 := by
        by_contra hc
        have h1 : 2 ^ 24 * (d * 2 ^ 253) ≤ rneDiv n (d * 2 ^ 253) * (d * 2 ^ 253) :=
          Nat.mul_le_mul_right _ (by omega)
        norm_num at h h1 b
        omega
      omega

/-- What roundMag gives where it is finite: no finite magnitude is nearer, and one that is as near is met
with an even pattern. -/
theorem roundMag_nearest {n d c : Nat} (hd : 0 < d) (h : roundMag n d < 0x7F800000) :
    |(magValue (roundMag n d) * d : Int) - n| ≤ |(magValue c * d : Int) - n| ∧
      (magValue c ≠ magValue (roundMag n d) →
        |(magValue (roundMag n d) * d : Int) - n| = |(magValue c * d : Int) - n| →
        roundMag n d % 2 = 0) := by
  obtain ⟨u, l⟩ := rounded_bounds (n := n) hd
  unfold roundMag at h ⊢
  simp only [infBits_eq] at h ⊢
  have hlog : ∀ k, k = Nat.log2 (n / d) - 23 → 0 < k → 2 ^ (23 + k) * d ≤ n := by
    intro k hk hpos
    have hne : n / d ≠ 0 := by
      intro h0
      rw [h0] at hk
      simp at hk
      omega
    have h1 := Nat.log2_self_le hne
    rw [show Nat.log2 (n / d) = 23 + k by omega] at h1
    exact (Nat.le_div_iff_mul_le hd).1 h1
  generalize hk : Nat.log2 (n / d) - 23 = k at *
  have hlow := hlog k rfl
  have hD : 0 < d * 2 ^ k := Nat.mul_pos hd (by positivity)
  rw [min_eq_left (by omega)]
  rw [magValue_pack u l]
  have hpar : (rneDiv n (d * 2 ^ k) + k * 2 ^ 23) % 2 = rneDiv n (d * 2 ^ k) % 2 := by omega
  rw [hpar]
  have hq : ((rneDiv n (d * 2 ^ k) * 2 ^ k : Nat) * d : Int) =
      (rneDiv n (d * 2 ^ k) : Int) * (d * 2 ^ k : Nat) := by push_cast; ring
  rw [hq]
  by_cases hc : k = 0 ∨ 2 ^ (23 + k) ≤ magValue c
  · have hdvd : 2 ^ k ∣ magValue c := by
      rcases hc with rfl | hc
      · simp
      · exact pow_dvd_magValue hc
    obtain ⟨j, hj⟩ := hdvd
    obtain ⟨h1, h2⟩ := rneDiv_nearest n j hD
    have hcj : ((magValue c : Nat) * d : Int) = (j : Int) * (d * 2 ^ k : Nat) := by
      rw [hj]; push_cast; ring
    rw [hcj]
    exact ⟨h1, fun hne he => h2 (by rintro rfl; exact hne (by rw [hj]; ring)) he⟩
  · push Not at hc
    obtain ⟨hk0, hlt⟩ := hc
    obtain ⟨h1, -⟩ := rneDiv_nearest n (2 ^ 23) hD
    have h3 : 2 ^ (23 + k) * d ≤ n := hlow (by omega)
    have h4 : (((2 ^ 23 : Nat) : Int) * (d * 2 ^ k : Nat)) = ((2 ^ (23 + k) * d : Nat) : Int) := by
      push_cast; rw [pow_add]; ring
    rw [h4, abs_of_nonpos (by omega : ((2 ^ (23 + k) * d : Nat) : Int) - n ≤ 0)] at h1
    have h5 : magValue c * d < 2 ^ (23 + k) * d := Nat.mul_lt_mul_of_pos_right hlt hd
    rw [abs_of_nonpos (a := (magValue c * d : Int) - n) (by
      have : ((magValue c * d : Nat) : Int) ≤ n := by omega
      push_cast at this; omega)]
    have h6 : ((magValue c * d : Nat) : Int) < ((2 ^ (23 + k) * d : Nat) : Int) := by exact_mod_cast h5
    rw [Nat.cast_mul (magValue c) d] at h6
    exact ⟨by omega, fun _ he => by omega⟩

end Sys2Proof.Laws.F32
end

