-- ==== Sys2Proof/Laws/State.lean ====
section
/-! SUPPORT. One lemma per field per update of the state, each true by `rfl`, so that no proof unfolds a
record update. -/

namespace Sys2Proof.Laws.State

open Sys2Proof.Machine

section

variable (s : State)

/-! ## respond -/

@[simp] theorem respond_params (op : BitVec 8) (data : BitVec 32) :
    (s.respond op data).params = s.params := rfl

@[simp] theorem respond_phase (op : BitVec 8) (data : BitVec 32) :
    (s.respond op data).phase = s.phase := rfl

@[simp] theorem respond_lastErr (op : BitVec 8) (data : BitVec 32) :
    (s.respond op data).lastErr = s.lastErr := rfl

@[simp] theorem respond_shadow (op : BitVec 8) (data : BitVec 32) :
    (s.respond op data).shadow = s.shadow := rfl

@[simp] theorem respond_seq (op : BitVec 8) (data : BitVec 32) :
    (s.respond op data).seq = s.seq := rfl

@[simp] theorem respond_note (op : BitVec 8) (data : BitVec 32) :
    (s.respond op data).note = s.note := rfl

@[simp] theorem respond_mb (op : BitVec 8) (data : BitVec 32) :
    (s.respond op data).mb = s.mb := rfl

@[simp] theorem respond_audio (op : BitVec 8) (data : BitVec 32) :
    (s.respond op data).audio = s.audio := rfl

@[simp] theorem respond_inbox (op : BitVec 8) (data : BitVec 32) :
    (s.respond op data).inbox = s.inbox := rfl

@[simp] theorem respond_audioIn (op : BitVec 8) (data : BitVec 32) :
    (s.respond op data).audioIn = s.audioIn := rfl

@[simp] theorem respond_responses (op : BitVec 8) (data : BitVec 32) :
    (s.respond op data).responses = responseWord op .ok data :: s.responses := rfl

@[simp] theorem respond_outBlocks (op : BitVec 8) (data : BitVec 32) :
    (s.respond op data).outBlocks = s.outBlocks := rfl

/-! ## raise -/

@[simp] theorem raise_params (op : BitVec 8) (c : Code) :
    (s.raise op c).params = s.params := rfl

@[simp] theorem raise_phase (op : BitVec 8) (c : Code) :
    (s.raise op c).phase = s.phase := rfl

@[simp] theorem raise_lastErr (op : BitVec 8) (c : Code) :
    (s.raise op c).lastErr = c := rfl

@[simp] theorem raise_shadow (op : BitVec 8) (c : Code) :
    (s.raise op c).shadow = s.shadow := rfl

@[simp] theorem raise_seq (op : BitVec 8) (c : Code) :
    (s.raise op c).seq = s.seq := rfl

@[simp] theorem raise_note (op : BitVec 8) (c : Code) :
    (s.raise op c).note = s.note := rfl

@[simp] theorem raise_mb (op : BitVec 8) (c : Code) :
    (s.raise op c).mb = s.mb := rfl

@[simp] theorem raise_audio (op : BitVec 8) (c : Code) :
    (s.raise op c).audio = s.audio := rfl

@[simp] theorem raise_inbox (op : BitVec 8) (c : Code) :
    (s.raise op c).inbox = s.inbox := rfl

@[simp] theorem raise_audioIn (op : BitVec 8) (c : Code) :
    (s.raise op c).audioIn = s.audioIn := rfl

@[simp] theorem raise_responses (op : BitVec 8) (c : Code) :
    (s.raise op c).responses = responseWord op c 0#32 :: s.responses := rfl

@[simp] theorem raise_outBlocks (op : BitVec 8) (c : Code) :
    (s.raise op c).outBlocks = s.outBlocks := rfl

/-! ## applyReset -/

@[simp] theorem applyReset_params :
    (s.applyReset).params = s.params := rfl

@[simp] theorem applyReset_phase :
    (s.applyReset).phase = .config := rfl

@[simp] theorem applyReset_lastErr :
    (s.applyReset).lastErr = .ok := rfl

@[simp] theorem applyReset_shadow :
    (s.applyReset).shadow = Shadow.unset := rfl

@[simp] theorem applyReset_seq :
    (s.applyReset).seq = SeqState.reset := rfl

@[simp] theorem applyReset_note :
    (s.applyReset).note = [] := rfl

@[simp] theorem applyReset_mb :
    (s.applyReset).mb = Mailbox.reset := rfl

@[simp] theorem applyReset_audio :
    (s.applyReset).audio = AudioState.resetKeeping s.audio.dly := rfl

@[simp] theorem applyReset_inbox :
    (s.applyReset).inbox = s.inbox := rfl

@[simp] theorem applyReset_audioIn :
    (s.applyReset).audioIn = s.audioIn := rfl

@[simp] theorem applyReset_responses :
    (s.applyReset).responses = s.responses := rfl

@[simp] theorem applyReset_outBlocks :
    (s.applyReset).outBlocks = s.outBlocks := rfl

/-! ## withFetchWord -/

@[simp] theorem withFetchWord_params (nbits w : Nat) :
    (s.withFetchWord nbits w).params = s.params := rfl

@[simp] theorem withFetchWord_phase (nbits w : Nat) :
    (s.withFetchWord nbits w).phase = s.phase := rfl

@[simp] theorem withFetchWord_lastErr (nbits w : Nat) :
    (s.withFetchWord nbits w).lastErr = s.lastErr := rfl

@[simp] theorem withFetchWord_shadow (nbits w : Nat) :
    (s.withFetchWord nbits w).shadow = s.shadow := rfl

@[simp] theorem withFetchWord_seq (nbits w : Nat) :
    (s.withFetchWord nbits w).seq = s.seq := rfl

@[simp] theorem withFetchWord_note (nbits w : Nat) :
    (s.withFetchWord nbits w).note = s.note := rfl

@[simp] theorem withFetchWord_mb (nbits w : Nat) :
    (s.withFetchWord nbits w).mb = s.mb := rfl

@[simp] theorem withFetchWord_audio (nbits w : Nat) :
    (s.withFetchWord nbits w).audio = s.audio := rfl

@[simp] theorem withFetchWord_inbox (nbits w : Nat) :
    (s.withFetchWord nbits w).inbox = s.requestOfWord nbits w :: s.inbox := rfl

@[simp] theorem withFetchWord_audioIn (nbits w : Nat) :
    (s.withFetchWord nbits w).audioIn = s.audioIn := rfl

@[simp] theorem withFetchWord_responses (nbits w : Nat) :
    (s.withFetchWord nbits w).responses = s.responses := rfl

@[simp] theorem withFetchWord_outBlocks (nbits w : Nat) :
    (s.withFetchWord nbits w).outBlocks = s.outBlocks := rfl

end

/-! ## Shadow.setF32 -/

section

variable (h : Shadow) (v : F32)

@[simp] theorem setF32_fs (p : F32Param) : (h.setF32 p v).fs = h.fs := by cases p <;> rfl

@[simp] theorem setF32_block (p : F32Param) : (h.setF32 p v).block = h.block := by cases p <;> rfl

@[simp] theorem setF32_engineMode (p : F32Param) : (h.setF32 p v).engineMode = h.engineMode := by cases p <;> rfl

@[simp] theorem setF32_waveform (p : F32Param) : (h.setF32 p v).waveform = h.waveform := by cases p <;> rfl

@[simp] theorem setF32_fmode (p : F32Param) : (h.setF32 p v).fmode = h.fmode := by cases p <;> rfl

@[simp] theorem setF32_delay (p : F32Param) : (h.setF32 p v).delay = h.delay := by cases p <;> rfl

@[simp] theorem setF32_amp (p : F32Param) :
    (h.setF32 p v).amp = if p = .amp then some v else h.amp := by cases p <;> rfl

@[simp] theorem setF32_attack (p : F32Param) :
    (h.setF32 p v).attack = if p = .attack then some v else h.attack := by cases p <;> rfl

@[simp] theorem setF32_decay (p : F32Param) :
    (h.setF32 p v).decay = if p = .decay then some v else h.decay := by cases p <;> rfl

@[simp] theorem setF32_sustain (p : F32Param) :
    (h.setF32 p v).sustain = if p = .sustain then some v else h.sustain := by cases p <;> rfl

@[simp] theorem setF32_release (p : F32Param) :
    (h.setF32 p v).release = if p = .release then some v else h.release := by cases p <;> rfl

@[simp] theorem setF32_cutoff (p : F32Param) :
    (h.setF32 p v).cutoff = if p = .cutoff then some v else h.cutoff := by cases p <;> rfl

@[simp] theorem setF32_res (p : F32Param) :
    (h.setF32 p v).res = if p = .res then some v else h.res := by cases p <;> rfl

@[simp] theorem setF32_feedback (p : F32Param) :
    (h.setF32 p v).feedback = if p = .feedback then some v else h.feedback := by cases p <;> rfl

end

/-! ## The audio domain's updates -/

section

variable (a : AudioState)

@[simp] theorem dlyAdvance_fsAct (cap d : Nat) (g x : F32) :
    (dlyAdvance cap d g x a).fsAct = a.fsAct := rfl

@[simp] theorem dlyAdvance_blkAct (cap d : Nat) (g x : F32) :
    (dlyAdvance cap d g x a).blkAct = a.blkAct := rfl

@[simp] theorem dlyAdvance_oscP (cap d : Nat) (g x : F32) :
    (dlyAdvance cap d g x a).oscP = a.oscP := rfl

@[simp] theorem dlyAdvance_env (cap d : Nat) (g x : F32) :
    (dlyAdvance cap d g x a).env = a.env := rfl

@[simp] theorem dlyAdvance_flt (cap d : Nat) (g x : F32) :
    (dlyAdvance cap d g x a).flt = a.flt := rfl

@[simp] theorem dlyAdvance_dly (cap d : Nat) (g x : F32) :
    (dlyAdvance cap d g x a).dly = a.dly.write a.dlyW.toNat (F32.add x (F32.mul g (delayed cap d a))) := rfl

@[simp] theorem dlyAdvance_dlyW (cap d : Nat) (g x : F32) :
    (dlyAdvance cap d g x a).dlyW = nextWrite cap a.dlyW := rfl

@[simp] theorem dlyAdvance_lastTrig (cap d : Nat) (g x : F32) :
    (dlyAdvance cap d g x a).lastTrig = a.lastTrig := rfl

@[simp] theorem voiceStep_fsAct (v : VoiceLatch) (trig : Bool) :
    ((voiceStep v trig a).audio).fsAct = a.fsAct := rfl

@[simp] theorem voiceStep_blkAct (v : VoiceLatch) (trig : Bool) :
    ((voiceStep v trig a).audio).blkAct = a.blkAct := rfl

@[simp] theorem voiceStep_oscP (v : VoiceLatch) (trig : Bool) :
    ((voiceStep v trig a).audio).oscP = phaseAdvance v.inc a.oscP := rfl

@[simp] theorem voiceStep_env (v : VoiceLatch) (trig : Bool) :
    ((voiceStep v trig a).audio).env = envStep v.env v.gate trig a.env := rfl

@[simp] theorem voiceStep_flt (v : VoiceLatch) (trig : Bool) :
    ((voiceStep v trig a).audio).flt = fltStep v.f v.q (F32.mul (oscSample v.waveform v.amp (phaseAdvance v.inc a.oscP))
        (envStep v.env v.gate trig a.env).level) a.flt := rfl

@[simp] theorem voiceStep_dly (v : VoiceLatch) (trig : Bool) :
    ((voiceStep v trig a).audio).dly = a.dly := rfl

@[simp] theorem voiceStep_dlyW (v : VoiceLatch) (trig : Bool) :
    ((voiceStep v trig a).audio).dlyW = a.dlyW := rfl

@[simp] theorem voiceStep_lastTrig (v : VoiceLatch) (trig : Bool) :
    ((voiceStep v trig a).audio).lastTrig = a.lastTrig := rfl

end

/-- Hardware reset and SOFT_RESET leave a machine that has nothing listed as `State.resetWith` has it
(70_reset_and_hazards.md R530). -/
theorem applyReset_resetWith (p : Params) : (State.resetWith p).applyReset = State.resetWith p := rfl

@[simp] theorem requestOfWord_inbox (s : State) (l : List Request) (nbits w : Nat) :
    State.requestOfWord { s with inbox := l } nbits w = s.requestOfWord nbits w := rfl

end Sys2Proof.Laws.State
end

