-- ==== Sys2Proof/Laws/Ops.lean ====
section
/-! SUPPORT. For each shared operation one lemma that says once everything it can do. -/

namespace Sys2Proof.Laws.Ops

open Sys2Proof.Machine

/-! ## The end of a command -/

@[simp] theorem complete_ok (op : BitVec 8) (s t : State) :
    s.complete op (.ok t) = .next (t.respond op 0#32) := rfl

@[simp] theorem complete_error (op : BitVec 8) (s : State) (c : Code) :
    s.complete op (.error c) = .next (s.raise op c) := rfl

@[simp] theorem completeData_ok (op : BitVec 8) (s : State) (v : BitVec 32) :
    s.completeData op (.ok v) = .next (s.respond op v) := rfl

@[simp] theorem completeData_error (op : BitVec 8) (s : State) (c : Code) :
    s.completeData op (.error c) = .next (s.raise op c) := rfl

/-- A command either completes with its effect and responds OK, or fails with none of it. -/
theorem complete_next {op : BitVec 8} {s t : State} {r : Except Code State}
    (h : s.complete op r = .next t) :
    (∃ u, r = .ok u ∧ t = u.respond op 0#32) ∨ (∃ c, r = .error c ∧ t = s.raise op c) := by
  cases r with
  | ok u => exact .inl ⟨u, rfl, (Host.Outcome.next.inj h).symm⟩
  | error c => exact .inr ⟨c, rfl, (Host.Outcome.next.inj h).symm⟩

/-- REG_READ either responds with its data or fails; either way nothing else changes. -/
theorem completeData_next {op : BitVec 8} {s t : State} {r : Except Code (BitVec 32)}
    (h : s.completeData op r = .next t) :
    (∃ v, r = .ok v ∧ t = s.respond op v) ∨ (∃ c, r = .error c ∧ t = s.raise op c) := by
  cases r with
  | ok v => exact .inl ⟨v, rfl, (Host.Outcome.next.inj h).symm⟩
  | error c => exact .inr ⟨c, rfl, (Host.Outcome.next.inj h).symm⟩

/-! ## Operand regimes -/

theorem outside_false {x lo hi : F32} (h : outside x lo hi = false) :
    F32.isNaN x = false ∧ F32.lt x lo = false ∧ F32.gt x hi = false := by
  simpa [outside, and_assoc] using h

/-- A value that store_f32 stores: in CONFIG the operand, inside its legal set; in RUNNING the operand
clamped (40_command_port.md R186). -/
theorem storeF32_ok {p : F32Param} {x lo hi nanv : F32} {s t : State}
    (h : s.storeF32 p x lo hi nanv = .ok t) :
    ∃ v, t = { s with shadow := s.shadow.setF32 p (F32.plusZero v) } ∧
      ((s.phase = .config ∧ outside x lo hi = false ∧ v = x) ∨
        (s.phase = .running ∧ v = F32.clamp x lo hi nanv)) := by
  unfold State.storeF32 at h
  split at h
  · rename_i hp
    split at h
    · cases h
    · rename_i ho
      exact ⟨x, (Except.ok.inj h).symm, .inl ⟨hp, by simpa using ho, rfl⟩⟩
  · rename_i hp
    exact ⟨_, (Except.ok.inj h).symm, .inr ⟨hp, rfl⟩⟩

/-- store_f32 fails only in CONFIG, on an operand outside its legal set, with CONFIG_RANGE. -/
theorem storeF32_error {p : F32Param} {x lo hi nanv : F32} {s : State} {c : Code}
    (h : s.storeF32 p x lo hi nanv = .error c) :
    c = .configRange ∧ s.phase = .config ∧ outside x lo hi = true := by
  unfold State.storeF32 at h
  split at h
  · rename_i hp
    split at h
    · rename_i ho
      exact ⟨(Except.error.inj h).symm, hp, ho⟩
    · cases h
  · cases h

/-- An integer operand that is accepted lies in its legal set; in CONFIG it is the operand itself
(40_command_port.md R184). -/
theorem rangedNat_ok {n lo hi v : Nat} {s : State} (hle : lo ≤ hi) (h : s.rangedNat n lo hi = .ok v) :
    lo ≤ v ∧ v ≤ hi ∧ (s.phase = .config → v = n) ∧ (s.phase = .running → v = min (max n lo) hi) := by
  unfold State.rangedNat at h
  split at h
  · rename_i hp
    split at h
    · cases h
    · rename_i ho
      have := Except.ok.inj h
      exact ⟨by omega, by omega, fun _ => this.symm, fun hr => by simp [hp] at hr⟩
  · rename_i hp
    have hv := Except.ok.inj h
    unfold clampNat at hv
    exact ⟨by omega, by omega, fun hc => by simp [hp] at hc, fun _ => hv.symm⟩

theorem rangedNat_error {n lo hi : Nat} {s : State} {c : Code} (h : s.rangedNat n lo hi = .error c) :
    c = .configRange ∧ s.phase = .config ∧ (n < lo ∨ hi < n) := by
  unfold State.rangedNat at h
  split at h
  · rename_i hp
    split at h
    · rename_i ho
      exact ⟨(Except.error.inj h).symm, hp, ho⟩
    · cases h
  · cases h

/-! ## The next request -/

/-- What a command transfer that is run or finished with can be. -/
theorem fetchCommand_run {bytes : List Byte} {ov ren : Bool} {s t : State} {i : Instr}
    (h : fetchCommand bytes ov ren s = .run i t) :
    ov = false ∧ decode .command bytes = .ok i ∧ (i = .softReset → ren = false) ∧ t = s := by
  unfold fetchCommand at h
  split at h
  · cases h
  · rename_i hov
    split at h <;> try cases h
    rename_i hd
    split at h <;> cases h
    rename_i hr
    exact ⟨by simpa using hov, hd, fun hi => by simpa [hi] using hr, rfl⟩

theorem fetchCommand_done {bytes : List Byte} {ov ren : Bool} {s t : State}
    (h : fetchCommand bytes ov ren s = .done t) :
    ov = false ∧ ∃ w, decode .command bytes = .error (.illegal w) ∧ t = s.raise (opOf w) .illegal := by
  unfold fetchCommand at h
  split at h
  · cases h
  · rename_i hov
    split at h
    · split at h <;> cases h
    · rename_i w hd
      cases h
      exact ⟨by simpa using hov, w, hd, rfl⟩
    · cases h
    · cases h

theorem fetchCommand_ne_idle (bytes : List Byte) (ov ren : Bool) (s : State) :
    fetchCommand bytes ov ren s ≠ .idle := by
  unfold fetchCommand
  split
  · simp
  · split
    · split <;> simp
    all_goals simp

/-- An instruction that a step runs was decoded from the head of the inbox, which it has taken. -/
theorem fetch_run {s t : State} {i : Instr} (h : s.fetch = .run i t) :
    (∃ bytes ren rest, s.inbox = .command bytes false ren :: rest ∧ decode .command bytes = .ok i ∧
        (i = .softReset → ren = false) ∧ t = { s with inbox := rest }) ∨
      (∃ bytes input rest, s.inbox = .audio bytes input false :: rest ∧
        decode .audio bytes = .ok i ∧ t = { s with inbox := rest, audioIn := input }) := by
  unfold State.fetch at h
  split at h
  · cases h
  · rename_i bytes ov ren rest hin
    obtain ⟨rfl, hd, hr, rfl⟩ := fetchCommand_run h
    exact .inl ⟨bytes, ren, rest, hin, hd, hr, rfl⟩
  · rename_i bytes input ov rest hin
    unfold fetchAudio at h
    split at h
    · cases h
    · rename_i hov
      simp only [Bool.not_eq_true] at hov
      subst hov
      split at h <;> cases h
      rename_i hd
      exact .inr ⟨bytes, input, rest, hin, hd, rfl⟩
  · cases h

/-- A request that is finished with at once is a hardware reset or an ILLEGAL command word. -/
theorem fetch_done {s t : State} (h : s.fetch = .done t) :
    (∃ rest, s.inbox = .reset :: rest ∧ t = { s.applyReset with inbox := rest }) ∨
      (∃ bytes ren rest w, s.inbox = .command bytes false ren :: rest ∧
        decode .command bytes = .error (.illegal w) ∧
        t = State.raise (opOf w) .illegal { s with inbox := rest }) := by
  unfold State.fetch at h
  split at h
  · cases h
  · rename_i bytes ov ren rest hin
    obtain ⟨rfl, w, hd, rfl⟩ := fetchCommand_done h
    exact .inr ⟨bytes, ren, rest, w, hin, hd, rfl⟩
  · unfold fetchAudio at h
    split at h
    · cases h
    · split at h <;> cases h
  · rename_i rest hin
    cases h
    exact .inl ⟨rest, hin, rfl⟩

/-- Everything a step that gives a next state can be. -/
theorem step_next {s t : State} (h : step s = .next t) :
    (s.inbox = [] ∧ t = s) ∨ (∃ i u, s.fetch = .run i u ∧ exec i u = .next t) ∨ s.fetch = .done t := by
  unfold step at h
  split at h
  · rename_i hf
    refine .inl ⟨?_, (Host.Outcome.next.inj h).symm⟩
    unfold State.fetch at hf
    split at hf
    · assumption
    · exact absurd hf (fetchCommand_ne_idle _ _ _ _)
    · unfold fetchAudio at hf
      split at hf
      · cases hf
      · split at hf <;> cases hf
    · cases hf
  · rename_i i u hf
    exact .inr (.inl ⟨i, u, hf, h⟩)
  · rename_i u hf
    exact .inr (.inr ((Host.Outcome.next.inj h) ▸ hf))
  · cases h

/-! ## RENDER -/

/-- A RENDER that gives a next state is silence in CONFIG, and one block of the right shape in RUNNING. -/
theorem execRender_next {s t : State} (h : execRender s = .next t) :
    (s.phase = .config ∧ t = { s with outBlocks := silence s.audioIn :: s.outBlocks }) ∨
      (s.phase = .running ∧ hasShape s.params.numCh s.audio.blkAct.toNat s.audioIn = true ∧
        t = { s with
              audio := s.renderBlock.audio
              outBlocks := List.replicate s.params.numCh s.renderBlock.out :: s.outBlocks }) := by
  unfold execRender at h
  split at h
  · rename_i hp
    exact .inl ⟨hp, (Host.Outcome.next.inj h).symm⟩
  · rename_i hp
    split at h
    · rename_i hs
      exact .inr ⟨hp, hs, (Host.Outcome.next.inj h).symm⟩
    · cases h

@[simp] theorem renderSamples_nil (cap : Nat) (l : Latch) (trig : Bool) (a : AudioState) :
    renderSamples cap l trig [] a = { out := [], audio := a } := rfl

@[simp] theorem renderSamples_cons (cap : Nat) (l : Latch) (trig : Bool) (x : F32) (xs : List F32)
    (a : AudioState) :
    renderSamples cap l trig (x :: xs) a =
      { out := F32.sat (sample cap l trig x a).out
          :: (renderSamples cap l false xs (sample cap l trig x a).audio).out
        audio := (renderSamples cap l false xs (sample cap l trig x a).audio).audio } := rfl

/-- What every sample keeps of the audio domain, a block keeps. -/
theorem renderSamples_keeps {P : AudioState → Prop} {cap : Nat} {l : Latch}
    (hstep : ∀ trig x a, P a → P (sample cap l trig x a).audio) (trig : Bool) (xs : List F32)
    (a : AudioState) (h : P a) : P (renderSamples cap l trig xs a).audio := by
  induction xs generalizing trig a with
  | nil => exact h
  | cons x xs ih => exact ih false _ (hstep trig x a h)

/-- A block has one output sample for each input sample. -/
theorem renderSamples_length (cap : Nat) (l : Latch) (trig : Bool) (xs : List F32) (a : AudioState) :
    (renderSamples cap l trig xs a).out.length = xs.length := by
  induction xs generalizing trig a with
  | nil => rfl
  | cons x xs ih => simp [ih]

end Sys2Proof.Laws.Ops
end

