-- ==== Sys2Proof/Laws/PerInstr.lean ====
section
/-! SUPPORT. The per-instruction family OpcodeField: the word of every instruction carries its opcode in
bits 63:56 and zeros in bits 55:48 (30_encoding.md R140, R146, R147). -/

namespace Sys2Proof.Laws.OpcodeField

open Sys2Proof.Laws.Encoding

/-- The OP field is the instruction's opcode and RSV is zero. -/
def Statement (i : Instr) : Prop := opOf (encode i) = i.opcode ∧ rsvOf (encode i) = 0#8

theorem nop : Statement .nop := ⟨opOf_formatC .., rsvOf_formatC ..⟩

theorem regRead (reg : BitVec 16) : Statement (.regRead reg) := ⟨opOf_formatC .., rsvOf_formatC ..⟩

theorem errClear : Statement .errClear := ⟨opOf_formatC .., rsvOf_formatC ..⟩

theorem softReset : Statement .softReset := ⟨opOf_formatC .., rsvOf_formatC ..⟩

theorem cfgSampleRate (hz : F32) : Statement (.cfgSampleRate hz) := ⟨opOf_formatC .., rsvOf_formatC ..⟩

theorem cfgBlockSize (size : BitVec 16) : Statement (.cfgBlockSize size) := ⟨opOf_formatC .., rsvOf_formatC ..⟩

theorem engSetMode (mode : BitVec 16) : Statement (.engSetMode mode) := ⟨opOf_formatC .., rsvOf_formatC ..⟩

theorem start : Statement .start := ⟨opOf_formatC .., rsvOf_formatC ..⟩

theorem oscSetFreq (hz : F32) : Statement (.oscSetFreq hz) := ⟨opOf_formatC .., rsvOf_formatC ..⟩

theorem oscSetWaveform (wf : BitVec 16) : Statement (.oscSetWaveform wf) := ⟨opOf_formatC .., rsvOf_formatC ..⟩

theorem oscSetAmp (v : F32) : Statement (.oscSetAmp v) := ⟨opOf_formatC .., rsvOf_formatC ..⟩

theorem envSetAttack (v : F32) : Statement (.envSetAttack v) := ⟨opOf_formatC .., rsvOf_formatC ..⟩

theorem envSetDecay (v : F32) : Statement (.envSetDecay v) := ⟨opOf_formatC .., rsvOf_formatC ..⟩

theorem envSetSustain (v : F32) : Statement (.envSetSustain v) := ⟨opOf_formatC .., rsvOf_formatC ..⟩

theorem envSetRelease (v : F32) : Statement (.envSetRelease v) := ⟨opOf_formatC .., rsvOf_formatC ..⟩

theorem fltSetCutoff (v : F32) : Statement (.fltSetCutoff v) := ⟨opOf_formatC .., rsvOf_formatC ..⟩

theorem fltSetRes (v : F32) : Statement (.fltSetRes v) := ⟨opOf_formatC .., rsvOf_formatC ..⟩

theorem fltSetMode (mode : BitVec 16) : Statement (.fltSetMode mode) := ⟨opOf_formatC .., rsvOf_formatC ..⟩

theorem dlySetDelay (samples : BitVec 32) : Statement (.dlySetDelay samples) := ⟨opOf_formatC .., rsvOf_formatC ..⟩

theorem dlySetFeedback (v : F32) : Statement (.dlySetFeedback v) := ⟨opOf_formatC .., rsvOf_formatC ..⟩

theorem seqSetLength (length : BitVec 16) : Statement (.seqSetLength length) := ⟨opOf_formatC .., rsvOf_formatC ..⟩

theorem seqSetNote (index : BitVec 16) (note : BitVec 32) : Statement (.seqSetNote index note) := ⟨opOf_formatC .., rsvOf_formatC ..⟩

theorem seqSetStepMs (ms : BitVec 32) : Statement (.seqSetStepMs ms) := ⟨opOf_formatC .., rsvOf_formatC ..⟩

theorem seqStart (now : BitVec 32) : Statement (.seqStart now) := ⟨opOf_formatC .., rsvOf_formatC ..⟩

theorem seqStop : Statement .seqStop := ⟨opOf_formatC .., rsvOf_formatC ..⟩

theorem ctlTick (gate : Bool) (now : BitVec 32) : Statement (.ctlTick gate now) := ⟨opOf_formatC .., rsvOf_formatC ..⟩

theorem render : Statement .render := ⟨rfl, rfl⟩

end Sys2Proof.Laws.OpcodeField
end

