-- ==== Sys2Proof/Tests/Slice0.lean ====
section
/-! SUPPORT. The model's own tests: the checks of WellFormed, the decoding of every constructor's word,
single steps against the vectors of 95_test_vectors.md, and a witness for the hypotheses of every
obligation that has some. Expected values are the spec's, or hand-computed from its rules. -/

namespace Sys2Proof.Tests.Slice0

open Sys2Proof Sys2Proof.Machine

/-! ## WellFormed: a term that each check refuses -/

theorem test_reference_params : Params.reference.wellFormed = true := by decide

theorem test_params_refused :
    ({ Params.reference with dlyCap := 1 } : Params).wellFormed = false ∧
    ({ Params.reference with dlyCap := 2 ^ 32 + 1 } : Params).wellFormed = false ∧
    ({ Params.reference with blockMax := 0 } : Params).wellFormed = false ∧
    ({ Params.reference with blockMax := 65536 } : Params).wellFormed = false ∧
    ({ Params.reference with numCh := 0 } : Params).wellFormed = false ∧
    ({ Params.reference with seqMax := 0 } : Params).wellFormed = false ∧
    ({ Params.reference with seqMax := 17 } : Params).wellFormed = false := by decide

theorem test_partial_word_refused : wholeWord [0#8, 0#8, 0#8, 0#8, 0#8, 0#8, 0#8] = false := by decide

theorem test_block_shape_refused :
    hasShape 2 2 [[0#32, 0#32]] = false ∧ hasShape 2 2 [[0#32, 0#32], [0#32]] = false ∧
    hasShape 2 2 [[0#32, 0#32], [0#32, 0#32]] = true := by decide

/-! ## Decoding: words written out from 30_encoding.md R140, R146, R147 and V-ENC-1 -/

theorem test_decode_port_and_engine :
    [0x0000000000000000, 0x0100001000000000, 0x0200000000000000, 0x0300000000000000,
     0x08000000473B8000, 0x0900000400000000, 0x0A00000200000000, 0x0B00000000000000,
     0x4000000000000000].map (decodeTableWord 64) =
    [some .nop, some (.regRead 0x010#16), some .errClear, some .softReset,
     some (.cfgSampleRate 0x473B8000#32), some (.cfgBlockSize 4#16), some (.engSetMode 2#16),
     some .start, some .render] := by decide

theorem test_decode_oscillator_and_envelope :
    [0x1000000043DC0000, 0x1100000400000000, 0x120000003F000000, 0x1800000038D1B717,
     0x190000007FC00000, 0x1A0000003F333333, 0x1B00000080000000].map (decodeTableWord 64) =
    [some (.oscSetFreq 0x43DC0000#32), some (.oscSetWaveform 4#16), some (.oscSetAmp 0x3F000000#32),
     some (.envSetAttack 0x38D1B717#32), some (.envSetDecay 0x7FC00000#32),
     some (.envSetSustain 0x3F333333#32), some (.envSetRelease 0x80000000#32)] := by decide

theorem test_decode_filter_and_delay :
    [0x2000000046BB7FFF, 0x210000003F7D70A4, 0x2200000200000000, 0x2800000000000003,
     0x290000003F7FFFFF].map (decodeTableWord 64) =
    [some (.fltSetCutoff 0x46BB7FFF#32), some (.fltSetRes 0x3F7D70A4#32), some (.fltSetMode 2#16),
     some (.dlySetDelay 3#32), some (.dlySetFeedback 0x3F7FFFFF#32)] := by decide

theorem test_decode_sequencer :
    [0x3000000800000000, 0x3100000700000048, 0x32000000000001F4, 0x33000000FFFFFF00,
     0x3400000000000000, 0x3500000100000FA0, 0x3500000000000002].map (decodeTableWord 64) =
    [some (.seqSetLength 8#16), some (.seqSetNote 7#16 72#32), some (.seqSetStepMs 500#32),
     some (.seqStart 0xFFFFFF00#32), some .seqStop, some (.ctlTick true 4000#32),
     some (.ctlTick false 2#32)] := by decide

/-- V-ENC-1's ILLEGAL words: RSV, a reserved bit of IMM16, an unused field, an unlisted OP; and RENDER on
the command port. -/
theorem test_decode_illegal :
    [0x0001000000000000#64, 0x3500000200000000#64, 0x0100000100000001#64, 0x0400000000000000#64,
     0x4000000000000000#64].map decodeCommand = [none, none, none, none, none] := by decide

/-- The first byte of a transfer is bits 7:0 (20_memory.md R100). -/
theorem test_decode_byte_order :
    decode .command [0x00#8, 0x00#8, 0xDC#8, 0x43#8, 0x00#8, 0x00#8, 0x00#8, 0x10#8] =
      .ok (.oscSetFreq 0x43DC0000#32) := by decide

/-- The pseudo-instructions of 30_encoding.md R155, and operand spellings of R153. -/
theorem test_assemble :
    [ "SET_NOTE 60", "GATE_ON 7", "GATE_OFF 7", "READ NOTE3", "ENG_SET_MODE VOICE_DELAY",
      "FLT_SET_CUTOFF #0x46BB7FFF", "ENV_SET_ATTACK 0.0001", "SEQ_START 0xFFFFFF00",
      "SET_NOTE 128", "RENDER" ].map assembleWord =
    [some 0x100000004382D013#64, some 0x3500000100000007#64, some 0x3500000000000007#64,
     some 0x0100008300000000#64, some 0x0A00000200000000#64, some 0x2000000046BB7FFF#64,
     some 0x1800000038D1B717#64, some 0x33000000FFFFFF00#64, none, some 0x4000000000000000#64] := by
  decide +kernel

/-- withFetchWord issues the word as the very next request, on the port that accepts it. -/
theorem test_withFetchWord :
    step (State.reset.withFetchWord 64 0x0B00000000000000) = exec .start State.reset ∧
    step (State.reset.withFetchWord 64 0x4000000000000000) =
      exec .render { State.reset with audioIn := [[], []] } := ⟨rfl, rfl⟩

/-! ## States -/

/-- Every parameter set, to the values of program P1 of 95_test_vectors.md (and P2's delay), in CONFIG. -/
def ready : State :=
  { State.reset with
    shadow :=
      { fs := some 0x473B8000#32, block := some 4#16, engineMode := some .voice, waveform := some .saw
        amp := some 0x3F000000#32, attack := some 0x38D1B717#32, decay := some 0#32
        sustain := some 0x3F000000#32, release := some 0#32, cutoff := some 0x447A0000#32
        res := some 0#32, fmode := some .low, delay := some 3#32, feedback := some 0x3F000000#32 }
    mb := { freq := some 0x43DC0000#32, gate := false, trig := 0#32 } }

/-- `ready`, started, with a block of input. -/
def running : State :=
  { ready with
    phase := .running, audio := startedAudio 0x473B8000#32 4#16 0#32
    audioIn := [[0x3F800000#32, 0#32, 0#32, 0#32], [0#32, 0#32, 0#32, 0#32]] }

/-- `running` in a given mode. -/
def runningIn (m : EngineMode) : State :=
  { running with shadow := { running.shadow with engineMode := some m } }

/-- `running` with a two-step sequence of notes 60 and 62, 500 ms a step, started at 0. -/
def playing : State :=
  { running with
    seq := { run := true, len := some 2#5, stepMs := some 500#32, step := 0#4, lastMs := 0#32 }
    note := [(0, 60#7), (1, 62#7)]
    mb := { freq := some 0x4382D013#32, gate := true, trig := 1#32 } }

/-- The state after an instruction that gives a next state. -/
def after (i : Instr) (s : State) : State :=
  match exec i s with
  | .next t => t
  | .fault _ => s
  | .refused _ => s

/-- CODE and RDATA of the response to an instruction (30_encoding.md R142). -/
def answer (i : Instr) (s : State) : Option (Nat × Nat) :=
  (after i s).responses.head?.map (fun r => (r.toNat / 2 ^ 32 % 256, r.toNat % 2 ^ 32))

/-- Channel 0 of the output block. -/
def output (s : State) : Option (List F32) := (after .render s).outBlocks.head?.bind (·.head?)

/-! ## One step of each instruction -/

theorem test_nop : answer .nop State.reset = some (0, 0) := by decide

/-- V-ERR-1: UNSET, BAD_REG; and ID. -/
theorem test_regRead :
    [0x010#16, 0x005#16, 0x000#16].map (fun n => answer (.regRead n) State.reset) =
      [some (4, 0), some (6, 0), some (0, 0x444D4931)] := by decide

/-- P1 words 15 and 21: STATUS and PARAM_VALID; here the delay's two bits are set as well. -/
theorem test_regRead_status :
    answer (.regRead 0x001#16) { running with lastErr := .configRange } = some (0, 0x201) ∧
    answer (.regRead 0x002#16) running = some (0, 0x7FFF) := by decide

theorem test_errClear : (after .errClear { running with lastErr := .configRange }).lastErr = .ok := by
  decide

theorem test_softReset :
    (after .softReset running).phase = .config ∧ (after .softReset running).paramValidWord = 0#32 := by
  decide

/-- 60_exceptions.md R500, 93_implementation_defined.md U4: refused while a RENDER is in progress, alone
of all commands, and executed otherwise. -/
theorem test_softReset_during_render :
    step { running with inbox := [.command (bytesOfWord 0x0300000000000000#64) false true] } =
      .refused .softResetDuringRender ∧
    step { running with inbox := [.command (bytesOfWord 0x0300000000000000#64) false false] } =
      exec .softReset running ∧
    step { running with inbox := [.command (bytesOfWord 0x0200000000000000#64) false true] } =
      exec .errClear running := ⟨rfl, rfl, rfl⟩

/-- V-ERR-1: below FS_MIN, a NaN; in RUNNING the phase comes first. -/
theorem test_cfgSampleRate :
    answer (.cfgSampleRate 0#32) State.reset = some (2, 0) ∧
    answer (.cfgSampleRate 0x7FC00000#32) State.reset = some (2, 0) ∧
    answer (.cfgSampleRate 0x7FC00000#32) running = some (5, 0) := by decide

theorem test_cfgBlockSize :
    (after (.cfgBlockSize 256#16) State.reset).shadow.block = some 256#16 ∧
    answer (.cfgBlockSize 257#16) State.reset = some (2, 0) := by decide

/-- V-ENG-4: a mode whose parameters are unset is refused in RUNNING. -/
theorem test_engSetMode :
    answer (.engSetMode 1#16) { running with shadow := { running.shadow with delay := none } } =
      some (4, 0) ∧
    answer (.engSetMode 3#16) State.reset = some (3, 0) := by decide

/-- V-ERR-1: unset parameters, and a cutoff that is not below FS / 2. -/
theorem test_start_fails :
    answer .start State.reset = some (4, 0) ∧ answer .start running = some (5, 0) ∧
    answer .start { ready with shadow := { ready.shadow with cutoff := some 0x46BB8000#32 } } =
      some (2, 0) := by decide +kernel

theorem test_start_latches :
    answer .start ready = some (0, 0) ∧ (after .start ready).phase = .running ∧
    (after .start ready).audio.fsAct = 0x473B8000#32 := by decide +kernel

/-- V-ERR-3. -/
theorem test_oscSetFreq :
    [0xC0A00000#32, 0x80000000#32, 0x7FC00000#32, 0x3F000000#32, 0x7F800000#32, 0x48000000#32,
      0x43DC0000#32].map (fun x => (after (.oscSetFreq x) State.reset).mb.freq) =
    [some 0x3F800000#32, some 0x3F800000#32, some 0x3F800000#32, some 0x3F800000#32,
      some 0x47BB8000#32, some 0x47BB8000#32, some 0x43DC0000#32] := by decide

theorem test_oscSetWaveform :
    (after (.oscSetWaveform 3#16) State.reset).shadow.waveform = some .square ∧
    answer (.oscSetWaveform 4#16) State.reset = some (3, 0) := by decide

/-- V-ERR-2. -/
theorem test_oscSetAmp :
    (after (.oscSetAmp 0x40000000#32) running).shadow.amp = some 0x3F800000#32 ∧
    (after (.oscSetAmp 0xBF800000#32) running).shadow.amp = some 0#32 := by decide

/-- V-ERR-2; in CONFIG the same value is refused. -/
theorem test_envSetAttack :
    (after (.envSetAttack 0x42A00000#32) running).shadow.attack = some 0x42700000#32 ∧
    answer (.envSetAttack 0x42A00000#32) State.reset = some (2, 0) := by decide

theorem test_envSetDecay :
    (after (.envSetDecay 0x80000000#32) State.reset).shadow.decay = some 0#32 := by decide

/-- V-ERR-2. -/
theorem test_envSetSustain :
    (after (.envSetSustain 0x7FC00000#32) running).shadow.sustain = some 0#32 := by decide

/-- V-ERR-2. -/
theorem test_envSetRelease :
    (after (.envSetRelease 0xBF800000#32) running).shadow.release = some 0#32 := by decide

/-- V-ERR-2: the running bound follows fs_act. -/
theorem test_fltSetCutoff_running :
    (after (.fltSetCutoff 0x46EA6000#32) running).shadow.cutoff = some 0x46BB7FFF#32 ∧
    (after (.fltSetCutoff 0#32) running).shadow.cutoff = some 0x3F800000#32 := by decide +kernel

theorem test_fltSetCutoff_config :
    (after (.fltSetCutoff 0x47BB7FFF#32) State.reset).shadow.cutoff = some 0x47BB7FFF#32 ∧
    answer (.fltSetCutoff 0x47BB8000#32) State.reset = some (2, 0) := by decide

/-- V-ERR-2. -/
theorem test_fltSetRes :
    (after (.fltSetRes 0x3F800000#32) running).shadow.res = some 0x3F7D70A4#32 := by decide

theorem test_fltSetMode :
    (after (.fltSetMode 2#16) State.reset).shadow.fmode = some .high ∧
    answer (.fltSetMode 3#16) State.reset = some (3, 0) := by decide

/-- V-ERR-1: DLY_CAP is 96000. -/
theorem test_dlySetDelay :
    answer (.dlySetDelay 96000#32) running = some (3, 0) ∧
    (after (.dlySetDelay 95999#32) State.reset).shadow.delay = some 95999#32 := by decide

/-- V-ERR-2. -/
theorem test_dlySetFeedback :
    (after (.dlySetFeedback 0x3F800000#32) running).shadow.feedback = some 0x3F7FFFFF#32 := by decide

/-- V-ERR-1. -/
theorem test_seqSetLength :
    answer (.seqSetLength 4#16) playing = some (5, 0) ∧
    answer (.seqSetLength 0#16) State.reset = some (2, 0) ∧
    (after (.seqSetLength 0#16) running).seq.len = some 1#5 := by decide

/-- V-ERR-1: the index before the note; the note clamped in RUNNING. -/
theorem test_seqSetNote :
    answer (.seqSetNote 16#16 200#32) State.reset = some (3, 0) ∧
    answer (.seqSetNote 0#16 200#32) State.reset = some (2, 0) ∧
    (after (.seqSetNote 0#16 200#32) running).note = [(0, 127#7)] := by decide

/-- V-ERR-2. -/
theorem test_seqSetStepMs : (after (.seqSetStepMs 0#32) running).seq.stepMs = some 1#32 := by decide

/-- 45_sequencer.md R392: step 0, note 0's frequency, a new trigger, the gate kept. -/
theorem test_seqStart :
    (after (.seqStart 100#32) playing).mb =
      { freq := some 0x4382D013#32, gate := true, trig := 2#32 } ∧
    answer (.seqStart 100#32) State.reset = some (4, 0) := by decide

theorem test_seqStop : (after .seqStop playing).seq.run = false := by decide

/-- V-SEQ-3: 2600 ms after the start, exactly one step. -/
theorem test_ctlTick_catchUp :
    (after (.ctlTick true 2600#32) playing).seq =
      { run := true, len := some 2#5, stepMs := some 500#32, step := 1#4, lastMs := 2600#32 } ∧
    (after (.ctlTick true 2600#32) playing).mb =
      { freq := some 0x4392D517#32, gate := true, trig := 2#32 } := by decide

/-- V-SEQ-4: the clock wraps; 499 ms give no step, 500 ms do. -/
theorem test_ctlTick_wrap :
    (after (.ctlTick true 0xF3#32)
      { playing with seq := { playing.seq with lastMs := 0xFFFFFF00#32 } }).seq.step = 0#4 ∧
    (after (.ctlTick true 0xF4#32)
      { playing with seq := { playing.seq with lastMs := 0xFFFFFF00#32 } }).seq.step = 1#4 := by decide

/-- P1's block 0. -/
theorem test_render_voice :
    output { running with mb := { running.mb with gate := true } } =
      some [0x00000000#32, 0xBAE5A83E#32, 0xBBDB036E#32, 0xBC826104#32] := by decide +kernel

/-- P2's block 0. -/
theorem test_render_delay :
    output (runningIn .delay) = some [0x3F800000#32, 0#32, 0#32, 0x3F800000#32] ∧
    (after .render (runningIn .delay)).audio.dly = [(0, 0x3F800000#32), (3, 0x3F000000#32)] := by
  decide +kernel

/-! ## The datapath -/

/-- V-OSC-1. -/
theorem test_phaseInc :
    [(0x43DC0000#32, 0x473B8000#32), (0x447A0000#32, 0x472C4400#32), (0x3F800000#32, 0x483B8000#32),
      (0x46EA6000#32, 0x473B8000#32)].map (fun e => phaseInc e.1 e.2) =
    [39370532, 97391552, 22370, 0x80000000] := by decide +kernel

/-- V-OSC-2, at 0x0258BF24 and at 0xFFFFFFFF. -/
theorem test_shape :
    [Waveform.sine, .saw, .triangle, .square].map (fun w => (shape w 0x0258BF24#32, shape w 0xFFFFFFFF#32)) =
    [(0x3D621469#32, 0xBBC90F88#32), (0xBF7B4E82#32, 0x3F7FFFFE#32), (0xBF769D04#32, 0xBF7FFFFC#32),
      (0x3F800000#32, 0xBF800000#32)] := by decide +kernel

/-- V-ENV-6: a stalled decay moves by one unit in the last place. -/
theorem test_envelope_stalled_decay :
    (envStep (envSlopes 0#32 0x42700000#32 0x3F333333#32 0#32 0x483B8000#32) true false
      { stage := .decay, level := 0x3F800000#32, prevGate := true, relStart := 0#32 }).level =
      0x3F7FFFFF#32 := by decide +kernel

/-- V-ENV-3: a trigger with the gate low, then the release from 0.20833334. -/
theorem test_envelope_release :
    envStep (envSlopes 0x38D1B717#32 0x38D1B717#32 0x3F000000#32 0x38D1B717#32 0x473B8000#32) false
      false { stage := .attack, level := 0x3E555556#32, prevGate := false, relStart := 0#32 } =
      { stage := .release, level := 0x3E28E38E#32, prevGate := false, relStart := 0x3E555556#32 } := by
  decide +kernel

/-- V-FLT-1 and the row n = 2 of V-FLT-3. -/
theorem test_filter :
    cutoffCoeff 0x447A0000#32 0x473B8000#32 = 0x3E060A92#32 ∧
    dampingCoeff 0x3F7D70A4#32 = 0x3C23D700#32 ∧
    fltStep 0x3E060A92#32 0x3F800000#32 0x3F800000#32
      { low := 0x3C8C5E23#32, band := 0x3E060A92#32, high := 0x3F5A1A6A#32 } =
      { low := 0x3D482976#32, band := 0x3E783D67#32, high := 0x3F356E0F#32 } := by decide +kernel

/-- V-DLY-3: with no delay the read index is the write index. -/
theorem test_delay_zero : readIndex 4 0 3#32 = 3 ∧ readIndex 4 3 1#32 = 2 := by decide

/-! ## Witnesses: for each obligation with hypotheses, values that meet them -/

theorem witness_DecodedBytesAreTheEncoding :
    decode .command [0xF4#8, 0x01#8, 0#8, 0#8, 1#8, 0#8, 0#8, 0x35#8] = .ok (.ctlTick true 500#32) ∧
    decode .audio [0#8, 0#8, 0#8, 0#8, 0#8, 0#8, 0#8, 0x40#8] = .ok .render := by decide

theorem witness_DecoderAgreesWithOpcodeTable :
    decode .command (bytesOfWord 0x35000001FFFFFFFF#64) = .ok (.ctlTick true 0xFFFFFFFF#32) ∧
    decodeCommand 0x35000001FFFFFFFF#64 = some (.ctlTick true 0xFFFFFFFF#32) ∧
    commandRows.head?.map (fun r => r.encodes 0#64) = some true := by decide

theorem witness_StepRunsDecodedInstruction :
    decode .command (bytesOfWord 0x0B00000000000000#64) = .ok .start ∧
    ({ ready with inbox := [.command (bytesOfWord 0x0B00000000000000#64) false true] } : State).inbox =
      .command (bytesOfWord 0x0B00000000000000#64) false true :: [] ∧
    (Instr.start = .softReset → true = false) ∧
    ({ running with inbox := [.command (bytesOfWord (encode .softReset)) false true] } : State).inbox =
      .command (bytesOfWord (encode .softReset)) false true :: [] ∧
    decode .audio (bytesOfWord renderWord) = .ok .render ∧
    ({ ready with inbox := [.audio (bytesOfWord renderWord) [[1#32]] false] } : State).inbox =
      .audio (bytesOfWord renderWord) [[1#32]] false :: [] := by decide

/-- An unlisted OP, a nonzero RSV, the RENDER word, an unused IMM16, an unused DATA32, a reserved bit of
CTL_TICK; and an audio-port word other than RENDER. -/
theorem witness_UnlistedWordFailsIllegal :
    [0xFF00000000000000#64, 0x0001000000000000#64, 0x4000000000000000#64, 0x0800000100000000#64,
      0x0000000000000001#64, 0x3500800000000000#64].map
        (fun w => commandRows.any (fun r => r.encodes w)) =
      [false, false, false, false, false, false] ∧
    ({ running with inbox := [.command (bytesOfWord 0xFF00000000000000#64) false true] } : State).inbox =
      .command (bytesOfWord 0xFF00000000000000#64) false true :: [] ∧
    (BitVec.extractLsb' 56 8 0x4000000000000000#64 ∉ Spec.listedOps ∧
      BitVec.extractLsb' 48 8 0x0001000000000000#64 ≠ 0#8 ∧
      (BitVec.extractLsb' 56 8 0x0800000100000000#64 ∈ Spec.opsWithoutImm ∧
        BitVec.extractLsb' 32 16 0x0800000100000000#64 ≠ 0#16) ∧
      (BitVec.extractLsb' 56 8 0x0000000000000001#64 ∈ Spec.opsWithoutData ∧
        BitVec.extractLsb' 0 32 0x0000000000000001#64 ≠ 0#32) ∧
      (BitVec.extractLsb' 56 8 0x3500000200000000#64 = 0x35#8 ∧
        BitVec.extractLsb' 33 15 0x3500000200000000#64 ≠ 0#15)) ∧
    ({ running with inbox := [.audio (bytesOfWord 0#64) [] false] } : State).inbox =
      .audio (bytesOfWord 0#64) [] false :: [] ∧ 0#64 ≠ 0x4000000000000000#64 := by decide

/-- Each duty broken, and each kind of request that breaks none; and no request at all. -/
theorem witness_StepIsRefusedExactlyOnHostErrors :
    [Request.command [0#8] false false, .command (bytesOfWord 0#64) true false,
      .command (bytesOfWord 0x0300000000000000#64) false true, .audio [] [] false,
      .audio (bytesOfWord 0#64) [] false, .audio (bytesOfWord renderWord) [[0#32]] false,
      .audio (bytesOfWord renderWord) running.audioIn true].map (fun q => q.meetsDuties running) =
      [false, false, false, false, false, false, false] ∧
    [Request.command (bytesOfWord 0#64) false true, .command (bytesOfWord 0x0300000000000000#64) false false,
      .command (bytesOfWord 0x4000000000000000#64) false false, .audio (bytesOfWord renderWord) running.audioIn false, .reset].map
        (fun q => q.meetsDuties running) = [true, true, true, true, true] ∧
    Request.meetsDuties State.reset (.audio (bytesOfWord renderWord) [[0#32]] false) = true ∧
    State.reset.inbox = [] := by decide

theorem witness_ResetGivesTheResetTable :
    ({ playing with inbox := [.reset] } : State).inbox = .reset :: [] ∧
    (∃ t, exec .softReset playing = .next t) ∧
    (∃ t, step { playing with inbox := [.reset] } = .next t) := ⟨rfl, ⟨_, rfl⟩, ⟨_, rfl⟩⟩

theorem witness_CommandAnswersOnceAndFailsPrecisely :
    Instr.start ≠ .render ∧ Instr.regRead 0#16 ≠ .render ∧ answer .start State.reset = some (4, 0) ∧
    answer (.regRead 0#16) State.reset = some (0, 0x444D4931) ∧
    ({ running with inbox := [.command (bytesOfWord 0xFF00000000000000#64) false true] } : State).inbox =
      .command (bytesOfWord 0xFF00000000000000#64) false true :: [] ∧
    decodeCommand 0xFF00000000000000#64 = none := by decide

theorem witness_LastErrHoldsTheMostRecentFailure :
    (∃ t, exec (.regRead 5#16) State.reset = .next t ∧
      t.responses = responseWord (Instr.regRead 5#16).opcode .badReg 0#32 :: State.reset.responses ∧
      Code.badReg ≠ .ok) ∧
    (∃ t, exec (.oscSetAmp 0x40000000#32) running = .next t ∧
      t.responses = responseWord (Instr.oscSetAmp 0x40000000#32).opcode .ok 0#32 :: running.responses ∧
      Instr.oscSetAmp 0x40000000#32 ≠ .errClear ∧ Instr.oscSetAmp 0x40000000#32 ≠ .softReset) ∧
    (∃ t, exec .errClear running = .next t) ∧ (∃ t, exec .softReset running = .next t) ∧
    (∃ t, exec .render running = .next t) ∧
    (decodeCommand 0xFF00000000000000#64 = none ∧
      ∃ t, step { running with inbox := [.command (bytesOfWord 0xFF00000000000000#64) false true] } =
        .next t) :=
  ⟨⟨_, rfl, rfl, by decide⟩, ⟨_, rfl, rfl, by decide, by decide⟩, ⟨_, rfl⟩, ⟨_, rfl⟩, ⟨_, rfl⟩,
    by decide, ⟨_, rfl⟩⟩

theorem witness_CommandRaisesOnlyItsListedCodes :
    ∃ t, exec (.cfgBlockSize 0#16) State.reset = .next t ∧
      t.responses = responseWord (Instr.cfgBlockSize 0#16).opcode .configRange 0#32
        :: State.reset.responses ∧ Code.configRange ≠ .ok := ⟨_, rfl, rfl, by decide⟩

/-- The ends of the map, an unset parameter, NOTE's first and last entry, and the numbers on each side of
NOTE. -/
theorem witness_RegReadReturnsTheMappedRegister :
    ((0x000#16).toNat, some 0x444D4931#32) ∈ Spec.registers playing ∧
    ((0x080#16).toNat, some 60#32) ∈ Spec.registers playing ∧
    ((0x08F#16).toNat, none) ∈ Spec.registers playing ∧
    ((0x040#16).toNat, none) ∈ Spec.registers State.reset ∧
    (∀ e ∈ Spec.registers playing, e.1 ≠ (0x07F#16).toNat) ∧
    (∀ e ∈ Spec.registers playing, e.1 ≠ (0x090#16).toNat) := by decide

theorem witness_ValidBitsSayWhatIsSet :
    (16, playing.seq.stepMs.isSome) ∈ [(15, playing.seq.len.isSome), (16, playing.seq.stepMs.isSome)] ∧
    17 ≤ 17 ∧ (15 < 16 ∧ 15 < playing.params.seqMax) ∧ (16 ≤ 16 ∨ playing.params.seqMax ≤ 16) := by
  decide

/-- The two ends of a legal set, and -0.0, which equals the lower one. -/
theorem witness_ConfigStoresLegalF32Parameter :
    State.reset.phase = .config ∧
    [(F32Param.amp, 0x80000000#32), (.res, 0x3F7D70A4#32), (.cutoff, 0x3F800000#32),
      (.cutoff, 0x47BB7FFF#32)].all
      (fun e => F32.le (Spec.f32Min e.1) e.2 && F32.le e.2 (Spec.f32Max State.reset e.1)) = true := by
  decide

theorem witness_ConfigRefusesIllegalF32Parameter :
    State.reset.phase = .config ∧ F32.isNaN 0x7FC00000#32 = true ∧
    F32.lt 0x80000001#32 (Spec.f32Min .attack) = true ∧
    F32.lt (Spec.f32Max State.reset .attack) 0x42700001#32 = true := by decide

theorem witness_RunningClampsF32Parameter : running.phase = .running := rfl

theorem witness_OscSetFreqClampsInBothPhases :
    (F32.isNaN 0xFFFFFFFF#32 = true ∧ F32.lt 0x3F7FFFFF#32 0x3F800000#32 = true) ∧
    F32.lt 0x47BB8000#32 0x47BB8001#32 = true ∧
    (F32.le 0x3F800000#32 0x3F800000#32 = true ∧ F32.le 0x3F800000#32 0x47BB8000#32 = true) ∧
    (F32.le 0x3F800000#32 0x47BB8000#32 = true ∧ F32.le 0x47BB8000#32 0x47BB8000#32 = true) := by
  decide

theorem witness_WaveformAndFilterModeFollowTheirTables :
    ((3#16).toNat, Waveform.square) ∈ [(0, Waveform.sine), (1, .saw), (2, .triangle), (3, .square)] ∧
    4 ≤ (4#16).toNat ∧ ((2#16).toNat, FilterMode.high) ∈ [(0, FilterMode.low), (1, .band), (2, .high)] ∧
    3 ≤ (3#16).toNat := by decide

theorem witness_EngSetModeChecksTheNewModesParameters :
    ((2#16).toNat, EngineMode.voiceDelay) ∈ [(0, EngineMode.voice), (1, .delay), (2, .voiceDelay)] ∧
    State.reset.phase = .config ∧ Spec.modeSet running .voiceDelay ∧ running.phase = .running ∧
    ¬ Spec.modeSet { running with shadow := { running.shadow with delay := none } } .voiceDelay ∧
    3 ≤ (3#16).toNat :=
  ⟨by decide, rfl, by simp [Spec.modeSet, Spec.voiceSet, Spec.delaySet, running, ready], rfl,
    by simp [Spec.modeSet, Spec.delaySet], by decide⟩

theorem witness_SampleRateAndBlockSizeAreSetInConfigOnly :
    (State.reset.phase = .config ∧ F32.le 0x45FA0000#32 0x45FA0000#32 = true ∧
      F32.le 0x483B8000#32 0x483B8000#32 = true ∧ F32.le 0x45FA0000#32 0x483B8000#32 = true) ∧
    (F32.isNaN 0x7FC00000#32 = true ∧ F32.lt 0x45F9FFFF#32 0x45FA0000#32 = true ∧
      F32.lt 0x483B8000#32 0x483B8001#32 = true) ∧ running.phase = .running ∧
    (1 ≤ (1#16).toNat ∧ (256#16).toNat ≤ State.reset.params.blockMax) ∧
    ((0#16).toNat = 0 ∧ State.reset.params.blockMax < (257#16).toNat) := by decide

theorem witness_DlySetDelayRefusesBeyondCapacity :
    (95999#32).toNat < State.reset.params.dlyCap ∧ State.reset.params.dlyCap ≤ (96000#32).toNat := by
  decide

theorem witness_StartClearsTheAudioDomain :
    ready.phase = .config ∧ ready.shadow.fs = some 0x473B8000#32 ∧ ready.shadow.block = some 4#16 ∧
    ready.shadow.engineMode = some .voice ∧ Spec.modeSet ready .voice ∧
    (EngineMode.voice ≠ .delay → ∃ fc, ready.shadow.cutoff = some fc ∧
      F32.lt fc (F32.div 0x473B8000#32 0x40000000#32) = true) :=
  ⟨rfl, rfl, rfl, rfl, by simp [Spec.modeSet, Spec.voiceSet, ready],
    fun _ => ⟨_, rfl, by decide +kernel⟩⟩

/-- Each failure; the last with the cutoff at exactly half the sample rate. -/
theorem witness_StartFailsInPriorityOrder :
    running.phase = .running ∧ (State.reset.phase = .config ∧ State.reset.shadow.fs = none) ∧
    (∃ m, ready.shadow.engineMode = some m ∧
      ¬ Spec.modeSet { ready with mb := { ready.mb with freq := none } } m) ∧
    (ready.shadow.block ≠ none ∧ Spec.modeSet ready .voice ∧ EngineMode.voice ≠ .delay ∧
      ({ ready with shadow := { ready.shadow with cutoff := some 0x46BB8000#32 } } : State).shadow.cutoff
        = some 0x46BB8000#32 ∧
      F32.lt 0x46BB8000#32 (F32.div 0x473B8000#32 0x40000000#32) = false) :=
  ⟨rfl, ⟨rfl, rfl⟩, ⟨.voice, rfl, by simp [Spec.modeSet, Spec.voiceSet]⟩, by decide,
    by simp [Spec.modeSet, Spec.voiceSet, ready], by decide, rfl, by decide +kernel⟩

theorem witness_RenderIsSilentInConfig : State.reset.phase = .config := rfl

theorem witness_RenderAnswersOneBlockOnEveryChannel :
    running.phase = .running ∧
    running.audioIn = [0x3F800000#32, 0#32, 0#32, 0#32] :: [[0#32, 0#32, 0#32, 0#32]] ∧
    [0x3F800000#32, 0#32, 0#32, 0#32].length = running.audio.blkAct.toNat ∧
    (∀ ch ∈ [[0#32, 0#32, 0#32, 0#32]], ch.length = running.audio.blkAct.toNat) ∧
    [[0#32, 0#32, 0#32, 0#32]].length + 1 = running.params.numCh := by decide

/-- A RUNNING RENDER of the right shape completes, in every mode. -/
theorem witness_RenderCompletes :
    (∃ t, exec .render (runningIn .voice) = .next t) ∧ (∃ t, exec .render (runningIn .delay) = .next t) ∧
    (∃ t, exec .render (runningIn .voiceDelay) = .next t) := ⟨⟨_, rfl⟩, ⟨_, rfl⟩, ⟨_, rfl⟩⟩

theorem witness_RenderStepsOneSampleAfterAnother :
    running.phase = .running ∧
    running.audioIn = [0x3F800000#32, 0#32, 0#32, 0#32] :: [[0#32, 0#32, 0#32, 0#32]] ∧
    (∃ t, exec .render running = .next t) ∧
    [0x3F800000#32, 0#32, 0#32, 0#32][0]? = some 0x3F800000#32 := ⟨rfl, rfl, ⟨_, rfl⟩, rfl⟩

/-- The parameters of `running`, as its block latch takes them. -/
def voiceOfRunning : Spec.Voice :=
  { freq := 0x43DC0000#32, waveform := .saw, amp := 0x3F000000#32, attack := 0x38D1B717#32
    decay := 0#32, sustain := 0x3F000000#32, release := 0#32, cutoff := 0x447A0000#32, res := 0#32
    fmode := .low }

/-- The clause of each mode. -/
theorem witness_RenderStepsOneSampleAfterAnother_modes :
    ((runningIn .voice).shadow.engineMode = some .voice ∧
      Spec.voiceIs (runningIn .voice) voiceOfRunning) ∧
    ((runningIn .delay).shadow.engineMode = some .delay ∧
      (runningIn .delay).shadow.delay = some 3#32 ∧
      (runningIn .delay).shadow.feedback = some 0x3F000000#32) ∧
    ((runningIn .voiceDelay).shadow.engineMode = some .voiceDelay ∧
      Spec.voiceIs (runningIn .voiceDelay) voiceOfRunning) :=
  ⟨⟨rfl, rfl, rfl, rfl, rfl, rfl, rfl, rfl, rfl, rfl, rfl⟩, ⟨rfl, rfl, rfl⟩,
    ⟨rfl, rfl, rfl, rfl, rfl, rfl, rfl, rfl, rfl, rfl, rfl⟩⟩

theorem witness_OutputIsAlwaysInRange : ∃ t, exec .render running = .next t := ⟨_, rfl⟩

theorem witness_UnusedUnitsKeepTheirState :
    (∃ t, exec .render (runningIn .delay) = .next t ∧
      (runningIn .delay).shadow.engineMode = some .delay) ∧
    (∃ t, exec .render (runningIn .voice) = .next t ∧
      (runningIn .voice).shadow.engineMode = some .voice) := ⟨⟨_, rfl, rfl⟩, ⟨_, rfl, rfl⟩⟩

theorem witness_PhaseAdvancesByTheIncrementEachSample :
    (runningIn .voiceDelay).phase = .running ∧
    (runningIn .voiceDelay).audioIn =
      [0x3F800000#32, 0#32, 0#32, 0#32] :: [[0#32, 0#32, 0#32, 0#32]] ∧
    Spec.latchedVoice (runningIn .voiceDelay) = some (runningIn .voiceDelay).voiceLatch ∧
    (∃ t, exec .render (runningIn .voiceDelay) = .next t) := ⟨rfl, rfl, rfl, ⟨_, rfl⟩⟩

theorem witness_WriteIndexAdvancesByOneEachSample :
    (runningIn .delay).phase = .running ∧ 2 ≤ running.params.dlyCap ∧
    running.params.dlyCap ≤ 2 ^ 32 ∧ (runningIn .delay).audio.dlyW.toNat < running.params.dlyCap ∧
    (runningIn .delay).shadow.engineMode = some .delay ∧
    (runningIn .voiceDelay).shadow.engineMode = some .voiceDelay ∧
    (runningIn .delay).audioIn =
      [0x3F800000#32, 0#32, 0#32, 0#32] :: [[0#32, 0#32, 0#32, 0#32]] := by decide

/-- The smallest ring, with the shortest delay and with none. -/
theorem witness_DelayedSampleReturnsAfterTheDelay :
    2 ≤ 2 ∧ 2 ≤ 2 ^ 32 ∧ Memory.wf running.audio.dly = true ∧ running.audio.dlyW.toNat < 2 ∧
    (1 < 2 ∧ ([] : List F32).length + 1 = if 1 = 0 then 2 else 1) ∧
    (0 < 2 ∧ [0#32].length + 1 = if 0 = 0 then 2 else 0) := by decide

theorem witness_DelayStepWritesOneEntry :
    Memory.wf [(0, 0x3F800000#32), (3, 0x3F000000#32)] = true ∧ 1 ≠ running.audio.dlyW.toNat := by decide

/-- The two sides of SQUARE's threshold. -/
theorem witness_SawAndTriangleAreExact :
    (0x7FFFFFFF#32).toNat < 2 ^ 31 ∧ 2 ^ 31 ≤ (0x80000000#32).toNat := by decide

theorem witness_RomTablesHaveTheirSymmetries :
    513 ≤ (513#10).toNat ∧ (257 ≤ (257#10).toNat ∧ (511#10).toNat ≤ 511) ∧ (115#7).toNat ≤ 115 := by
  decide

/-- Each clause of sat: a NaN, the neighbours of the bounds outside them, -0.0 and the bounds inside. -/
theorem witness_SatClampsIntoUnitRange :
    F32.isNaN 0x7F800001#32 = true ∧ F32.lt 0xBF800001#32 0xBF800000#32 = true ∧
    F32.lt 0x3F800000#32 0x3F800001#32 = true ∧
    (F32.le 0xBF800000#32 0x80000000#32 = true ∧ F32.le 0x80000000#32 0x3F800000#32 = true) ∧
    (F32.le 0xBF800000#32 0xBF800000#32 = true ∧ F32.le 0xBF800000#32 0x3F800000#32 = true) := by decide

/-- Finite operands, one of them not zero; a tie that rounds to even (1 + 2^-24, between 1 and its
successor); the largest finite f32 and a sum that overflows; and the operands of every special case. -/
theorem witness_SumAndProductAreNearest :
    (F32.isFinite 0x3F800000#32 = true ∧ F32.isFinite 0x33800000#32 = true ∧
      F32.value 0x33800000#32 ≠ 0 ∧ F32.isFinite (F32.add 0x3F800000#32 0x33800000#32) = true) ∧
    (F32.isFinite 0x3F800001#32 = true ∧
      F32.value 0x3F800001#32 ≠ F32.value (F32.add 0x3F800000#32 0x33800000#32) ∧
      F32.value 0x3F800001#32 - (F32.value 0x3F800000#32 + F32.value 0x33800000#32) =
        F32.value 0x3F800000#32 + F32.value 0x33800000#32 -
          F32.value (F32.add 0x3F800000#32 0x33800000#32)) ∧
    (F32.isFinite 0x7F7FFFFF#32 = true ∧ F32.add 0x7F7FFFFF#32 0x73000000#32 = 0x7F800000#32) ∧
    F32.isNaN 0x7FC00000#32 = true ∧ (F32.isInf 0x7F800000#32 = true ∧ F32.isInf 0xFF800000#32 = true) ∧
    F32.sign 0x7F800000#32 ≠ F32.sign 0xFF800000#32 ∧
    (F32.isFinite 0x80000000#32 = true ∧ F32.value 0x80000000#32 = 0) := by decide +kernel

/-- The clauses on the order: neighbours of 1.0, and 2.5, which rne_int ties to 2. -/
theorem witness_SumAndProductAreNearest_order :
    F32.lt 0x3F800000#32 0x3F800001#32 = true ∧ F32.lt 0x3F7FFFFF#32 0x3F800000#32 = true ∧
    (F32.isFinite 0x40200000#32 = true ∧ 0 ≤ F32.value 0x40200000#32 ∧ F32.rneInt 0x40200000#32 = 2 ∧
      2 * |(F32.rneInt 0x40200000#32 : Int) * 2 ^ 149 - F32.value 0x40200000#32| = 2 ^ 149) := by
  decide +kernel

theorem witness_EnvelopeEventsKeepTheLevel :
    (true = true ∧ (true = true ∧ EnvState.reset.prevGate = false)) ∧
    (Stage.sustain ≠ .idle ∧ Stage.sustain ≠ .release) ∧
    (false = false ∧ (EnvState.reset.stage = .idle ∨ EnvState.reset.stage = .release)) := by decide

/-- The envelope at both ends of its range. -/
theorem witness_EnvelopeStaysInUnitRange :
    legalF32 F32.zero tMax 0#32 = true ∧ legalF32 F32.zero tMax 0x42700000#32 = true ∧
    legalF32 F32.zero F32.one 0x3F800000#32 = true ∧ legalF32 fsMin fsMax 0x45FA0000#32 = true ∧
    EnvLegal EnvState.reset ∧
    EnvLegal { stage := .decay, level := 0x3F800000#32, prevGate := true, relStart := 0x3F800000#32 } :=
  ⟨by decide, by decide, by decide, by decide, ⟨by decide, by decide⟩, ⟨by decide, by decide⟩⟩

/-- Each stage with a nonzero time: ATTACK from an event at the level +0.0, DECAY at the sustain level and
below it, SUSTAIN, and RELEASE. -/
theorem witness_EnvelopeStaysInUnitRange_ramps :
    ((envEvents true false EnvState.reset).stage = .attack ∧ F32.lt F32.zero 0x42700000#32 = true) ∧
    ((envEvents true false
        { stage := .decay, level := 0x3F000000#32, prevGate := true, relStart := 0#32 }).stage = .decay ∧
      F32.le 0x3F000000#32 0x3F000000#32 = true ∧ F32.lt 0x3F000000#32 0x3F000001#32 = true) ∧
    (envEvents true false
      { stage := .sustain, level := 0x3F000000#32, prevGate := true, relStart := 0#32 }).stage = .sustain ∧
    (envEvents false false
      { stage := .sustain, level := 0x3F000000#32, prevGate := true, relStart := 0#32 }).stage = .release :=
  by decide

/-- Both zeros are a zero time. -/
theorem witness_ZeroTimesCompleteAtOnce :
    F32.eq 0#32 F32.zero = true ∧ F32.eq 0x80000000#32 F32.zero = true ∧
    legalF32 F32.zero F32.one 0#32 = true ∧ legalF32 F32.zero F32.one 0x3F800000#32 = true ∧
    ({ EnvState.reset with stage := .attack } : EnvState).stage = .attack ∧
    ({ EnvState.reset with stage := .decay } : EnvState).stage = .decay ∧
    ({ EnvState.reset with stage := .release } : EnvState).stage = .release := by decide

theorem witness_FilterRestsAtItsInput :
    F32.isFinite 0x3E060A92#32 = true ∧ F32.isFinite 0#32 = true ∧ F32.isFinite 0xBF800000#32 = true ∧
    F32.sign 0x3E060A92#32 = false ∧ F32.sign 0#32 = false ∧ (0xBF800000#32 : F32) ≠ 0x80000000#32 := by
  decide

theorem witness_PhaseIncrementIsAtMostHalfATurn :
    legalF32 fMin freqCeil 0x3F800000#32 = true ∧ legalF32 fMin freqCeil 0x47BB8000#32 = true ∧
    legalF32 fsMin fsMax 0x45FA0000#32 = true ∧ legalF32 fsMin fsMax 0x483B8000#32 = true := by decide

theorem witness_FilterCoefficientsStayStable :
    legalF32 cutoffMin cutoffMaxConfig 0x3F800000#32 = true ∧
    legalF32 cutoffMin cutoffMaxConfig 0x47BB7FFF#32 = true ∧
    legalF32 F32.zero rMax 0#32 = true ∧ legalF32 F32.zero rMax 0x3F7D70A4#32 = true ∧
    legalF32 fsMin fsMax 0x45FA0000#32 = true := by decide

theorem witness_SeqSetLengthIsFrozenWhileRunning :
    playing.seq.run = true ∧
    (State.reset.seq.run = false ∧ 1 ≤ (1#16).toNat ∧ (16#16).toNat ≤ State.reset.params.seqMax) ∧
    (State.reset.phase = .config ∧ (0#16).toNat = 0 ∧ State.reset.params.seqMax < (17#16).toNat) ∧
    (running.seq.run = false ∧ running.phase = .running ∧ 1 ≤ running.params.seqMax) := by decide

theorem witness_SeqSetNoteStoresOneEntry :
    State.reset.params.seqMax ≤ (16#16).toNat ∧
    ((15#16).toNat < State.reset.params.seqMax ∧ State.reset.phase = .config ∧ 127 < (128#32).toNat) ∧
    (running.phase = .running ∧ (127#32).toNat ≤ 127) := by decide

theorem witness_SeqSetStepMsStoresAPositiveTime :
    (1#32 ≠ 0#32) ∧ State.reset.phase = .config ∧ running.phase = .running := by decide

theorem witness_SeqStartPlaysStepZero :
    (playing.seq.len = some 2#5 ∧ 1 ≤ (2#5).toNat ∧ playing.seq.stepMs ≠ none ∧
      (∀ i, i < (2#5).toNat → entryAt playing.note i ≠ none) ∧ entryAt playing.note 0 = some 60#7) ∧
    State.reset.seq.len = none ∧
    (∃ n i, ({ playing with note := [(0, 60#7)] } : State).seq.len = some n ∧ i < n.toNat ∧
      entryAt [(0, 60#7)] i = none) :=
  ⟨by decide, rfl, ⟨2#5, 1, rfl, by decide, rfl⟩⟩

/-- The step time elapsed exactly, and one millisecond short of it; and the sequencer stopped. -/
theorem witness_CtlTickTakesAtMostOneStep :
    (playing.seq.run = true ∧ playing.seq.len = some 2#5 ∧ (2#5).toNat ≤ 16 ∧
      playing.seq.stepMs = some 500#32 ∧ (500#32).toNat ≤ (500#32 - playing.seq.lastMs).toNat ∧
      playing.seq.step.toNat < (2#5).toNat ∧
      entryAt playing.note ((playing.seq.step.toNat + 1) % (2#5).toNat) = some 62#7) ∧
    (499#32 - playing.seq.lastMs).toNat < (500#32).toNat ∧ State.reset.seq.run = false := by decide

theorem witness_CtlTickIsIdempotent :
    (∀ ms, playing.seq.stepMs = some ms → ms ≠ 0#32) ∧
    (playing.seq.run = true → playing.seq.stepMs ≠ none) ∧
    (∃ t, exec (.ctlTick true 500#32) playing = .next t) :=
  ⟨fun ms h => by cases h; decide, fun _ => by decide, ⟨_, rfl⟩⟩

theorem witness_TicksAtTheStepTimeStepEachTime :
    playing.seq.run = true ∧ playing.seq.len = some 2#5 ∧ (2#5).toNat ≤ 16 ∧
    playing.seq.stepMs = some 500#32 ∧ playing.seq.step.toNat < (2#5).toNat := by decide

theorem witness_OnlyStartAndResetMoveThePhase :
    (∃ t, exec .start ready = .next t ∧ ready.phase = .config ∧ t.phase = .running ∧
      t.responses = responseWord 0x0B#8 .ok 0#32 :: ready.responses) ∧
    (∃ t, exec .softReset running = .next t ∧ running.phase = .running ∧ t.phase = .config) ∧
    (∃ t, step { running with inbox := [.reset] } = .next t ∧ t.phase ≠ running.phase ∧
      ({ running with inbox := [.reset] } : State).inbox = .reset :: []) ∧
    (∃ t, step { ready with inbox := [.command (bytesOfWord (encode .start)) false true] } = .next t ∧
      t.phase ≠ ready.phase) ∧
    (∃ t, step { running with inbox := [.command (bytesOfWord (encode .softReset)) false false] } =
      .next t ∧ t.phase ≠ running.phase) := by
  refine ⟨⟨after .start ready, ?_, by decide, by decide +kernel, by decide +kernel⟩,
    ⟨_, rfl, rfl, rfl⟩, ⟨_, rfl, by decide, rfl⟩, ⟨after .start ready, ?_, by decide +kernel⟩,
    ⟨_, rfl, by decide⟩⟩
  all_goals rfl

theorem witness_EachDomainWritesOnlyItsOwnState :
    (∃ t, exec .render running = .next t) ∧
    (∃ t, exec (.oscSetAmp 0#32) running = .next t ∧ Instr.oscSetAmp 0#32 ≠ .render ∧
      Instr.oscSetAmp 0#32 ≠ .start ∧ Instr.oscSetAmp 0#32 ≠ .softReset) :=
  ⟨⟨_, rfl⟩, ⟨_, rfl, by decide, by decide, by decide⟩⟩

/-- Two audio domains that differ in the phase word alone. -/
theorem witness_CommandsDoNotObserveTheAudioDomain :
    Instr.nop ≠ .render ∧
    ({ running.audio with oscP := 1#32 } : AudioState).fsAct = running.audio.fsAct := by decide

theorem witness_SampleRateAndBlockSizeAreFixedWhileRunning :
    ((∃ t, exec (.cfgSampleRate 0x45FA0000#32) running = .next t) ∧ running.phase = .running ∧
      Instr.cfgSampleRate 0x45FA0000#32 ≠ .softReset) ∧
    (exec .start ready = .next (after .start ready) ∧ ready.phase = .config ∧
      (after .start ready).phase = .running) ∧
    (Spec.ratesAreConfigured { running with inbox := [.audio (bytesOfWord renderWord) running.audioIn false] } ∧
      ∃ t, step { running with inbox := [.audio (bytesOfWord renderWord) running.audioIn false] } =
        .next t) :=
  ⟨⟨⟨_, rfl⟩, rfl, by decide⟩, ⟨rfl, rfl, by decide +kernel⟩, ⟨fun _ => ⟨rfl, rfl⟩, _, rfl⟩⟩

/-- A machine that plays a sequence into a voice and a delay, with a RENDER waiting. -/
def busy : State :=
  { playing with
    shadow := { playing.shadow with engineMode := some .voiceDelay }
    audio := { playing.audio with dly := [(7, 0x3F800000#32)], dlyW := 95999#32 }
    inbox := [.audio (bytesOfWord renderWord) playing.audioIn false] }

theorem busy_coreInv : CoreInv busy where
  params := by decide
  noteForm := by decide
  noteIndex := by decide
  ringForm := by decide
  ringIndex := by decide
  writeIndex := by decide
  block n h := by cases h; decide
  delay n h := by cases h; decide
  length n h := by cases h; decide
  stepMs n h := by cases h; decide
  sequencer _ := ⟨2#5, rfl, rfl, by decide, rfl, by decide⟩
  engine _ := ⟨.voiceDelay, rfl, by decide, rfl, rfl⟩
  idle _ := rfl

theorem busy_legalF32s : LegalF32s busy where
  fs v h := by cases h; decide
  freq v h := by cases h; decide
  amp v h := by cases h; decide
  attack v h := by cases h; decide
  decay v h := by cases h; decide
  sustain v h := by cases h; decide
  release v h := by cases h; decide
  cutoff v h := by cases h; decide
  res v h := by cases h; decide
  feedback v h := by cases h; decide

theorem busy_step : ∃ t, step busy = .next t ∧ t.inbox = [] := ⟨_, rfl, rfl⟩

theorem witness_StepKeepsTheStructuralInvariant : CoreInv busy ∧ ∃ t, step busy = .next t :=
  ⟨busy_coreInv, _, rfl⟩

theorem witness_StepKeepsF32ParametersLegal :
    CoreInv busy ∧ LegalF32s busy ∧ ∃ t, step busy = .next t := ⟨busy_coreInv, busy_legalF32s, _, rfl⟩

theorem witness_StepKeepsTheEnvelopeLegal :
    CoreInv busy ∧ LegalF32s busy ∧ EnvLegal busy.audio.env ∧ ∃ t, step busy = .next t :=
  ⟨busy_coreInv, busy_legalF32s, ⟨by decide, by decide⟩, _, rfl⟩

end Sys2Proof.Tests.Slice0
end

section
/-! The clamp `sat` (00_scope.md R15): one equation per branch, and the obligation put together from
them. -/

namespace Sys2Proof.Proofs.Scope

open Sys2Proof.F32 Sys2Proof.Laws.F32

/-! ## Order -/

theorem lt_eq_false_of_le {a b : F32} (h : le a b = true) : lt b a = false := by
  obtain ⟨-, -, hk⟩ := (le_iff a b).1 h
  rw [← Bool.not_eq_true, lt_iff]
  exact fun ⟨_, _, hk'⟩ => hk.not_gt hk'

theorem le_of_lt {a b : F32} (h : lt a b = true) : le a b = true := by
  obtain ⟨ha, hb, hk⟩ := (lt_iff a b).1 h
  exact (le_iff a b).2 ⟨ha, hb, hk.le⟩

/-! ## The branches of sat -/

theorem minusOne_le_one : le minusOne one = true := by decide

theorem sat_of_isNaN {x : F32} (h : isNaN x = true) : sat x = zero := if_pos h

theorem sat_of_lt_minusOne {x : F32} (h : lt x minusOne = true) : sat x = minusOne := by
  have hn : isNaN x = false := ((lt_iff x minusOne).1 h).1
  simp [sat, hn, h]

theorem sat_of_one_lt {x : F32} (h : lt one x = true) : sat x = one := by
  have hn : isNaN x = false := ((lt_iff one x).1 h).2.1
  have hl : lt x minusOne = false := lt_eq_false_of_le (le_trans minusOne_le_one (le_of_lt h))
  simp [sat, gt, hn, hl, h]

/-- Inside the bounds sat keeps the pattern itself, -0.0 among them (00_scope.md R15). -/
theorem sat_of_minusOne_le_of_le_one {x : F32} (hl : le minusOne x = true) (hg : le x one = true) :
    sat x = x := by
  have hn : isNaN x = false := ((le_iff x one).1 hg).1
  simp [sat, gt, hn, lt_eq_false_of_le hl, lt_eq_false_of_le hg]

/-- `sat_range` in the order of the f32 themselves. -/
theorem minusOne_le_sat_le_one (x : F32) : le minusOne (sat x) = true ∧ le (sat x) one = true := by
  obtain ⟨hn, hlo, hhi⟩ := sat_range x
  exact ⟨(le_iff minusOne (sat x)).2 ⟨by decide, hn, key_minusOne ▸ hlo⟩,
    (le_iff (sat x) one).2 ⟨hn, by decide, key_one ▸ hhi⟩⟩

/-- Settles O38: the range of sat, and one clause for each of its branches. -/
theorem satClampsIntoUnitRange : Obligations.SatClampsIntoUnitRange := by
  intro x
  have hrange : isNaN (sat x) = false ∧ le minusOne (sat x) = true ∧ le (sat x) one = true :=
    ⟨(sat_range x).1, minusOne_le_sat_le_one x⟩
  exact ⟨hrange, sat_of_isNaN, sat_of_lt_minusOne, sat_of_one_lt, sat_of_minusOne_le_of_le_one⟩

end Sys2Proof.Proofs.Scope
end

section
/-! LAST_ERR (10_state.md R51): what a command and its response say of it. One inversion lemma for the
commands, one equation for an ILLEGAL word, and the obligation put together from them. -/

namespace Sys2Proof.Proofs.LastErr

open Sys2Proof Sys2Proof.Machine Sys2Proof.Laws.State Sys2Proof.Laws.Ops Sys2Proof.Laws.Encoding

/-! ## The response word (30_encoding.md R142) -/

/-- The CODE field of a response is the code's number. -/
theorem code_responseWord (op : BitVec 8) (c : Code) (v : BitVec 32) :
    (responseWord op c v).extractLsb' 32 8 = c.number := by
  have field : ∀ n : BitVec 8,
      BitVec.extractLsb' (n := 8 + 16 + 8 + 32) 32 8 (op ++ 0#16 ++ n ++ v) = n := by
    intro n
    apply BitVec.eq_of_getLsbD_eq
    intro i hi
    rw [bit_of_parts _ _ _ _ hi, BitVec.getLsbD_append, if_neg (by omega), BitVec.getLsbD_append,
      if_pos (by omega), Nat.add_sub_cancel_left]
  exact field c.number

theorem number_injective {c d : Code} (h : c.number = d.number) : c = d := by
  cases c <;> cases d <;> simp_all [Code.number]

/-- A response tells its code, whatever data it carries. -/
theorem code_eq_of_responseWord_eq {op : BitVec 8} {c d : Code} {v w : BitVec 32}
    (h : responseWord op c v = responseWord op d w) : c = d :=
  number_injective (by rw [← code_responseWord op c v, h, code_responseWord])

/-! ## The checks and the effect of a command -/

/-- Checks and effect that leave LAST_ERR and the sent responses to the end of the command: an effect
keeps both, and a failed check names an error. -/
def KeepsLastErr (s : State) (r : Except Code State) : Prop :=
  match r with
  | .ok u => u.lastErr = s.lastErr ∧ u.responses = s.responses
  | .error c => c ≠ .ok

@[simp] theorem keepsLastErr_ok (s u : State) :
    KeepsLastErr s (.ok u) ↔ u.lastErr = s.lastErr ∧ u.responses = s.responses := Iff.rfl

@[simp] theorem keepsLastErr_error (s : State) (c : Code) : KeepsLastErr s (.error c) ↔ c ≠ .ok :=
  Iff.rfl

@[simp] theorem keepsLastErr_ite (s : State) (p : Prop) [Decidable p] (r r' : Except Code State) :
    KeepsLastErr s (if p then r else r') ↔ if p then KeepsLastErr s r else KeepsLastErr s r' := by
  split <;> rfl

theorem keepsLastErr_storeF32 (p : F32Param) (x lo hi nanv : F32) (s : State) :
    KeepsLastErr s (s.storeF32 p x lo hi nanv) := by
  cases h : s.storeF32 p x lo hi nanv with
  | ok u =>
    obtain ⟨v, rfl, -⟩ := storeF32_ok h
    exact ⟨rfl, rfl⟩
  | error c =>
    obtain ⟨rfl, -⟩ := storeF32_error h
    exact nofun

theorem rangedNat_error_ne_ok {n lo hi : Nat} {s : State} {c : Code}
    (h : s.rangedNat n lo hi = .error c) : c ≠ .ok := by
  obtain ⟨rfl, -⟩ := rangedNat_error h
  decide

theorem readReg_error_ne_ok {s : State} {reg : BitVec 16} {c : Code} (h : s.readReg reg = .error c) :
    c ≠ .ok := by
  unfold State.readReg at h
  split at h
  · cases h; simp
  · split at h
    · cases h; simp
    · cases h

/-! ## The end of a command -/

/-- What a command that gives the next state `t` has done: it completed with some data, and only
ERR_CLEAR and SOFT_RESET wrote LAST_ERR; or it failed, and nothing but LAST_ERR and the response
changed (10_state.md R51; 40_command_port.md R183, R187). -/
inductive Answered (i : Instr) (s t : State) : Prop
  | completed (v : BitVec 32) (response : t.responses = responseWord i.opcode .ok v :: s.responses)
      (kept : i ≠ .errClear → i ≠ .softReset → t.lastErr = s.lastErr)
  | failed (c : Code) (error : c ≠ .ok) (raised : t = s.raise i.opcode c)

theorem answered_of_complete {i : Instr} {s t : State} {r : Except Code State} (hr : KeepsLastErr s r)
    (h : s.complete i.opcode r = .next t) : Answered i s t := by
  obtain ⟨u, rfl, rfl⟩ | ⟨c, rfl, rfl⟩ := complete_next h
  · obtain ⟨herr, hresp⟩ := hr
    exact .completed 0#32 (by simp [hresp]) fun _ _ => by simp [herr]
  · exact .failed c hr rfl

/-- A command without checks completes. -/
theorem answered_of_effect {i : Instr} {s t u : State}
    (hexec : exec i s = .next (u.respond i.opcode 0#32)) (h : exec i s = .next t)
    (herr : u.lastErr = s.lastErr) (hresp : u.responses = s.responses) : Answered i s t :=
  answered_of_complete (r := .ok u) ⟨herr, hresp⟩ (hexec.symm.trans h)

theorem answered_of_storeF32 {i : Instr} {p : F32Param} {x lo hi nanv : F32} {s t : State}
    (h : s.complete i.opcode (s.storeF32 p x lo hi nanv) = .next t) : Answered i s t :=
  answered_of_complete (keepsLastErr_storeF32 p x lo hi nanv s) h

theorem answered_regRead {reg : BitVec 16} {s t : State} (h : exec (.regRead reg) s = .next t) :
    Answered (.regRead reg) s t := by
  obtain ⟨v, -, rfl⟩ | ⟨c, hc, rfl⟩ := completeData_next h
  · exact .completed v rfl fun _ _ => rfl
  · exact .failed c (readReg_error_ne_ok hc) rfl

theorem answered_errClear {s t : State} (h : exec .errClear s = .next t) : Answered .errClear s t := by
  obtain rfl := Host.Outcome.next.inj h
  exact .completed 0#32 rfl fun hne => absurd rfl hne

theorem answered_softReset {s t : State} (h : exec .softReset s = .next t) :
    Answered .softReset s t := by
  obtain rfl := Host.Outcome.next.inj h
  exact .completed 0#32 rfl fun _ hne => absurd rfl hne

theorem answered_fltSetCutoff {hz : F32} {s t : State} (h : exec (.fltSetCutoff hz) s = .next t) :
    Answered (.fltSetCutoff hz) s t := by
  refine answered_of_complete ?_ h
  split <;> exact keepsLastErr_storeF32 _ _ _ _ _ _

theorem answered_start {s t : State} (h : exec .start s = .next t) : Answered .start s t := by
  refine answered_of_complete ?_ h
  split
  · simp
  · split <;> simp

theorem answered_ctlTick {gate : Bool} {now : BitVec 32} {s t : State}
    (h : exec (.ctlTick gate now) s = .next t) : Answered (.ctlTick gate now) s t := by
  refine answered_of_effect rfl h ?_ ?_ <;> split <;> rfl

/-- The one case analysis over the commands. -/
theorem exec_answered {i : Instr} {s t : State} (hr : i ≠ .render) (h : exec i s = .next t) :
    Answered i s t := by
  cases i with
  | render => exact absurd rfl hr
  | nop | oscSetFreq | seqStop => exact answered_of_effect rfl h rfl rfl
  | regRead reg => exact answered_regRead h
  | errClear => exact answered_errClear h
  | softReset => exact answered_softReset h
  | start => exact answered_start h
  | fltSetCutoff hz => exact answered_fltSetCutoff h
  | ctlTick gate now => exact answered_ctlTick h
  | oscSetAmp | envSetAttack | envSetDecay | envSetSustain | envSetRelease | fltSetRes
    | dlySetFeedback => exact answered_of_storeF32 h
  | cfgSampleRate | cfgBlockSize | engSetMode | oscSetWaveform | fltSetMode | dlySetDelay | seqStart =>
    refine answered_of_complete ?_ h
    split <;> simp
  | seqSetStepMs =>
    refine answered_of_complete ?_ h
    split
    · next hc => exact rangedNat_error_ne_ok hc
    · simp
  | seqSetLength | seqSetNote =>
    refine answered_of_complete ?_ h
    split
    · simp
    · split
      · next hc => exact rangedNat_error_ne_ok hc
      · simp

/-! ## The rest of R51 -/

/-- RENDER sends no response and leaves LAST_ERR alone. -/
theorem render_keeps {s t : State} (h : exec .render s = .next t) :
    t.lastErr = s.lastErr ∧ t.responses = s.responses := by
  obtain ⟨-, rfl⟩ | ⟨-, -, rfl⟩ := execRender_next h <;> exact ⟨rfl, rfl⟩

/-- A word that encodes no command is rejected as ILLEGAL (30_encoding.md R150). -/
theorem decode_illegal {w : Word64} (h : decodeCommand w = none) :
    decode .command (bytesOfWord w) = .error (.illegal w) := by
  simp [decode, h]

/-- The step that takes an ILLEGAL word from the inbox fails it. -/
theorem step_illegal {s : State} {w : Word64} {rendering : Bool} {rest : List Request}
    (hin : s.inbox = .command (bytesOfWord w) false rendering :: rest) (h : decodeCommand w = none) :
    step s = .next (State.raise (opOf w) .illegal { s with inbox := rest }) := by
  simp [step, State.fetch, hin, fetchCommand, decode_illegal h]

/-- The code of a command's response says what became of LAST_ERR. -/
theorem lastErr_of_response {i : Instr} {s t : State} {c : Code} {v : BitVec 32}
    (h : exec i s = .next t) (hresp : t.responses = responseWord i.opcode c v :: s.responses) :
    (c ≠ .ok → t.lastErr = c) ∧
      (c = .ok → i ≠ .errClear → i ≠ .softReset → t.lastErr = s.lastErr) := by
  have hr : i ≠ .render := by
    rintro rfl
    exact List.cons_ne_self _ _ (hresp.symm.trans (render_keeps h).2)
  cases exec_answered hr h with
  | completed d response kept =>
    have hc : c = .ok := code_eq_of_responseWord_eq (List.cons.inj (hresp.symm.trans response)).1
    exact ⟨fun hne => absurd hc hne, fun _ => kept⟩
  | failed d error raised =>
    subst raised
    have hc : c = d :=
      code_eq_of_responseWord_eq (List.cons.inj (hresp.symm.trans (raise_responses ..))).1
    exact ⟨fun _ => hc.symm, fun hok => absurd (hc.symm.trans hok) error⟩

/-- ERR_CLEAR and SOFT_RESET write 0. -/
theorem lastErr_of_clear {i : Instr} {s t : State} (hi : i = .errClear ∨ i = .softReset)
    (h : exec i s = .next t) : t.lastErr = .ok := by
  obtain rfl | rfl := hi <;> (obtain rfl := Host.Outcome.next.inj h; rfl)

/-- Settles O12: one lemma per clause of R51. -/
theorem lastErrHoldsTheMostRecentFailure : Obligations.LastErrHoldsTheMostRecentFailure := by
  refine ⟨fun i s t c v => lastErr_of_response, fun i s t => lastErr_of_clear,
    fun s t h => (render_keeps h).1, fun s t w rendering rest hin hw h => ?_, rfl⟩
  obtain rfl := Host.Outcome.next.inj ((step_illegal hin hw).symm.trans h)
  rfl

end Sys2Proof.Proofs.LastErr
end

section
/-! The opcode table (30_encoding.md R146, R150, R152, R156): a row read field by field, the command
decoder against the table, and the obligations put together from them. -/

namespace Sys2Proof.Proofs.Encoding

open Sys2Proof Sys2Proof.Machine Sys2Proof.Laws.Encoding

/-! ## The rows, field by field -/

/-- A word agrees with a row in the bits of its mask where each of the four fields does. -/
theorem encodes_iff_fields (r : OpcodeRow) (w : Word64) :
    r.encodes w = true ↔ opOf w &&& opOf r.mask = opOf r.pattern ∧
      rsvOf w &&& rsvOf r.mask = rsvOf r.pattern ∧ immOf w &&& immOf r.mask = immOf r.pattern ∧
      dataOf w &&& dataOf r.mask = dataOf r.pattern := by
  simp only [OpcodeRow.encodes, beq_iff_eq, opOf, rsvOf, immOf, dataOf, ← BitVec.extractLsb'_and]
  exact ⟨fun h => by simp [h], fun ⟨hop, hrsv, himm, hdata⟩ => word_ext hop hrsv himm hdata⟩

/-- Each row fixes OP and RSV, and what else it fixes is zero (30_encoding.md R145). -/
theorem commandRows_fields : ∀ r ∈ commandRows,
    opOf r.mask = BitVec.allOnes 8 ∧ rsvOf r.mask = BitVec.allOnes 8 ∧
      rsvOf r.pattern = 0#8 ∧ immOf r.pattern = 0#16 ∧ dataOf r.pattern = 0#32 := by
  decide

/-- A word matches a row of the table where its OP is the row's and RSV and the row's unused bits are
zero. -/
theorem encodes_iff {r : OpcodeRow} (hr : r ∈ commandRows) (w : Word64) :
    r.encodes w = true ↔ opOf w = opOf r.pattern ∧ rsvOf w = 0#8 ∧
      immOf w &&& immOf r.mask = 0#16 ∧ dataOf w &&& dataOf r.mask = 0#32 := by
  obtain ⟨hopMask, hrsvMask, hrsv, himm, hdata⟩ := commandRows_fields r hr
  rw [encodes_iff_fields, hopMask, hrsvMask, hrsv, himm, hdata, BitVec.and_allOnes, BitVec.and_allOnes]

/-- The OP values of the rows. -/
theorem commandRows_ops : commandRows.map (fun r => opOf r.pattern) = Spec.listedOps := by decide

theorem op_mem_listedOps {r : OpcodeRow} (hr : r ∈ commandRows) : opOf r.pattern ∈ Spec.listedOps :=
  commandRows_ops ▸ List.mem_map_of_mem hr

theorem exists_row_of_op {op : BitVec 8} (h : op ∈ Spec.listedOps) :
    ∃ r ∈ commandRows, opOf r.pattern = op :=
  List.mem_map.1 (commandRows_ops ▸ h)

/-- The OP values are distinct, so no word matches two rows (30_encoding.md R152). -/
theorem commandRows_disjoint :
    commandRows.Pairwise (fun r r' => ∀ w : Word64, r.encodes w = true → r'.encodes w = false) := by
  have hops : commandRows.Pairwise (fun r r' => opOf r.pattern ≠ opOf r'.pattern) :=
    List.pairwise_map.1 (commandRows_ops ▸ (by decide : Spec.listedOps.Nodup))
  refine hops.imp_of_mem fun {r r'} hr hr' hne w h => Bool.eq_false_iff.2 fun h' => hne ?_
  rw [← ((encodes_iff hr w).1 h).1, ((encodes_iff hr' w).1 h').1]

/-! ## The command decoder against the table -/

@[simp] theorem isSome_ifZero (unused : Bool) (i : Instr) : (ifZero unused i).isSome = unused := by
  cases unused <;> rfl

theorem eq_of_ifZero {unused : Bool} {i j : Instr} (h : ifZero unused i = some j) : i = j := by
  cases unused with
  | true => exact Option.some.inj h
  | false => cases h

/-- A word that decodes has a zero RSV and the OP of its instruction, which is a listed one. -/
theorem decodeCommand_some {w : Word64} {i : Instr} (h : decodeCommand w = some i) :
    rsvOf w = 0#8 ∧ opOf w = i.opcode ∧ i.opcode ∈ Spec.listedOps := by
  unfold decodeCommand at h
  split at h
  case isFalse => cases h
  case isTrue hrsv =>
    refine ⟨hrsv, ?_⟩
    split at h
    -- an unlisted OP; and SEQ_SET_NOTE, which leaves no field unused
    case h_27 => cases h
    case h_22 hop =>
      obtain rfl := Option.some.inj h
      exact ⟨BitVec.eq_of_toNat_eq hop, by simp [Spec.listedOps, Instr.opcode]⟩
    all_goals
      next hop =>
        obtain rfl := eq_of_ifZero h
        exact ⟨BitVec.eq_of_toNat_eq hop, by simp [Spec.listedOps, Instr.opcode]⟩

/-! The bits of IMM16 and DATA32 that the masks hold fixed. -/

theorem mask_fields :
    (immOf maskNone = 0xFFFF#16 ∧ dataOf maskNone = 0xFFFFFFFF#32) ∧
      (immOf maskImm = 0#16 ∧ dataOf maskImm = 0xFFFFFFFF#32) ∧
      (immOf maskData = 0xFFFF#16 ∧ dataOf maskData = 0#32) ∧
      (immOf 0xFFFF000000000000#64 = 0#16 ∧ dataOf 0xFFFF000000000000#64 = 0#32) ∧
      (immOf 0xFFFFFFFE00000000#64 = 0xFFFE#16 ∧ dataOf 0xFFFFFFFE00000000#64 = 0#32) := by
  decide

theorem and_immMask (imm : BitVec 16) : imm &&& 0xFFFF#16 = imm := BitVec.and_allOnes

theorem and_dataMask (data : BitVec 32) : data &&& 0xFFFFFFFF#32 = data := BitVec.and_allOnes

/-- The row of CTL_TICK holds fixed every bit of IMM16 but the gate. -/
theorem and_tickMask_eq_zero (imm : BitVec 16) :
    imm &&& 0xFFFE#16 = 0#16 ↔ imm.extractLsb' 1 15 = 0#15 := by
  constructor <;> intro h
  · have hbits := congrArg (BitVec.extractLsb' 1 15) h
    rwa [BitVec.extractLsb'_and, show BitVec.extractLsb' 1 15 0xFFFE#16 = BitVec.allOnes 15 from rfl,
      BitVec.and_allOnes] at hbits
  · apply BitVec.eq_of_getLsbD_eq
    intro i hi
    cases i with
    | zero => simp
    | succ i =>
      rw [BitVec.getLsbD_and, Nat.add_comm, ← bit_of_parts imm 1 15 i (by omega), h]
      simp

/-- Where OP is a row's and RSV is zero, the decoder accepts what the row's mask accepts. -/
theorem isSome_decodeCommand_of_op {r : OpcodeRow} (hr : r ∈ commandRows) {w : Word64}
    (hop : opOf w = opOf r.pattern) (hrsv : rsvOf w = 0#8) :
    (decodeCommand w).isSome = r.encodes w := by
  rw [Bool.eq_iff_iff, encodes_iff hr]
  simp only [hop, hrsv, true_and, decodeCommand, if_true]
  unfold commandRows at hr
  fin_cases hr <;> simp [opOf, mask_fields, and_immMask, and_dataMask, and_tickMask_eq_zero]

/-- The decoder accepts exactly the words that match a row (30_encoding.md R152). -/
theorem isSome_decodeCommand (w : Word64) :
    (decodeCommand w).isSome = commandRows.any (fun r => r.encodes w) := by
  rw [Bool.eq_iff_iff, List.any_eq_true]
  constructor
  · intro h
    obtain ⟨i, hi⟩ := Option.isSome_iff_exists.1 h
    obtain ⟨hrsv, hop, hlisted⟩ := decodeCommand_some hi
    obtain ⟨r, hr, hrop⟩ := exists_row_of_op hlisted
    exact ⟨r, hr, isSome_decodeCommand_of_op hr (hop.trans hrop.symm) hrsv ▸ h⟩
  · rintro ⟨r, hr, h⟩
    obtain ⟨hop, hrsv, -⟩ := (encodes_iff hr w).1 h
    rwa [isSome_decodeCommand_of_op hr hop hrsv]

/-- A command is 8 bytes (20_memory.md R102). -/
theorem length_of_decode {p : Port} {bytes : List Byte} {i : Instr} (h : decode p bytes = .ok i) :
    bytes.length = 8 := by
  unfold decode at h
  split at h
  · cases h
  · next w hw => rw [bytesOfWord_of_wordOfBytes hw]; rfl

/-- Settles O3: one lemma per clause of R152. -/
theorem decoderAgreesWithOpcodeTable : Obligations.DecoderAgreesWithOpcodeTable :=
  ⟨fun _ _ => length_of_decode, isSome_decodeCommand, commandRows_disjoint,
    fun _ _ h => (decodeCommand_some h).2.1⟩

/-! ## Words that match no row (30_encoding.md R150) -/

/-- A row whose OP leaves IMM16 unused holds all of it fixed. -/
theorem immMask_of_opsWithoutImm : ∀ r ∈ commandRows, opOf r.pattern ∈ Spec.opsWithoutImm →
    immOf r.mask = BitVec.allOnes 16 := by
  decide

/-- A row whose OP leaves DATA32 unused holds all of it fixed. -/
theorem dataMask_of_opsWithoutData : ∀ r ∈ commandRows, opOf r.pattern ∈ Spec.opsWithoutData →
    dataOf r.mask = BitVec.allOnes 32 := by
  decide

theorem immMask_of_ctlTick : ∀ r ∈ commandRows, opOf r.pattern = 0x35#8 → immOf r.mask = 0xFFFE#16 := by
  decide

/-- The unused bits of a word that matches a row are zero (30_encoding.md R145). -/
theorem unused_of_encodes {r : OpcodeRow} (hr : r ∈ commandRows) {w : Word64} (h : r.encodes w = true) :
    opOf w ∈ Spec.listedOps ∧ rsvOf w = 0#8 ∧ (opOf w ∈ Spec.opsWithoutImm → immOf w = 0#16) ∧
      (opOf w ∈ Spec.opsWithoutData → dataOf w = 0#32) ∧
      (opOf w = 0x35#8 → (immOf w).extractLsb' 1 15 = 0#15) := by
  obtain ⟨hop, hrsv, himm, hdata⟩ := (encodes_iff hr w).1 h
  rw [hop]
  refine ⟨op_mem_listedOps hr, hrsv, fun hm => ?_, fun hm => ?_, fun hm => ?_⟩
  · rwa [immMask_of_opsWithoutImm r hr hm, BitVec.and_allOnes] at himm
  · rwa [dataMask_of_opsWithoutData r hr hm, BitVec.and_allOnes] at hdata
  · rwa [immMask_of_ctlTick r hr hm, and_tickMask_eq_zero] at himm

/-- IMM16 without its lowest bit is bits 47:33 of the word. -/
theorem reserved_of_immOf (w : Word64) : (immOf w).extractLsb' 1 15 = w.extractLsb' 33 15 := by
  apply BitVec.eq_of_getLsbD_eq
  intro i hi
  rw [bit_of_parts _ _ _ _ hi, immOf, bit_of_parts _ _ _ _ (by omega), bit_of_parts _ _ _ _ hi]
  congr 1
  omega

/-- An audio-port word other than RENDER is refused. -/
theorem step_badAudioWord {s : State} {w : Word64} {input : Block} {rest : List Request}
    (hin : s.inbox = .audio (bytesOfWord w) input false :: rest) (hw : w ≠ renderWord) :
    step s = .refused .badAudioWord := by
  have hdecode : decode .audio (bytesOfWord w) = .error .badAudioWord := by simp [decode, hw]
  simp [step, State.fetch, hin, fetchAudio, hdecode]

/-- Settles O7: an ILLEGAL word is one that the decoder does not accept, and what is nonzero in the
second clause is zero in every word that matches a row. -/
theorem unlistedWordFailsIllegal : Obligations.UnlistedWordFailsIllegal := by
  refine ⟨fun s w rendering rest hin hrows => ?_, fun w hbad => ?_,
    fun s w input rest => step_badAudioWord⟩
  · rw [← isSome_decodeCommand, Option.isSome_eq_false_iff, Option.isNone_iff_eq_none] at hrows
    exact LastErr.step_illegal hin hrows
  · refine List.any_eq_false.2 fun r hr h => ?_
    obtain ⟨hop, hrsv, himm, hdata, htick⟩ := unused_of_encodes hr h
    rw [reserved_of_immOf] at htick
    obtain hbad | hbad | ⟨hmem, hbad⟩ | ⟨hmem, hbad⟩ | ⟨hmem, hbad⟩ := hbad
    · exact hbad hop
    · exact hbad hrsv
    · exact hbad (himm hmem)
    · exact hbad (hdata hmem)
    · exact hbad (htick hmem)

/-! ## The spec's example lines (30_encoding.md R156) -/

/-- Settles O4: each line evaluated. -/
theorem specExampleLinesAssembleAndDecode : Obligations.SpecExampleLinesAssembleAndDecode := by
  intro e he
  fin_cases he <;> exact ⟨by decide, by decide⟩

end Sys2Proof.Proofs.Encoding
end

section
/-! Responses (40_command_port.md R183): a command ends in one of two ways, so it gives a next state; what
its response says of it is `LastErr.exec_answered`, and what data it carries is here. -/

namespace Sys2Proof.Proofs.Responses

open Sys2Proof Sys2Proof.Machine Sys2Proof.Laws.State Sys2Proof.Laws.Ops Sys2Proof.Laws.Encoding
open Sys2Proof.Proofs.LastErr

/-! ## The words of a command and of its response -/

/-- The word of an instruction carries its opcode in bits 63:56 (30_encoding.md R140). -/
theorem opOf_encode (i : Instr) : opOf (encode i) = i.opcode := by
  cases i with
  | render => rfl
  | _ => exact opOf_formatC ..

/-- The RDATA field of a response is its data (30_encoding.md R142). -/
theorem dataOf_responseWord (op : BitVec 8) (c : Code) (v : BitVec 32) :
    dataOf (responseWord op c v) = v :=
  BitVec.extractLsb'_append_eq_right (a := op ++ 0#16 ++ c.number)

/-- A response tells its data, whatever code it carries. -/
theorem data_eq_of_responseWord_eq {op : BitVec 8} {c d : Code} {v w : BitVec 32}
    (h : responseWord op c v = responseWord op d w) : v = w := by
  rw [← dataOf_responseWord op c v, h, dataOf_responseWord]

/-! ## The end of a command -/

/-- REG_READ ends with data; every other command ends with its checks and effect alone. -/
theorem regRead_or_exec_eq_complete {i : Instr} (s : State) (hr : i ≠ .render) :
    (∃ reg, i = .regRead reg) ∨ ∃ r, exec i s = s.complete i.opcode r := by
  cases i with
  | render => exact absurd rfl hr
  | regRead reg => exact .inl ⟨reg, rfl⟩
  -- the commands without checks
  | nop | errClear | softReset | oscSetFreq | seqStop | ctlTick => exact .inr ⟨.ok _, rfl⟩
  | _ => exact .inr ⟨_, rfl⟩

theorem complete_total (op : BitVec 8) (s : State) (r : Except Code State) :
    ∃ t, s.complete op r = .next t := by
  cases r with
  | ok u => exact ⟨_, complete_ok op s u⟩
  | error c => exact ⟨_, complete_error op s c⟩

theorem completeData_total (op : BitVec 8) (s : State) (r : Except Code (BitVec 32)) :
    ∃ t, s.completeData op r = .next t := by
  cases r with
  | ok v => exact ⟨_, completeData_ok op s v⟩
  | error c => exact ⟨_, completeData_error op s c⟩

/-- No command stops the machine or is refused. -/
theorem exec_total {i : Instr} (s : State) (hr : i ≠ .render) : ∃ t, exec i s = .next t := by
  obtain ⟨reg, rfl⟩ | ⟨r, hexec⟩ := regRead_or_exec_eq_complete s hr
  · exact completeData_total _ s (s.readReg reg)
  · rw [hexec]
    exact complete_total _ s r

/-- A command that ends with its checks and effect alone responds with RDATA = 0, completed or failed. -/
theorem data_eq_zero_of_complete {op : BitVec 8} {s t : State} {r : Except Code State} {c : Code}
    {v : BitVec 32} {sent : List Word64} (h : s.complete op r = .next t)
    (hresp : t.responses = responseWord op c v :: sent) : v = 0#32 := by
  obtain ⟨u, -, rfl⟩ | ⟨d, -, rfl⟩ := complete_next h <;>
    exact (data_eq_of_responseWord_eq (List.cons.inj hresp).1).symm

/-- Only REG_READ returns data (40_command_port.md R187, R190). -/
theorem regRead_of_data_ne_zero {i : Instr} {s t : State} {c : Code} {v : BitVec 32}
    {sent : List Word64} (hr : i ≠ .render) (h : exec i s = .next t)
    (hresp : t.responses = responseWord i.opcode c v :: sent) (hv : v ≠ 0#32) :
    ∃ reg, i = .regRead reg := by
  obtain hread | ⟨r, hexec⟩ := regRead_or_exec_eq_complete s hr
  · exact hread
  · exact absurd (data_eq_zero_of_complete (hexec.symm.trans h) hresp) hv

/-- Settles O11: `exec_total` gives the next state, `exec_answered` its response and what a failure
leaves unchanged, and `step_illegal` the step that takes an ILLEGAL word. -/
theorem commandAnswersOnceAndFailsPrecisely : Obligations.CommandAnswersOnceAndFailsPrecisely := by
  refine ⟨fun i s hr => ?_, opOf_encode, fun s w rendering rest => step_illegal⟩
  obtain ⟨t, ht⟩ := exec_total s hr
  cases exec_answered hr ht with
  | completed v response _ =>
    exact ⟨t, .ok, v, ht, response, fun hne => absurd rfl hne, regRead_of_data_ne_zero hr ht response⟩
  | failed c _ raised =>
    subst raised
    exact ⟨_, c, 0#32, ht, raise_responses s i.opcode c, fun _ => ⟨rfl, rfl⟩, fun hne => absurd rfl hne⟩

end Sys2Proof.Proofs.Responses
end

section
/-! The decoder and the encoder (30_encoding.md sections 3 and 4): each undoes the other. -/

namespace Sys2Proof.Proofs.RoundTrip

open Sys2Proof Sys2Proof.Machine Sys2Proof.Laws.Encoding Sys2Proof.Proofs.Encoding

/-! ## From the instruction to its word and back -/

@[simp] theorem ifZero_true (i : Instr) : ifZero true i = some i := rfl

/-- CTL_TICK's IMM16 has the gate in bit 0 and zeros above. -/
theorem tickImm_fields (gate : Bool) :
    (if gate then 1#16 else 0#16).extractLsb' 1 15 = 0#15 ∧
      (if gate then 1#16 else 0#16)[0] = gate := by
  cases gate <;> decide

/-- The command decoder reads each command's own word back. -/
theorem decodeCommand_encode {i : Instr} (h : i ≠ .render) : decodeCommand (encode i) = some i := by
  cases i with
  | render => exact absurd rfl h
  | ctlTick gate now =>
    obtain ⟨hzero, hgate⟩ := tickImm_fields gate
    simp [encode, decodeCommand, hzero, hgate]
  | _ => simp [encode, decodeCommand]

/-- On the command port a transfer is decoded as its word is. -/
theorem decode_command_bytesOfWord {w : Word64} {i : Instr} (h : decodeCommand w = some i) :
    decode .command (bytesOfWord w) = .ok i := by
  simp [decode, h]

/-- Every instruction but RENDER belongs to the command port. -/
theorem port_of_ne_render {i : Instr} (h : i ≠ .render) : i.port = .command := by
  cases i with
  | render => exact absurd rfl h
  | _ => rfl

/-- Settles O1: RENDER's word is the audio port's own; every other word is read by the command
decoder. -/
theorem decodeOfEncodeIsInstruction : Obligations.DecodeOfEncodeIsInstruction := by
  intro i
  by_cases h : i = .render
  · subst h
    rfl
  · rw [port_of_ne_render h]
    exact decode_command_bytesOfWord (decodeCommand_encode h)

/-! ## From the word to its instruction and back -/

/-- An instruction whose unused fields had to be zero was read from a word that has them zero. -/
theorem ifZero_eq_some {unused : Bool} {i j : Instr} (h : ifZero unused i = some j) :
    unused = true ∧ i = j := by
  cases unused with
  | true => exact ⟨rfl, Option.some.inj h⟩
  | false => cases h

/-- An IMM16 with nothing above bit 0 is that bit. -/
theorem imm_of_gate {imm : BitVec 16} (h : imm.extractLsb' 1 15 = 0#15) :
    (if imm.getLsbD 0 then 1#16 else 0#16) = imm := by
  have hmask : imm &&& 0xFFFE#16 = 0#16 := (and_tickMask_eq_zero imm).2 h
  apply BitVec.eq_of_getLsbD_eq
  intro i hi
  cases i with
  | zero => cases imm.getLsbD 0 <;> rfl
  | succ i =>
    have hbit : imm.getLsbD (i + 1) = false := by
      rw [Nat.add_comm, ← bit_of_parts imm 1 15 i (by omega), h, BitVec.getLsbD_zero]
    rw [hbit]
    cases imm.getLsbD 0 <;> simp

/-- The command decoder accepts no word but the instruction's own. -/
theorem encode_of_decodeCommand {w : Word64} {i : Instr} (h : decodeCommand w = some i) :
    w = encode i := by
  obtain ⟨hrsv, hop, -⟩ := decodeCommand_some h
  rw [← formatC_fields hrsv, hop]
  unfold decodeCommand at h
  rw [if_pos hrsv] at h
  split at h
  -- an unlisted OP; SEQ_SET_NOTE, which leaves no field unused; CTL_TICK, which fixes bits of IMM16
  case h_27 => cases h
  case h_22 => obtain rfl := Option.some.inj h; rfl
  case h_26 =>
    obtain ⟨hz, rfl⟩ := ifZero_eq_some h
    simp only [encode, Instr.opcode, imm_of_gate (of_decide_eq_true hz)]
  all_goals
    obtain ⟨hz, rfl⟩ := ifZero_eq_some h
    simp only [Bool.and_eq_true, decide_eq_true_eq] at hz
    simp only [encode, Instr.opcode, hz]

/-- RENDER is no command. -/
theorem ne_render_of_decodeCommand {w : Word64} {i : Instr} (h : decodeCommand w = some i) :
    i ≠ .render := by
  rintro rfl
  obtain ⟨-, -, hlisted⟩ := decodeCommand_some h
  revert hlisted
  decide

/-- Settles O2. -/
theorem decodedBytesAreTheEncoding : Obligations.DecodedBytesAreTheEncoding := by
  intro p bytes i h
  unfold decode at h
  split at h
  · cases h
  · next w hw =>
    rw [bytesOfWord_of_wordOfBytes hw]
    cases p with
    | command =>
      simp only at h
      split at h
      · next j hj =>
        obtain rfl := Except.ok.inj h
        exact ⟨(port_of_ne_render (ne_render_of_decodeCommand hj)).symm,
          congrArg bytesOfWord (encode_of_decodeCommand hj)⟩
      · cases h
    | audio =>
      simp only at h
      split at h
      · next hr =>
        obtain rfl := Except.ok.inj h
        exact ⟨rfl, by rw [hr]; rfl⟩
      · cases h

end Sys2Proof.Proofs.RoundTrip
end

section
/-! What an instruction can do, said once: a command that completes has made one of the changes below, one
that fails has raised a code of its entry, and RENDER writes the audio domain. Every invariant and every
frame of the machine is derived from these. -/

namespace Sys2Proof.Proofs.Changes

open Sys2Proof Sys2Proof.Machine Sys2Proof.Laws.State Sys2Proof.Laws.Ops
open Sys2Proof.Proofs.LastErr

/-! ## The eight f32 parameters as one -/

/-- The upper bound that FLT_SET_CUTOFF has in CONFIG (40_command_port.md R184). -/
theorem cutoffMaxConfig_eq : cutoffMaxConfig = 0x47BB7FFF#32 := by decide

/-- Each of the eight commands is store_f32 between its parameter's bounds, a NaN stored as the lower one
(40_command_port.md R186). -/
theorem exec_f32Command (p : F32Param) (x : F32) (s : State) :
    exec (Spec.f32Command p x) s =
      s.complete (Spec.f32Command p x).opcode
        (s.storeF32 p x (Spec.f32Min p) (Spec.f32Max s p) (Spec.f32Min p)) := by
  cases p with
  | cutoff =>
    show s.complete 0x20#8 _ = _
    cases hp : s.phase <;> simp only [Spec.f32Max, hp, ← cutoffMaxConfig_eq] <;> rfl
  | _ => rfl

/-- A value that `Spec.f32Command p x` stores: in CONFIG the operand, inside its legal set; in RUNNING the
operand clamped (40_command_port.md R184). -/
def Storable (s : State) (p : F32Param) (x v : F32) : Prop :=
  (s.phase = .config ∧ outside x (Spec.f32Min p) (Spec.f32Max s p) = false ∧ v = x) ∨
    (s.phase = .running ∧ v = F32.clamp x (Spec.f32Min p) (Spec.f32Max s p) (Spec.f32Min p))

/-! ## The changes -/

/-- The effect `u` that the instruction `i` can have on the state `s` before it responds, with what its
checks have made sure of. -/
inductive Change : Instr → State → State → Prop
  | nop (s : State) : Change .nop s s
  | regRead (reg : BitVec 16) (s : State) : Change (.regRead reg) s s
  | errClear (s : State) : Change .errClear s { s with lastErr := .ok }
  | softReset (s : State) : Change .softReset s s.applyReset
  | sampleRate {s : State} {hz : F32} (config : s.phase = .config)
      (legal : outside hz fsMin fsMax = false) :
      Change (.cfgSampleRate hz) s { s with shadow := { s.shadow with fs := some hz } }
  | blockSize {s : State} {n : BitVec 16} (config : s.phase = .config) (low : 1 ≤ n.toNat)
      (high : n.toNat ≤ s.params.blockMax) :
      Change (.cfgBlockSize n) s { s with shadow := { s.shadow with block := some n } }
  | engineMode {s : State} (imm : BitVec 16) {m : EngineMode}
      (valid : s.phase = .running → s.modeParamsValid m = true) :
      Change (.engSetMode imm) s { s with shadow := { s.shadow with engineMode := some m } }
  | start {s : State} {fs : F32} {blk : BitVec 16} {m : EngineMode} (config : s.phase = .config)
      (rate : s.shadow.fs = some fs) (size : s.shadow.block = some blk)
      (mode : s.shadow.engineMode = some m) (valid : s.modeParamsValid m = true) :
      Change .start s { s with phase := .running, audio := startedAudio fs blk s.mb.trig }
  | freq (s : State) (hz : F32) :
      Change (.oscSetFreq hz) s { s with mb := { s.mb with freq := some (storedFreq hz) } }
  | waveform (s : State) (imm : BitVec 16) (wf : Waveform) :
      Change (.oscSetWaveform imm) s { s with shadow := { s.shadow with waveform := some wf } }
  | f32 {s : State} {p : F32Param} {x v : F32} (storable : Storable s p x v) :
      Change (Spec.f32Command p x) s { s with shadow := s.shadow.setF32 p (F32.plusZero v) }
  | filterMode (s : State) (imm : BitVec 16) (m : FilterMode) :
      Change (.fltSetMode imm) s { s with shadow := { s.shadow with fmode := some m } }
  | delay {s : State} {n : BitVec 32} (below : n.toNat < s.params.dlyCap) :
      Change (.dlySetDelay n) s { s with shadow := { s.shadow with delay := some n } }
  | length {s : State} {n : BitVec 16} {v : Nat} (stopped : s.seq.run = false)
      (ranged : s.rangedNat n.toNat 1 s.params.seqMax = .ok v) :
      Change (.seqSetLength n) s { s with seq := { s.seq with len := some (BitVec.ofNat 5 v) } }
  | note {s : State} {i : BitVec 16} {n : BitVec 32} {v : Nat} (below : i.toNat < s.params.seqMax)
      (ranged : s.rangedNat n.toNat 0 noteMax = .ok v) :
      Change (.seqSetNote i n) s { s with note := s.note.write i.toNat (BitVec.ofNat 7 v) }
  | stepMs {s : State} {ms : BitVec 32} {v : Nat}
      (ranged : s.rangedNat ms.toNat 1 (2 ^ 32 - 1) = .ok v) :
      Change (.seqSetStepMs ms) s { s with seq := { s.seq with stepMs := some (BitVec.ofNat 32 v) } }
  | seqStart {s : State} (now : BitVec 32) {len : BitVec 5} (length : s.seq.len = some len)
      (time : s.seq.stepMs.isSome = true) (notes : s.notesValid len.toNat = true) :
      Change (.seqStart now) s
        { s with
          seq := { s.seq with run := true, step := 0#4, lastMs := now }
          mb := { s.mb with freq := some (s.stepFreq 0), trig := s.mb.trig + 1#32 } }
  | seqStop (s : State) : Change .seqStop s { s with seq := { s.seq with run := false } }
  | tickStep {s : State} {now : BitVec 32} (gate : Bool) (due : s.seq.due now = true) :
      Change (.ctlTick gate now) s
        { s with
          seq := { s.seq with step := s.seq.nextStep, lastMs := now }
          mb := { freq := some (s.stepFreq s.seq.nextStep.toNat), gate := gate,
                  trig := s.mb.trig + 1#32 } }
  | tickGate (s : State) (gate : Bool) (now : BitVec 32) :
      Change (.ctlTick gate now) s { s with mb := { s.mb with gate := gate } }

/-- A code that the entry of `i` lists, and CONFIG_RANGE in CONFIG alone (60_exceptions.md R484). -/
def Listed (i : Instr) (s : State) (c : Code) : Prop :=
  c ∈ Spec.mayRaise i ∧ (c = .configRange → s.phase = .config)

/-- How a command that gives the next state `t` has ended. -/
inductive Ended (i : Instr) (s t : State) : Prop
  | answered (u : State) (v : BitVec 32) (change : Change i s u) (response : t = u.respond i.opcode v)
  | failed (c : Code) (listed : Listed i s c) (raised : t = s.raise i.opcode c)

/-! ## Checks and effects that the entry of a command allows -/

/-- Checks and effect of `i` that are within its entry. -/
def Within (i : Instr) (s : State) : Except Code State → Prop
  | .ok u => Change i s u
  | .error c => Listed i s c

@[simp] theorem within_ok (i : Instr) (s u : State) : Within i s (.ok u) ↔ Change i s u := Iff.rfl

@[simp] theorem within_error (i : Instr) (s : State) (c : Code) :
    Within i s (.error c) ↔ Listed i s c := Iff.rfl

theorem ended_of_complete {i : Instr} {s t : State} {r : Except Code State} (hr : Within i s r)
    (h : s.complete i.opcode r = .next t) : Ended i s t := by
  obtain ⟨u, rfl, rfl⟩ | ⟨c, rfl, rfl⟩ := complete_next h
  · exact .answered u 0#32 hr rfl
  · exact .failed c hr rfl

theorem ended_regRead {reg : BitVec 16} {s t : State} (h : exec (.regRead reg) s = .next t) :
    Ended (.regRead reg) s t := by
  obtain ⟨v, -, rfl⟩ | ⟨c, hc, rfl⟩ := completeData_next h
  · exact .answered s v (.regRead reg s) rfl
  · refine .failed c ?_ rfl
    unfold State.readReg at hc
    split at hc
    · cases hc; simp [Listed, Spec.mayRaise]
    · split at hc <;> cases hc
      simp [Listed, Spec.mayRaise]

theorem mayRaise_f32Command (p : F32Param) (x : F32) :
    Spec.mayRaise (Spec.f32Command p x) = [.configRange] := by
  cases p <;> rfl

theorem ended_f32Command {p : F32Param} {x : F32} {s t : State}
    (h : exec (Spec.f32Command p x) s = .next t) : Ended (Spec.f32Command p x) s t := by
  rw [exec_f32Command] at h
  refine ended_of_complete ?_ h
  cases hr : s.storeF32 p x (Spec.f32Min p) (Spec.f32Max s p) (Spec.f32Min p) with
  | ok u =>
    obtain ⟨v, rfl, hv⟩ := storeF32_ok hr
    exact .f32 hv
  | error c =>
    obtain ⟨rfl, hp, -⟩ := storeF32_error hr
    exact ⟨by simp [mayRaise_f32Command], fun _ => hp⟩

theorem ended_cfgSampleRate {hz : F32} {s t : State} (h : exec (.cfgSampleRate hz) s = .next t) :
    Ended (.cfgSampleRate hz) s t := by
  refine ended_of_complete ?_ h
  split
  · simp [Listed, Spec.mayRaise]
  · next hp =>
    split
    · simp [Listed, Spec.mayRaise, hp]
    · next ho => exact .sampleRate hp (by simpa using ho)

theorem ended_cfgBlockSize {n : BitVec 16} {s t : State} (h : exec (.cfgBlockSize n) s = .next t) :
    Ended (.cfgBlockSize n) s t := by
  refine ended_of_complete ?_ h
  split
  · simp [Listed, Spec.mayRaise]
  · next hp =>
    split
    · simp [Listed, Spec.mayRaise, hp]
    · exact .blockSize hp (by omega) (by omega)

theorem ended_engSetMode {imm : BitVec 16} {s t : State} (h : exec (.engSetMode imm) s = .next t) :
    Ended (.engSetMode imm) s t := by
  refine ended_of_complete ?_ h
  split
  · simp [Listed, Spec.mayRaise]
  · split
    · simp [Listed, Spec.mayRaise]
    · next hv => exact .engineMode imm fun hp => by simpa [hp] using hv

theorem ended_start {s t : State} (h : exec .start s = .next t) : Ended .start s t := by
  refine ended_of_complete ?_ h
  split
  · simp [Listed, Spec.mayRaise]
  · next hp =>
    split
    · next hfs hblk hm =>
      split
      · simp [Listed, Spec.mayRaise]
      · next hv =>
        split
        · simp [Listed, Spec.mayRaise, hp]
        · exact .start hp hfs hblk hm (by simpa using hv)
    · simp [Listed, Spec.mayRaise]

theorem ended_oscSetWaveform {imm : BitVec 16} {s t : State}
    (h : exec (.oscSetWaveform imm) s = .next t) : Ended (.oscSetWaveform imm) s t := by
  refine ended_of_complete ?_ h
  split
  · simp [Listed, Spec.mayRaise]
  · exact .waveform s imm _

theorem ended_fltSetMode {imm : BitVec 16} {s t : State} (h : exec (.fltSetMode imm) s = .next t) :
    Ended (.fltSetMode imm) s t := by
  refine ended_of_complete ?_ h
  split
  · simp [Listed, Spec.mayRaise]
  · exact .filterMode s imm _

theorem ended_dlySetDelay {n : BitVec 32} {s t : State} (h : exec (.dlySetDelay n) s = .next t) :
    Ended (.dlySetDelay n) s t := by
  refine ended_of_complete ?_ h
  split
  · simp [Listed, Spec.mayRaise]
  · exact .delay (by omega)

theorem ended_seqSetLength {n : BitVec 16} {s t : State} (h : exec (.seqSetLength n) s = .next t) :
    Ended (.seqSetLength n) s t := by
  refine ended_of_complete ?_ h
  split
  · simp [Listed, Spec.mayRaise]
  · next hrun =>
    split
    · next hc =>
      obtain ⟨rfl, hp, -⟩ := rangedNat_error hc
      simp [Listed, Spec.mayRaise, hp]
    · next hv => exact .length (by simpa using hrun) hv

theorem ended_seqSetNote {i : BitVec 16} {n : BitVec 32} {s t : State}
    (h : exec (.seqSetNote i n) s = .next t) : Ended (.seqSetNote i n) s t := by
  refine ended_of_complete ?_ h
  split
  · simp [Listed, Spec.mayRaise]
  · split
    · next hc =>
      obtain ⟨rfl, hp, -⟩ := rangedNat_error hc
      simp [Listed, Spec.mayRaise, hp]
    · next hv => exact .note (by omega) hv

theorem ended_seqSetStepMs {ms : BitVec 32} {s t : State} (h : exec (.seqSetStepMs ms) s = .next t) :
    Ended (.seqSetStepMs ms) s t := by
  refine ended_of_complete ?_ h
  split
  · next hc =>
    obtain ⟨rfl, hp, -⟩ := rangedNat_error hc
    simp [Listed, Spec.mayRaise, hp]
  · next hv => exact .stepMs hv

theorem ended_seqStart {now : BitVec 32} {s t : State} (h : exec (.seqStart now) s = .next t) :
    Ended (.seqStart now) s t := by
  refine ended_of_complete ?_ h
  split
  · next hlen hms =>
    split
    · next hnotes => exact .seqStart now hlen (by simp [hms]) hnotes
    · simp [Listed, Spec.mayRaise]
  · simp [Listed, Spec.mayRaise]

theorem ended_ctlTick {gate : Bool} {now : BitVec 32} {s t : State}
    (h : exec (.ctlTick gate now) s = .next t) : Ended (.ctlTick gate now) s t := by
  refine ended_of_complete (r := .ok _) ?_ h
  split
  · next hdue => exact .tickStep gate hdue
  · exact .tickGate s gate now

/-- How every command ends: the one case analysis over the commands. -/
theorem exec_ended {i : Instr} {s t : State} (hr : i ≠ .render) (h : exec i s = .next t) :
    Ended i s t := by
  cases i with
  | render => exact absurd rfl hr
  | nop => exact ended_of_complete (r := .ok _) (Change.nop s) h
  | regRead reg => exact ended_regRead h
  | errClear => exact ended_of_complete (r := .ok _) (Change.errClear s) h
  | softReset => exact ended_of_complete (r := .ok _) (Change.softReset s) h
  | cfgSampleRate hz => exact ended_cfgSampleRate h
  | cfgBlockSize n => exact ended_cfgBlockSize h
  | engSetMode imm => exact ended_engSetMode h
  | start => exact ended_start h
  | oscSetFreq hz => exact ended_of_complete (r := .ok _) (Change.freq s hz) h
  | oscSetWaveform imm => exact ended_oscSetWaveform h
  | oscSetAmp x => exact ended_f32Command (p := .amp) h
  | envSetAttack x => exact ended_f32Command (p := .attack) h
  | envSetDecay x => exact ended_f32Command (p := .decay) h
  | envSetSustain x => exact ended_f32Command (p := .sustain) h
  | envSetRelease x => exact ended_f32Command (p := .release) h
  | fltSetCutoff x => exact ended_f32Command (p := .cutoff) h
  | fltSetRes x => exact ended_f32Command (p := .res) h
  | fltSetMode imm => exact ended_fltSetMode h
  | dlySetDelay n => exact ended_dlySetDelay h
  | dlySetFeedback x => exact ended_f32Command (p := .feedback) h
  | seqSetLength n => exact ended_seqSetLength h
  | seqSetNote i n => exact ended_seqSetNote h
  | seqSetStepMs ms => exact ended_seqSetStepMs h
  | seqStart now => exact ended_seqStart h
  | seqStop => exact ended_of_complete (r := .ok _) (Change.seqStop s) h
  | ctlTick gate now => exact ended_ctlTick h

/-- Settles O13: a response that carries an error code is the one of a command that failed, with a listed
code; RENDER sends none. -/
theorem commandRaisesOnlyItsListedCodes : Obligations.CommandRaisesOnlyItsListedCodes := by
  intro i s t c v h hresp hc
  by_cases hr : i = .render
  · subst hr
    exact absurd (hresp.symm.trans (render_keeps h).2) (List.cons_ne_self _ _)
  · cases exec_ended hr h with
    | failed d listed raised =>
      subst raised
      obtain rfl : c = d :=
        code_eq_of_responseWord_eq (List.cons.inj (hresp.symm.trans (raise_responses ..))).1
      exact listed
    | answered u w change response =>
      subst response
      exact absurd (code_eq_of_responseWord_eq
        (List.cons.inj (hresp.symm.trans (respond_responses ..))).1) hc

/-! ## Properties of CORE's state that a step keeps -/

/-- `s` and `t` agree on CORE's state but for LAST_ERR: the arguments, the control domain and the audio
domain. What is left is LAST_ERR and the ports' streams. -/
structure SameCore (s t : State) : Prop where
  params : t.params = s.params
  phase : t.phase = s.phase
  shadow : t.shadow = s.shadow
  seq : t.seq = s.seq
  note : t.note = s.note
  mb : t.mb = s.mb
  audio : t.audio = s.audio

/-- A property of the arguments and the two domains that every change and every RUNNING block keep. -/
structure Kept (P : State → Prop) : Prop where
  ofCore : ∀ {s t : State}, P s → SameCore s t → P t
  change : ∀ {i : Instr} {s u : State}, Change i s u → P s → P u
  render : ∀ {s : State}, s.phase = .running → P s → P { s with audio := s.renderBlock.audio }

theorem Kept.exec {P : State → Prop} (hP : Kept P) {i : Instr} {s t : State}
    (h : exec i s = .next t) (hs : P s) : P t := by
  by_cases hr : i = .render
  · subst hr
    obtain ⟨-, rfl⟩ | ⟨hp, -, rfl⟩ := execRender_next h
    · exact hP.ofCore hs ⟨rfl, rfl, rfl, rfl, rfl, rfl, rfl⟩
    · exact hP.ofCore (hP.render hp hs) ⟨rfl, rfl, rfl, rfl, rfl, rfl, rfl⟩
  · cases exec_ended hr h with
    | answered u v change response =>
      subst response
      exact hP.ofCore (hP.change change hs) ⟨rfl, rfl, rfl, rfl, rfl, rfl, rfl⟩
    | failed c listed raised =>
      subst raised
      exact hP.ofCore hs ⟨rfl, rfl, rfl, rfl, rfl, rfl, rfl⟩

/-- Such a property holds after every step: taking the request changes nothing it speaks of, and a hardware
reset is SOFT_RESET's effect. -/
theorem Kept.step {P : State → Prop} (hP : Kept P) {s t : State} (h : step s = .next t) (hs : P s) :
    P t := by
  obtain ⟨-, rfl⟩ | ⟨i, u, hf, h⟩ | hf := step_next h
  · exact hs
  · refine hP.exec h (hP.ofCore hs ?_)
    obtain ⟨_, _, _, -, -, -, rfl⟩ | ⟨_, _, _, -, -, rfl⟩ := fetch_run hf <;>
      exact ⟨rfl, rfl, rfl, rfl, rfl, rfl, rfl⟩
  · obtain ⟨_, -, rfl⟩ | ⟨_, _, _, _, -, -, rfl⟩ := fetch_done hf
    · exact hP.ofCore (hP.change (.softReset s) hs) ⟨rfl, rfl, rfl, rfl, rfl, rfl, rfl⟩
    · exact hP.ofCore hs ⟨rfl, rfl, rfl, rfl, rfl, rfl, rfl⟩

end Sys2Proof.Proofs.Changes
end

section
/-! The envelope (42_envelope.md R262, R264): one equation per event and per stage, each ramp by the level
it would reach, and the target that a ramp of zero time reaches at once. -/

namespace Sys2Proof.Proofs.Envelope

open Sys2Proof Sys2Proof.Machine Sys2Proof.Laws.F32

/-! ## Events -/

theorem envEvents_of_trigger {gate trig : Bool} {e : EnvState}
    (h : trig = true ∨ (gate = true ∧ e.prevGate = false)) :
    envEvents gate trig e = { e with stage := .attack, prevGate := gate } :=
  if_pos (by simpa using h)

theorem envEvents_of_low_gate {e : EnvState} (hidle : e.stage ≠ .idle) (hrelease : e.stage ≠ .release) :
    envEvents false false e = { stage := .release, level := e.level, prevGate := false, relStart := e.level } := by
  cases hs : e.stage <;> simp_all [envEvents]

theorem envEvents_of_quiet {gate : Bool} {e : EnvState}
    (h : (gate = true ∧ e.prevGate = true) ∨ (gate = false ∧ (e.stage = .idle ∨ e.stage = .release))) :
    envEvents gate false e = { e with prevGate := gate } := by
  obtain ⟨rfl, hp⟩ | ⟨rfl, hs | hs⟩ := h
  · simp [envEvents, hp]
  · simp [envEvents, hs]
  · simp [envEvents, hs]

/-- Settles O40: one equation per kind of event. -/
theorem envelopeEventsKeepTheLevel : Obligations.EnvelopeEventsKeepTheLevel := by
  refine fun gate trig e => ⟨envEvents_of_trigger, ?_, ?_⟩
  · rintro rfl rfl
    exact envEvents_of_low_gate
  · rintro rfl
    exact envEvents_of_quiet

/-- An event keeps the level, and remembers the gate. -/
theorem envEvents_level (gate trig : Bool) (e : EnvState) :
    (envEvents gate trig e).level = e.level ∧ (envEvents gate trig e).prevGate = gate := by
  unfold envEvents
  split
  · exact ⟨rfl, rfl⟩
  · split <;> exact ⟨rfl, rfl⟩

/-- The release starts from the level it finds; no other event moves its start. -/
theorem envEvents_relStart (gate trig : Bool) (e : EnvState) :
    (envEvents gate trig e).relStart = e.relStart ∨ (envEvents gate trig e).relStart = e.level := by
  unfold envEvents
  split
  · exact .inl rfl
  · split
    · exact .inr rfl
    · exact .inl rfl

/-- No event enters IDLE. -/
theorem stage_of_envEvents_idle {gate trig : Bool} {e : EnvState}
    (h : (envEvents gate trig e).stage = .idle) : e.stage = .idle := by
  unfold envEvents at h
  split at h
  · cases h
  · split at h
    · cases h
    · exact h

/-! ## Ramps -/

/-- The level that ATTACK reaches, before the test for completion. -/
def attackNext (l : EnvLatch) (level : F32) : F32 :=
  unstall F32.nextUp level (l.attackInc.elim F32.one (F32.add level))

/-- The level that DECAY reaches, before the test for completion. -/
def decayNext (l : EnvLatch) (level : F32) : F32 :=
  unstall F32.nextDown level (l.decayInc.elim l.sustain (F32.sub level))

/-- The level that RELEASE reaches, before the test for completion. -/
def releaseNext (l : EnvLatch) (relStart level : F32) : F32 :=
  unstall F32.nextDown level
    (if F32.eq l.release F32.zero then F32.zero else F32.sub level (releaseInc l relStart))

section

variable {l : EnvLatch} {e : EnvState}

theorem envAdvance_idle (h : e.stage = .idle) : envAdvance l e = { e with level := F32.zero } := by
  simp [envAdvance, h]

theorem envAdvance_attack (h : e.stage = .attack) :
    envAdvance l e =
      if F32.le F32.one (attackNext l e.level) then { e with level := F32.one, stage := .decay }
      else { e with level := attackNext l e.level } := by
  obtain ⟨stage, level, prevGate, relStart⟩ := e
  obtain rfl : stage = .attack := h
  show advanceAttack l _ = _
  unfold advanceAttack attackNext
  cases l.attackInc <;> rfl

theorem envAdvance_decay (h : e.stage = .decay) :
    envAdvance l e =
      if F32.le (decayNext l e.level) l.sustain then { e with level := l.sustain, stage := .sustain }
      else { e with level := decayNext l e.level } := by
  obtain ⟨stage, level, prevGate, relStart⟩ := e
  obtain rfl : stage = .decay := h
  show advanceDecay l _ = _
  unfold advanceDecay decayNext
  cases l.decayInc <;> rfl

theorem envAdvance_sustain (h : e.stage = .sustain) :
    envAdvance l e = { e with level := l.sustain } := by
  simp [envAdvance, h]

theorem envAdvance_release (h : e.stage = .release) :
    envAdvance l e =
      if F32.le (releaseNext l e.relStart e.level) F32.zero then
        { e with level := F32.zero, stage := .idle }
      else { e with level := releaseNext l e.relStart e.level } := by
  obtain ⟨stage, level, prevGate, relStart⟩ := e
  obtain rfl : stage = .release := h
  rfl

/-- An advance keeps the gate and the start of the release. -/
theorem envAdvance_keeps (l : EnvLatch) (e : EnvState) :
    (envAdvance l e).prevGate = e.prevGate ∧ (envAdvance l e).relStart = e.relStart := by
  cases h : e.stage with
  | idle => rw [envAdvance_idle h]; exact ⟨rfl, rfl⟩
  | attack => rw [envAdvance_attack h]; split <;> exact ⟨rfl, rfl⟩
  | decay => rw [envAdvance_decay h]; split <;> exact ⟨rfl, rfl⟩
  | sustain => rw [envAdvance_sustain h]; exact ⟨rfl, rfl⟩
  | release => rw [envAdvance_release h]; split <;> exact ⟨rfl, rfl⟩

/-- The envelope comes to IDLE at +0.0 only (42_envelope.md R265). -/
theorem level_of_idle (h : (envAdvance l e).stage = .idle) : (envAdvance l e).level = F32.zero := by
  cases hs : e.stage with
  | idle => rw [envAdvance_idle hs]
  | attack => rw [envAdvance_attack hs] at h; split at h <;> simp [hs] at h
  | decay => rw [envAdvance_decay hs] at h; split at h <;> simp [hs] at h
  | sustain => rw [envAdvance_sustain hs] at h; simp [hs] at h
  | release =>
    rw [envAdvance_release hs] at h ⊢
    split
    · rfl
    · next hle => simp [hle, hs] at h

end

/-! ## Ramps of zero time -/

theorem isFinite_of_key_eq {a b : F32} (h : F32.key a = F32.key b) (hb : F32.isFinite b = true) :
    F32.isFinite a = true := by
  rw [isFinite_iff] at hb ⊢
  rw [← natAbs_key a, h, natAbs_key]
  exact hb

theorem le_self {t : F32} (h : F32.isNaN t = false) : F32.le t t = true :=
  (le_iff t t).2 ⟨h, h, le_refl _⟩

/-- A falling ramp whose next level is its target is at or below it, stalled or not. -/
theorem unstall_nextDown_le {t : F32} (h : F32.isFinite t = true) (level : F32) :
    F32.le (unstall F32.nextDown level t) t = true := by
  have hn : F32.isNaN t = false := isNaN_of_isFinite h
  unfold unstall
  split
  · next heq =>
    obtain ⟨-, -, hk⟩ := (eq_iff _ _).1 heq
    have hlevel : F32.isFinite level = true := isFinite_of_key_eq hk.symm h
    exact (le_iff _ _).2 ⟨isNaN_nextDown hlevel, hn, by rw [key_nextDown hlevel]; omega⟩
  · exact le_self hn

/-- A rising ramp whose next level is its target is at or above it, stalled or not. -/
theorem le_unstall_nextUp {t : F32} (h : F32.isFinite t = true) (level : F32) :
    F32.le t (unstall F32.nextUp level t) = true := by
  have hn : F32.isNaN t = false := isNaN_of_isFinite h
  unfold unstall
  split
  · next heq =>
    obtain ⟨-, -, hk⟩ := (eq_iff _ _).1 heq
    have hlevel : F32.isFinite level = true := isFinite_of_key_eq hk.symm h
    exact (le_iff _ _).2 ⟨hn, isNaN_nextUp hlevel, by rw [key_nextUp hlevel]; omega⟩
  · exact le_self hn

theorem isFinite_of_legalF32 {v : F32} (h : legalF32 F32.zero F32.one v = true) :
    F32.isFinite v = true := by
  simp only [legalF32, Bool.and_eq_true, Bool.not_eq_true'] at h
  obtain ⟨⟨hlow, hhigh⟩, -⟩ := h
  obtain ⟨-, -, hk0⟩ := (le_iff _ _).1 hlow
  obtain ⟨-, -, hk1⟩ := (le_iff _ _).1 hhigh
  rw [key_zero] at hk0
  rw [key_one] at hk1
  have := natAbs_key v
  rw [isFinite_iff]
  omega

/-- Settles O42: in each stage a zero time makes the target itself the next level. -/
theorem zeroTimesCompleteAtOnce : Obligations.ZeroTimesCompleteAtOnce := by
  intro a d sus r fs e
  refine ⟨fun ha hs => ?_, fun hd hs hsus => ?_, fun hr hs => ?_⟩
  · have hnext : attackNext (envSlopes a d sus r fs) e.level = unstall F32.nextUp e.level F32.one := by
      simp [attackNext, envSlopes, ha]
    rw [envAdvance_attack hs, hnext, if_pos (le_unstall_nextUp (by decide) e.level)]
    rfl
  · have hnext : decayNext (envSlopes a d sus r fs) e.level = unstall F32.nextDown e.level sus := by
      simp [decayNext, envSlopes, hd]
    rw [envAdvance_decay hs, hnext]
    exact if_pos (unstall_nextDown_le (isFinite_of_legalF32 hsus) e.level)
  · have hnext : releaseNext (envSlopes a d sus r fs) e.relStart e.level =
        unstall F32.nextDown e.level F32.zero := by
      simp [releaseNext, envSlopes, hr]
    rw [envAdvance_release hs, hnext, if_pos (unstall_nextDown_le (by decide) e.level)]
    rfl

end Sys2Proof.Proofs.Envelope
end

section
/-! The structural invariant of CORE: it holds after reset, and every change and every block keep it. -/

namespace Sys2Proof.Proofs.Structure

open Sys2Proof Sys2Proof.Machine Sys2Proof.Laws.State Sys2Proof.Laws.Ops Sys2Proof.Laws.Arrays
open Sys2Proof.Proofs.Changes

/-! ## The parameters of a mode (46_engine.md R432) -/

theorem isSome_eq_true_iff {α : Type} (o : Option α) : o.isSome = true ↔ o ≠ none := by
  cases o <;> simp

theorem voiceParamsValid_iff (s : State) : s.voiceParamsValid = true ↔ Spec.voiceSet s := by
  simp [State.voiceParamsValid, State.paramBits, Spec.voiceSet, isSome_eq_true_iff]

theorem delayParamsValid_iff (s : State) : s.delayParamsValid = true ↔ Spec.delaySet s := by
  simp [State.delayParamsValid, State.paramBits, Spec.delaySet, isSome_eq_true_iff]

/-- The valid bits that START and ENG_SET_MODE test say that the mode's parameters are set. -/
theorem modeParamsValid_iff (s : State) (m : EngineMode) :
    s.modeParamsValid m = true ↔ Spec.modeSet s m := by
  rw [State.modeParamsValid, Bool.and_eq_true, Bool.or_eq_true, Bool.or_eq_true, voiceParamsValid_iff,
    delayParamsValid_iff]
  cases m <;> simp [usesVoice, usesDelay, Spec.modeSet]

theorem ne_none_of_ite_some {α : Type} {o : Option α} (c : Prop) [Decidable c] (v : α) (h : o ≠ none) :
    (if c then some v else o) ≠ none := by
  split
  · simp
  · exact h

/-- No store takes a parameter's value away. -/
theorem modeSet_setF32 {s : State} {m : EngineMode} (p : F32Param) (v : F32) (h : Spec.modeSet s m) :
    Spec.modeSet { s with shadow := s.shadow.setF32 p v } m := by
  have voice : Spec.voiceSet s → Spec.voiceSet { s with shadow := s.shadow.setF32 p v } := by
    simp only [Spec.voiceSet, setF32_waveform, setF32_amp, setF32_attack, setF32_decay, setF32_sustain,
      setF32_release, setF32_cutoff, setF32_res, setF32_fmode]
    rintro ⟨h1, h2, h3, h4, h5, h6, h7, h8, h9, h10⟩
    exact ⟨h1, h2, ne_none_of_ite_some _ v h3, ne_none_of_ite_some _ v h4, ne_none_of_ite_some _ v h5,
      ne_none_of_ite_some _ v h6, ne_none_of_ite_some _ v h7, ne_none_of_ite_some _ v h8,
      ne_none_of_ite_some _ v h9, h10⟩
  have delay : Spec.delaySet s → Spec.delaySet { s with shadow := s.shadow.setF32 p v } := by
    simp only [Spec.delaySet, setF32_delay, setF32_feedback]
    exact fun ⟨h1, h2⟩ => ⟨h1, ne_none_of_ite_some _ v h2⟩
  cases m with
  | voice => exact voice h
  | delay => exact delay h
  | voiceDelay => exact ⟨voice h.1, delay h.2⟩

/-! ## What a RUNNING engine relies on -/

/-- The clause of the invariant on a RUNNING engine. -/
def EngineReady (s : State) : Prop := s.phase = .running → s.engineReady

/-- The engine stays ready where its mode, its rates and the parameters that are set stay. -/
theorem engineReady_of_kept {s u : State} (h : EngineReady s) (phase : u.phase = s.phase)
    (mode : u.shadow.engineMode = s.shadow.engineMode) (fs : u.shadow.fs = s.shadow.fs)
    (block : u.shadow.block = s.shadow.block) (fsAct : u.audio.fsAct = s.audio.fsAct)
    (blkAct : u.audio.blkAct = s.audio.blkAct) (set : ∀ m, Spec.modeSet s m → Spec.modeSet u m) :
    EngineReady u := by
  intro hp
  obtain ⟨m, hm, hv, hfs, hblk⟩ := h (phase ▸ hp)
  exact ⟨m, mode.trans hm, (modeParamsValid_iff u m).2 (set m ((modeParamsValid_iff s m).1 hv)),
    by rw [fs, fsAct, hfs], by rw [block, blkAct, hblk]⟩

theorem engineReady_change {i : Instr} {s u : State} (hc : Change i s u) (h : EngineReady s) :
    EngineReady u := by
  cases hc with
  | nop | regRead => exact h
  | errClear | length | note | stepMs | seqStop =>
    exact engineReady_of_kept h rfl rfl rfl rfl rfl rfl fun _ => id
  | softReset => exact fun hp => by simp at hp
  | sampleRate config | blockSize config => exact fun hp => by simp [config] at hp
  | engineMode imm valid =>
    intro hp
    obtain ⟨-, -, -, hfs, hblk⟩ := h hp
    exact ⟨_, rfl, valid hp, hfs, hblk⟩
  | start config rate size mode valid => exact fun _ => ⟨_, mode, valid, rate, size⟩
  | f32 => exact engineReady_of_kept h rfl (by simp) (by simp) (by simp) rfl rfl fun _ => modeSet_setF32 _ _
  | freq | waveform | filterMode | delay | seqStart | tickStep | tickGate =>
    refine engineReady_of_kept h rfl rfl rfl rfl rfl rfl fun m => ?_
    cases m <;> simp +contextual [Spec.modeSet, Spec.voiceSet, Spec.delaySet]

/-! ## What a running sequencer relies on -/

/-- The clause of the invariant on a running sequencer. -/
def SequencerReady (s : State) : Prop := s.seq.run = true → s.sequencerReady

theorem notesValid_iff (s : State) (n : Nat) :
    s.notesValid n = true ↔ ∀ i < n, s.note.isSet i = true := by
  simp [State.notesValid]

/-- A stored note leaves every set note set. -/
theorem notesValid_write {s : State} {n : Nat} (i : Nat) (v : BitVec 7) (h : s.notesValid n = true) :
    State.notesValid { s with note := s.note.write i v } n = true := by
  rw [notesValid_iff] at h ⊢
  intro j hj
  rw [noteRam_isSet_write, h j hj, Bool.or_true]

/-- The step after the one being played is again one of the sequence's (45_sequencer.md R393). -/
theorem nextStep_lt {s : State} {n : BitVec 5} (hlen : s.seq.len = some n) (hpos : 1 ≤ n.toNat)
    (hle : n.toNat ≤ 16) : s.seq.nextStep.toNat < n.toNat := by
  have hmod := Nat.mod_lt (s.seq.step.toNat + 1) (show 0 < n.toNat by omega)
  simp only [SeqState.nextStep, hlen, Option.map_some, Option.getD_some, BitVec.toNat_ofNat]
  omega

theorem sequencerReady_change {i : Instr} {s u : State} (hc : Change i s u) (hinv : CoreInv s) :
    SequencerReady u := by
  have h : SequencerReady s := hinv.sequencer
  cases hc with
  | nop | regRead | errClear | sampleRate | blockSize | engineMode | start | waveform | f32 | filterMode
    | delay | tickGate => exact h
  | softReset | seqStop => exact nofun
  | length stopped => exact fun hrun => absurd (stopped.symm.trans hrun) (by decide)
  | freq =>
    intro hrun
    obtain ⟨n, hlen, hms, hnotes, -, hstep⟩ := h hrun
    exact ⟨n, hlen, hms, hnotes, rfl, hstep⟩
  | note =>
    intro hrun
    obtain ⟨n, hlen, hms, hnotes, hfreq, hstep⟩ := h hrun
    exact ⟨n, hlen, hms, notesValid_write _ _ hnotes, hfreq, hstep⟩
  | stepMs =>
    intro hrun
    obtain ⟨n, hlen, -, hnotes, hfreq, hstep⟩ := h hrun
    exact ⟨n, hlen, rfl, hnotes, hfreq, hstep⟩
  | seqStart now hlen time notes =>
    exact fun _ => ⟨_, hlen, time, notes, rfl, (hinv.length _ hlen).1⟩
  | tickStep gate due =>
    intro hrun
    obtain ⟨n, hlen, hms, hnotes, -, -⟩ := h hrun
    obtain ⟨hpos, hle⟩ := hinv.length n hlen
    have hmax : s.params.seqMax ≤ 16 := by
      have := hinv.params
      simp only [Params.wellFormed, Bool.and_eq_true, decide_eq_true_eq] at this
      exact this.2
    exact ⟨n, hlen, hms, hnotes, rfl, nextStep_lt hlen hpos (hle.trans hmax)⟩

/-! ## The audio domain -/

/-- The clauses of the invariant on the audio domain, for a ring of `cap` entries. -/
structure AudioInv (cap : Nat) (a : AudioState) : Prop where
  ringForm : a.dly.wf = true
  ringIndex : ∀ e ∈ a.dly, e.1 < cap
  writeIndex : a.dlyW.toNat < cap
  idle : a.env.stage = .idle → a.env.level = F32.zero

theorem mem_memory_write {m : Memory} {k : Nat} {v : F32} {e : Nat × F32} (h : e ∈ m.write k v) :
    e = (k, v) ∨ e ∈ m := by
  unfold Memory.write at h
  split at h
  · exact .inr (mem_eraseEntry h)
  · exact mem_insertEntry h

/-- The write index as a number: it wraps at the capacity (44_delay.md R343). -/
theorem toNat_nextWrite {cap : Nat} (hpos : 0 < cap) (hcap : cap ≤ 2 ^ 32) (w : BitVec 32) :
    (nextWrite cap w).toNat = (w.toNat + 1) % cap := by
  rw [nextWrite, BitVec.toNat_ofNat]
  exact Nat.mod_eq_of_lt ((Nat.mod_lt _ hpos).trans_le hcap)

theorem audioInv_voiceStep {cap : Nat} {a : AudioState} (v : VoiceLatch) (trig : Bool)
    (h : AudioInv cap a) : AudioInv cap (voiceStep v trig a).audio :=
  ⟨h.ringForm, h.ringIndex, h.writeIndex, Envelope.level_of_idle⟩

theorem audioInv_dlyAdvance {cap : Nat} {a : AudioState} (hcap : cap ≤ 2 ^ 32) (d : Nat) (g x : F32)
    (h : AudioInv cap a) : AudioInv cap (dlyAdvance cap d g x a) where
  ringForm := memory_write_wf h.ringForm _ _
  ringIndex e he := by
    obtain rfl | he := mem_memory_write he
    · exact h.writeIndex
    · exact h.ringIndex e he
  writeIndex := by
    have hpos : 0 < cap := Nat.zero_lt_of_lt h.writeIndex
    rw [dlyAdvance_dlyW, toNat_nextWrite hpos hcap]
    exact Nat.mod_lt _ hpos
  idle := h.idle

theorem audioInv_sample {cap : Nat} {a : AudioState} (hcap : cap ≤ 2 ^ 32) (l : Latch) (trig : Bool)
    (x : F32) (h : AudioInv cap a) : AudioInv cap (sample cap l trig x a).audio := by
  cases l with
  | voice v => exact audioInv_voiceStep v trig h
  | delay d => exact audioInv_dlyAdvance hcap _ _ _ h
  | voiceDelay v d => exact audioInv_dlyAdvance hcap _ _ _ (audioInv_voiceStep v trig h)

/-- The bounds of 00_scope.md R10. -/
theorem wellFormed_iff (p : Params) : p.wellFormed = true ↔
    2 ≤ p.dlyCap ∧ p.dlyCap ≤ 2 ^ 32 ∧ 1 ≤ p.blockMax ∧ p.blockMax ≤ 65535 ∧ 1 ≤ p.numCh ∧
      1 ≤ p.seqMax ∧ p.seqMax ≤ 16 := by
  simp [Params.wellFormed, and_assoc]

/-- A block keeps the rate and the size in force (10_state.md R80). -/
theorem renderBlock_rates (s : State) :
    s.renderBlock.audio.fsAct = s.audio.fsAct ∧ s.renderBlock.audio.blkAct = s.audio.blkAct := by
  refine renderSamples_keeps
    (P := fun a => a.fsAct = s.audio.fsAct ∧ a.blkAct = s.audio.blkAct) ?_ _ _ _ ⟨rfl, rfl⟩
  intro trig x a ha
  cases s.blockLatch <;> exact ha

/-! ## The invariant -/

theorem coreInv_of_sameCore {s t : State} (h : CoreInv s) (e : SameCore s t) : CoreInv t := by
  obtain ⟨params, phase, lastErr, shadow, seq, note, mb, audio, _, _, _, _⟩ := s
  obtain ⟨rfl, rfl, rfl, rfl, rfl, rfl, rfl⟩ := e
  exact ⟨h.params, h.noteForm, h.noteIndex, h.ringForm, h.ringIndex, h.writeIndex, h.block, h.delay,
    h.length, h.stepMs, h.sequencer, h.engine, h.idle⟩

theorem coreInv_render {s : State} (h : CoreInv s) :
    CoreInv { s with audio := s.renderBlock.audio } := by
  obtain ⟨-, hcap, -⟩ := (wellFormed_iff s.params).1 h.params
  obtain ⟨hfs, hblk⟩ := renderBlock_rates s
  have haudio : AudioInv s.params.dlyCap s.renderBlock.audio :=
    renderSamples_keeps (P := AudioInv s.params.dlyCap)
      (fun trig x a => audioInv_sample hcap s.blockLatch trig x) _ _ s.latchedAudio
      ⟨h.ringForm, h.ringIndex, h.writeIndex, h.idle⟩
  exact
    { params := h.params, noteForm := h.noteForm, noteIndex := h.noteIndex, ringForm := haudio.ringForm
      ringIndex := haudio.ringIndex, writeIndex := haudio.writeIndex, block := h.block, delay := h.delay
      length := h.length, stepMs := h.stepMs, sequencer := h.sequencer
      engine := engineReady_of_kept h.engine rfl rfl rfl rfl hfs hblk fun _ => id
      idle := haudio.idle }

theorem coreInv_change {i : Instr} {s u : State} (hc : Change i s u) (h : CoreInv s) : CoreInv u := by
  have sequencer : SequencerReady u := sequencerReady_change hc h
  have engine : EngineReady u := engineReady_change hc h.engine
  obtain ⟨hcapPos, -, -, -, -, hseqPos, hseqMax⟩ := (wellFormed_iff s.params).1 h.params
  obtain ⟨params, noteForm, noteIndex, ringForm, ringIndex, writeIndex, block, delay, length, stepMs,
    -, -, idle⟩ := h
  cases hc with
  | nop | regRead | errClear | sampleRate | engineMode | freq | waveform | filterMode | seqStart | seqStop
    | tickStep | tickGate =>
    exact ⟨params, noteForm, noteIndex, ringForm, ringIndex, writeIndex, block, delay, length, stepMs,
      sequencer, engine, idle⟩
  | softReset =>
    exact ⟨params, rfl, nofun, ringForm, ringIndex, by simp [AudioState.resetKeeping]; omega, nofun, nofun,
      nofun, nofun, sequencer, engine, fun _ => rfl⟩
  | blockSize config low high =>
    refine ⟨params, noteForm, noteIndex, ringForm, ringIndex, writeIndex, ?_, delay, length, stepMs,
      sequencer, engine, idle⟩
    rintro n ⟨⟩
    exact ⟨low, high⟩
  | start =>
    exact ⟨params, noteForm, noteIndex, rfl, nofun, by simp [startedAudio]; omega, block, delay, length,
      stepMs, sequencer, engine, fun _ => rfl⟩
  | f32 =>
    exact ⟨params, noteForm, noteIndex, ringForm, ringIndex, writeIndex, by simpa using block,
      by simpa using delay, length, stepMs, sequencer, engine, idle⟩
  | delay below =>
    refine ⟨params, noteForm, noteIndex, ringForm, ringIndex, writeIndex, block, ?_, length, stepMs,
      sequencer, engine, idle⟩
    rintro d ⟨⟩
    exact below
  | length stopped ranged =>
    refine ⟨params, noteForm, noteIndex, ringForm, ringIndex, writeIndex, block, delay, ?_, stepMs,
      sequencer, engine, idle⟩
    rintro n ⟨⟩
    obtain ⟨hlow, hhigh, -⟩ := rangedNat_ok hseqPos ranged
    simp only [BitVec.toNat_ofNat]
    omega
  | note below ranged =>
    refine ⟨params, noteRam_write_wf noteForm _ _, fun e he => ?_, ringForm, ringIndex, writeIndex, block,
      delay, length, stepMs, sequencer, engine, idle⟩
    obtain rfl | he := mem_insertEntry he
    · exact below
    · exact noteIndex e he
  | stepMs ranged =>
    refine ⟨params, noteForm, noteIndex, ringForm, ringIndex, writeIndex, block, delay, length, ?_,
      sequencer, engine, idle⟩
    rintro m ⟨⟩
    obtain ⟨hlow, hhigh, -⟩ := rangedNat_ok (by norm_num) ranged
    simp only [BitVec.toNat_ofNat]
    omega

theorem coreInv_kept : Kept CoreInv where
  ofCore := coreInv_of_sameCore
  change := coreInv_change
  render _ := coreInv_render

/-- Settles O57. -/
theorem stepKeepsTheStructuralInvariant : Obligations.StepKeepsTheStructuralInvariant :=
  fun _ _ h hstep => coreInv_kept.step hstep h

end Sys2Proof.Proofs.Structure
end

section
/-! The binary32 operations (00_scope.md section 5): one equation per operation on finite operands, the
order of the values, and what the one rounding at the end gives. -/

namespace Sys2Proof.Proofs.Rounding

open Sys2Proof Sys2Proof.F32 Sys2Proof.Laws.F32

/-! ## The operations on finite operands -/

theorem finite_cases {a : F32} (h : isFinite a = true) : isNaN a = false ∧ isInf a = false :=
  ⟨isNaN_of_isFinite h, isInf_of_isFinite h⟩

theorem sum_of_isFinite {a b : F32} (op : ArithOp) (ha : isFinite a = true) (hb : isFinite b = true) :
    sum op a b =
      pack (if value a + value b = 0 then sign a && sign b else decide (value a + value b < 0))
        (roundMag (value a + value b).natAbs 1) := by
  obtain ⟨hna, hia⟩ := finite_cases ha
  obtain ⟨hnb, hib⟩ := finite_cases hb
  simp only [sum, hna, hnb, hia, hib, Bool.or_self, Bool.false_eq_true, if_false]
  split
  · next hv => simp [hv, roundMag_zero]
  · rfl

theorem mul_of_isFinite {a b : F32} (ha : isFinite a = true) (hb : isFinite b = true) :
    mul a b = pack (sign a != sign b) (roundMag (scaled a * scaled b) (2 ^ 149)) := by
  obtain ⟨hna, hia⟩ := finite_cases ha
  obtain ⟨hnb, hib⟩ := finite_cases hb
  simp [mul, hna, hnb, hia, hib]

theorem div_of_isFinite {a b : F32} (ha : isFinite a = true) (hb : isFinite b = true)
    (h0 : magBits b ≠ 0) :
    div a b = pack (sign a != sign b) (roundMag (scaled a * 2 ^ 149) (scaled b)) := by
  obtain ⟨hna, hia⟩ := finite_cases ha
  obtain ⟨hnb, hib⟩ := finite_cases hb
  simp [div, hna, hnb, hia, hib, h0]

@[simp] theorem scaled_neg (a : F32) : scaled (neg a) = scaled a := by simp [scaled]

@[simp] theorem value_neg (a : F32) : value (neg a) = -value a := by
  cases h : sign a <;> simp [value, h]

@[simp] theorem isFinite_neg (a : F32) : isFinite (neg a) = isFinite a := by simp [isFinite]

@[simp] theorem isNaN_neg (a : F32) : isNaN (neg a) = isNaN a := by simp [isNaN]

@[simp] theorem isInf_neg (a : F32) : isInf (neg a) = isInf a := by simp [isInf]

/-! ## The order of the values -/

theorem magValue_lt_succ (m : Nat) : magValue m < magValue (m + 1) := by
  have hdm := Nat.div_add_mod m (2 ^ 23)
  have hlt := Nat.mod_lt m (show 0 < 2 ^ 23 by norm_num)
  generalize m / 2 ^ 23 = e at *
  generalize m % 2 ^ 23 = f at *
  have mag : ∀ e f, f < 2 ^ 23 → magValue (2 ^ 23 * e + f) =
      if e = 0 then f else (2 ^ 23 + f) * 2 ^ (e - 1) := by
    intro e f hf
    unfold magValue
    rw [Nat.mul_add_div (by norm_num), Nat.div_eq_of_lt hf, Nat.mul_add_mod, Nat.mod_eq_of_lt hf,
      Nat.add_zero]
  rw [← hdm, mag e f hlt]
  by_cases hf : f + 1 < 2 ^ 23
  · rw [Nat.add_assoc, mag e (f + 1) hf]
    split
    · omega
    · exact Nat.mul_lt_mul_of_pos_right (by omega) (by positivity)
  · rw [show 2 ^ 23 * e + f + 1 = 2 ^ 23 * (e + 1) + 0 by omega, mag (e + 1) 0 (by norm_num),
      if_neg (Nat.succ_ne_zero e), Nat.add_sub_cancel]
    split
    · next he => rw [he]; omega
    · next he =>
      calc (2 ^ 23 + f) * 2 ^ (e - 1) < 2 ^ 24 * 2 ^ (e - 1) :=
            Nat.mul_lt_mul_of_pos_right (by omega) (by positivity)
        _ = (2 ^ 23 + 0) * 2 ^ e := by
            rw [← Nat.pow_add, Nat.add_zero, ← Nat.pow_add]; congr 1; omega

theorem magValue_strictMono : StrictMono magValue := strictMono_nat_of_lt_succ magValue_lt_succ

theorem magValue_zero : magValue 0 = 0 := rfl

theorem magValue_eq_zero_iff (m : Nat) : magValue m = 0 ↔ m = 0 :=
  ⟨fun h => magValue_strictMono.injective (h.trans magValue_zero.symm), fun h => h ▸ magValue_zero⟩

/-- The value as a function of the key, which is how the order of the keys becomes that of the values. -/
def valueOfKey (k : Int) : Int := if k < 0 then -(magValue k.natAbs : Int) else magValue k.natAbs

theorem value_eq_valueOfKey (a : F32) : value a = valueOfKey (key a) := by
  rw [valueOfKey, natAbs_key, value, scaled_eq, key]
  cases hs : sign a with
  | false => simp
  | true =>
    by_cases h0 : magBits a = 0
    · simp [h0, magValue_zero]
    · rw [if_pos rfl, if_pos rfl, if_pos (by omega)]

theorem valueOfKey_strictMono : StrictMono valueOfKey := by
  intro j k hjk
  have mono {m n : Nat} : m < n → magValue m < magValue n := fun h => magValue_strictMono h
  unfold valueOfKey
  split
  · next hj =>
    have hpos := mono (show 0 < j.natAbs by omega)
    rw [magValue_zero] at hpos
    split
    · have := mono (show k.natAbs < j.natAbs by omega)
      omega
    · omega
  · rw [if_neg (by omega)]
    have := mono (show j.natAbs < k.natAbs by omega)
    omega

theorem key_lt_key_iff (a b : F32) : key a < key b ↔ value a < value b := by
  rw [value_eq_valueOfKey, value_eq_valueOfKey, valueOfKey_strictMono.lt_iff_lt]

theorem key_le_key_iff (a b : F32) : key a ≤ key b ↔ value a ≤ value b := by
  rw [value_eq_valueOfKey, value_eq_valueOfKey, valueOfKey_strictMono.le_iff_le]

theorem key_eq_key_iff (a b : F32) : key a = key b ↔ value a = value b := by
  rw [value_eq_valueOfKey, value_eq_valueOfKey, valueOfKey_strictMono.injective.eq_iff]

theorem natAbs_value (a : F32) : (value a).natAbs = scaled a := by
  cases h : sign a <;> simp [value, h]

theorem value_eq_zero_iff (a : F32) : value a = 0 ↔ magBits a = 0 := by
  rw [← Int.natAbs_eq_zero, natAbs_value, scaled_eq, magValue_eq_zero_iff]

/-! ## One rounding -/

theorem value_pack (s : Bool) {m : Nat} (h : m < 2 ^ 31) :
    value (pack s m) = if s then -(magValue m : Int) else magValue m := by
  rw [value, scaled_eq, sign_pack s h, magBits_pack s h]

theorem getLsbD_zero_of_magBits {r : F32} (h : magBits r % 2 = 0) : r.getLsbD 0 = false := by
  rw [BitVec.getLsbD, Nat.testBit_zero, decide_eq_false_iff_not]
  unfold magBits at h
  omega

/-- Magnitudes are no further from each other than the fractions they are those of. -/
theorem abs_magnitude_le (v num : Int) (d : Nat) :
    |((v.natAbs : Int) * d - num.natAbs)| ≤ |v * d - num| := by
  have h := abs_abs_sub_abs_le (v * d) num
  rwa [abs_mul, Nat.abs_cast, ← Int.natCast_natAbs v, ← Int.natCast_natAbs num] at h

/-- A value of the fraction's sign is as far from it as the magnitudes are from each other. -/
theorem abs_sub_of_sign {r : F32} {num : Int} {d : Nat} (hsign : num ≠ 0 → sign r = decide (num < 0))
    (hzero : num = 0 → scaled r = 0) :
    |value r * d - num| = |(scaled r * d : Int) - num.natAbs| := by
  rcases lt_trichotomy num 0 with h | h | h
  · have habs : (num.natAbs : Int) = -num := by omega
    rw [value, hsign h.ne, decide_eq_true h, if_pos rfl, ← abs_neg, habs]
    congr 1
    ring
  · subst h
    simp [value, hzero rfl]
  · have habs : (num.natAbs : Int) = num := by omega
    rw [value, hsign h.ne', decide_eq_false h.not_gt, if_neg Bool.false_ne_true, habs]

/-- A value and its mirror image are equally far from zero alone. -/
theorem eq_zero_of_mirror {v num : Int} {d : Nat} (hd : 0 < d) (h : |v * d - num| = |-v * d - num|) :
    v = 0 ∨ num = 0 := by
  obtain h | h := abs_eq_abs.1 h
  · have hv : v * d = 0 := by linarith
    exact .inl ((mul_eq_zero.1 hv).resolve_right (by exact_mod_cast hd.ne'))
  · exact .inr (by linarith)

/-- The pattern of the rounded magnitude and of the fraction's sign is what `num / d` rounds to. -/
theorem isRounded_of_magBits {r : F32} {num : Int} {d : Nat} (hd : 0 < d)
    (hmag : magBits r = roundMag num.natAbs d) (hsign : num ≠ 0 → sign r = decide (num < 0)) :
    Spec.IsRounded (sign r) num d r := by
  have hfin : isFinite r = true ↔ roundMag num.natAbs d < 0x7F800000 := by rw [isFinite_iff, hmag]
  have hzero : num = 0 → scaled r = 0 := by
    rintro rfl
    rw [scaled_eq, hmag, Int.natAbs_zero, roundMag_zero, magValue_zero]
  have hdist := abs_sub_of_sign (d := d) hsign hzero
  have near (hf : isFinite r = true) (c : F32) :
      |(scaled r * d : Int) - num.natAbs| ≤ |(scaled c * d : Int) - num.natAbs| ∧
        (scaled c ≠ scaled r →
          |(scaled r * d : Int) - num.natAbs| = |(scaled c * d : Int) - num.natAbs| →
          magBits r % 2 = 0) := by
    rw [scaled_eq, scaled_eq, hmag]
    exact roundMag_nearest hd (hfin.1 hf)
  have further (c : F32) : |(scaled c * d : Int) - num.natAbs| ≤ |value c * d - num| := by
    rw [← natAbs_value]
    exact abs_magnitude_le (value c) num d
  refine ⟨?_, rfl, ?_, fun hf c _ => hdist.trans_le ((near hf c).1.trans (further c)),
    fun hf c _ hne heq => getLsbD_zero_of_magBits ?_⟩
  · rw [not_isNaN_iff, hmag]
    exact roundMag_le_inf _ _
  · rw [hfin, roundMag_lt_inf_iff _ hd, ← Int.natCast_natAbs]
    omega
  · obtain ⟨hnear, htie⟩ := near hf c
    by_cases hm : scaled c = scaled r
    · -- `c` is the mirror image of `r`, as near to the fraction only where that is zero
      have hmirror : value c = -value r := by
        have := natAbs_value c
        have := natAbs_value r
        omega
      rw [hmirror] at heq hne
      obtain h | h := eq_zero_of_mirror hd heq
      · exact absurd (by rw [h, neg_zero]) hne
      · rw [hmag, h, Int.natAbs_zero, roundMag_zero]
    · exact htie hm (le_antisymm hnear ((further c).trans_eq (heq.symm.trans hdist)))

theorem isRounded_pack {neg : Bool} {num : Int} {d : Nat} (hd : 0 < d)
    (hneg : num ≠ 0 → neg = decide (num < 0)) :
    Spec.IsRounded neg num d (pack neg (roundMag num.natAbs d)) := by
  have hlt := roundMag_lt num.natAbs d
  have hsign : sign (pack neg (roundMag num.natAbs d)) = neg := sign_pack neg hlt
  have h := isRounded_of_magBits (r := pack neg (roundMag num.natAbs d)) hd (magBits_pack neg hlt)
    (by rwa [hsign])
  rwa [hsign] at h

/-! ## The four operations round once -/

section

variable {a b : F32}

theorem isRounded_sum (op : ArithOp) (ha : isFinite a = true) (hb : isFinite b = true) :
    Spec.IsRounded
      (if value a + value b = 0 then sign a && sign b else decide (value a + value b < 0))
      (value a + value b) 1 (sum op a b) := by
  rw [sum_of_isFinite op ha hb]
  exact isRounded_pack Nat.one_pos fun h => if_neg h

/-- The sign of a finite value that is no zero. -/
theorem sign_of_value_ne_zero (h : value a ≠ 0) : sign a = decide (value a < 0) := by
  unfold value at h ⊢
  cases hs : sign a with
  | false => simp
  | true =>
    simp only [hs, if_true] at h ⊢
    rw [eq_comm, decide_eq_true_eq]
    omega

theorem mul_neg_iff_of_ne_zero {x y : Int} (hx : x ≠ 0) (hy : y ≠ 0) :
    decide (x * y < 0) = (decide (x < 0) != decide (y < 0)) := by
  rcases lt_or_gt_of_ne hx with h | h <;> rcases lt_or_gt_of_ne hy with h' | h' <;>
    simp [h, h', h.not_gt, h'.not_gt, mul_neg_iff]

theorem isRounded_mul (ha : isFinite a = true) (hb : isFinite b = true) :
    Spec.IsRounded (sign a != sign b) (value a * value b) (2 ^ 149) (mul a b) := by
  rw [mul_of_isFinite ha hb, ← natAbs_value a, ← natAbs_value b, ← Int.natAbs_mul]
  refine isRounded_pack (by positivity) fun h => ?_
  obtain ⟨h1, h2⟩ := mul_ne_zero_iff.1 h
  rw [mul_neg_iff_of_ne_zero h1 h2, sign_of_value_ne_zero h1, sign_of_value_ne_zero h2]

theorem isRounded_div (ha : isFinite a = true) (hb : isFinite b = true) (h0 : value b ≠ 0) :
    Spec.IsRounded (sign a != sign b) (value a * 2 ^ 149 * (value b).sign) (value b).natAbs
      (div a b) := by
  have hnum : (value a * 2 ^ 149 * (value b).sign).natAbs = scaled a * 2 ^ 149 := by
    rw [Int.natAbs_mul, Int.natAbs_mul, natAbs_value, Int.natAbs_sign_of_ne_zero h0, Nat.mul_one]
    rfl
  rw [div_of_isFinite ha hb (mt (value_eq_zero_iff b).2 h0), ← natAbs_value b, ← hnum]
  refine isRounded_pack (Int.natAbs_pos.2 h0) fun h => ?_
  obtain ⟨h1, h2⟩ := mul_ne_zero_iff.1 h
  rw [mul_neg_iff_of_ne_zero h1 h2, sign_of_value_ne_zero h0,
    sign_of_value_ne_zero (left_ne_zero_of_mul h1)]
  congr 1
  · rw [decide_eq_decide]
    omega
  · simp

end

/-! ## NaNs, infinities and zeros (00_scope.md R13) -/

theorem not_finite_of_isInf {a : F32} (h : isInf a = true) : isFinite a = false ∧ isNaN a = false := by
  rw [isInf_iff] at h
  exact ⟨by simp [isFinite, infBits_eq, h], by simp [isNaN, infBits_eq, h]⟩

theorem infinity_eq (s : Bool) : Spec.infinity s = pack s infBits := by cases s <;> decide

theorem signedZero_eq (s : Bool) : Spec.signedZero s = pack s 0 := by cases s <;> decide

theorem specialsFollowIeee (a b : F32) : Spec.SpecialsFollowIeee a b where
  nan h := by
    have hor : (isNaN a || isNaN b) = true := by simpa using h
    simp [add, sub, sum, mul, div, hor]
  infinite ha hb := by
    obtain ⟨-, hna⟩ := not_finite_of_isInf ha
    obtain ⟨-, hnb⟩ := not_finite_of_isInf hb
    have hm : magBits a ≠ 0 ∧ magBits b ≠ 0 := by
      rw [(isInf_iff a).1 ha, (isInf_iff b).1 hb]
      decide
    refine ⟨fun h => ?_, fun h => ?_, ?_, ?_⟩
    · simp [add, sub, sum, ha, hb, hna, hnb, h]
    · simp [add, sub, sum, ha, hb, hna, hnb, h]
    · simp [mul, ha, hna, hnb, hm, infinity_eq]
    · simp [div, ha, hb, hna, hnb]
  infiniteFinite ha hb := by
    obtain ⟨-, hna⟩ := not_finite_of_isInf ha
    obtain ⟨hnb, hib⟩ := finite_cases hb
    have hm : magBits a ≠ 0 := by rw [(isInf_iff a).1 ha]; decide
    rw [value_eq_zero_iff, ne_eq, value_eq_zero_iff]
    refine ⟨?_, ?_, fun h => ?_, fun h => ?_, ?_⟩
    · simp [add, sum, ha, hna, hnb, hib]
    · simp [sub, sum, ha, hna, hnb, hib]
    · simp [mul, ha, hna, hnb, h]
    · simp [mul, ha, hna, hnb, hm, h, infinity_eq]
    · simp [div, ha, hna, hnb, hib, infinity_eq]
  finiteInfinite ha hb := by
    obtain ⟨-, hnb⟩ := not_finite_of_isInf hb
    obtain ⟨hna, hia⟩ := finite_cases ha
    have hm : magBits b ≠ 0 := by rw [(isInf_iff b).1 hb]; decide
    rw [value_eq_zero_iff, ne_eq, value_eq_zero_iff]
    refine ⟨?_, ?_, fun h => ?_, fun h => ?_, ?_⟩
    · simp [add, sum, hb, hna, hnb, hia]
    · simp [sub, sum, hb, hna, hnb, hia]
    · simp [mul, hb, hna, hnb, h]
    · simp [mul, hb, hna, hnb, hm, h, infinity_eq]
    · simp [div, hb, hna, hnb, hia, signedZero_eq]
  byZero ha hb h0 := by
    obtain ⟨hna, hia⟩ := finite_cases ha
    obtain ⟨hnb, hib⟩ := finite_cases hb
    rw [value_eq_zero_iff] at h0
    rw [value_eq_zero_iff, ne_eq, value_eq_zero_iff]
    refine ⟨fun h => ?_, fun h => ?_⟩
    · simp [div, hna, hnb, hia, hib, h, h0]
    · simp [div, hna, hnb, hia, hib, h, h0, infinity_eq]

/-! ## Comparisons, neighbours and rne_int -/

/-- An infinity lies beyond every finite value, on the side of its sign. -/
theorem lt_infinity {a b : F32} (ha : isFinite a = true) (hb : isInf b = true) :
    lt a b = !sign b ∧ lt b a = sign b := by
  obtain ⟨-, hnb⟩ := not_finite_of_isInf hb
  have hna := isNaN_of_isFinite ha
  have hka := natAbs_key a
  rw [isFinite_iff] at ha
  rw [isInf_iff] at hb
  have hkb : key b = if sign b then -(0x7F800000 : Int) else 0x7F800000 := by
    rw [key, hb]
    rfl
  cases hs : sign b <;> simp only [lt, hna, hnb, hkb, hs] <;> simp <;> omega

theorem value_zero : value zero = 0 := by decide

/-- rne_int of a finite value ≥ 0 (00_scope.md R17). -/
theorem rneInt_of_nonneg {a : F32} (ha : isFinite a = true) (h : 0 ≤ value a) :
    rneInt a = rneDiv (value a).toNat (2 ^ 149) := by
  have hk : 0 ≤ key a := by
    have hzero : key zero ≤ key a := (key_le_key_iff zero a).2 (value_zero ▸ h)
    rwa [key_zero] at hzero
  have hscaled : (value a).toNat = scaled a := by
    have := natAbs_value a
    omega
  simp [rneInt, ha, hk, hscaled]

theorem orderFollowsValue (a b : F32) : Spec.OrderFollowsValue a b where
  nan h := by
    obtain h | h := h <;> simp [lt, le, F32.eq, h]
  finite ha hb := by
    rw [lt_iff, le_iff, eq_iff, key_lt_key_iff, key_le_key_iff, key_eq_key_iff]
    simp [isNaN_of_isFinite ha, isNaN_of_isFinite hb]
  infinite := lt_infinity
  nextUp ha := by
    have hna := isNaN_of_isFinite ha
    have hnu := isNaN_nextUp ha
    refine ⟨(lt_iff _ _).2 ⟨hna, hnu, by rw [key_nextUp ha]; omega⟩, fun h => ?_⟩
    obtain ⟨-, hnb, hk⟩ := (lt_iff _ _).1 h
    exact (le_iff _ _).2 ⟨hnu, hnb, by rw [key_nextUp ha]; omega⟩
  nextDown ha := by
    have hna := isNaN_of_isFinite ha
    have hnd := isNaN_nextDown ha
    refine ⟨(lt_iff _ _).2 ⟨hnd, hna, by rw [key_nextDown ha]; omega⟩, fun h => ?_⟩
    obtain ⟨hnb, -, hk⟩ := (lt_iff _ _).1 h
    exact (le_iff _ _).2 ⟨hnb, hnd, by rw [key_nextDown ha]; omega⟩
  rneInt ha h := by
    obtain ⟨hlow, hhigh, htieLow, htieHigh⟩ :=
      rneDiv_spec (value a).toNat (show 0 < 2 ^ 149 by positivity)
    rw [rneInt_of_nonneg ha h]
    generalize rneDiv (value a).toNat (2 ^ 149) = q at *
    obtain ⟨n, hn⟩ := Int.eq_ofNat_of_zero_le h
    rw [hn] at hlow hhigh htieLow htieHigh ⊢
    simp only [Int.toNat_natCast] at hlow hhigh htieLow htieHigh
    rcases abs_cases ((q : Int) * 2 ^ 149 - (n : Int)) with ⟨he, -⟩ | ⟨he, -⟩ <;> rw [he] <;>
      exact ⟨by omega, fun _ => by omega⟩

/-- Settles O39: on finite operands each operation rounds its exact result once; the rest are the special
cases, and the order. -/
theorem sumAndProductAreNearest : Obligations.SumAndProductAreNearest := by
  refine fun a b => ⟨fun ha hb => ⟨isRounded_sum .add ha hb, ?_, isRounded_mul ha hb,
    isRounded_div ha hb⟩, specialsFollowIeee a b, orderFollowsValue a b⟩
  have h := isRounded_sum .sub ha ((isFinite_neg b).trans hb)
  rwa [value_neg, ← sub_eq_add_neg, sign_neg] at h

end Sys2Proof.Proofs.Rounding
end

section
/-! The two read-only tables (41_oscillator.md R232; 45_sequencer.md R391). -/

namespace Sys2Proof.Proofs.Tables

open Sys2Proof Sys2Proof.Machine Sys2Proof.Laws.F32

/-! ## SINE_ROM, from its first quarter -/

/-- Entry `k` of the first half of SINE_ROM: the quarter, then the quarter backwards. -/
def sineHalf (k : Nat) : F32 := BitVec.ofNat 32 (sineQuarter.getD (if k ≤ 256 then k else 512 - k) 0)

theorem sineRom_first {i : BitVec 10} (h : i.toNat < 512) : sineRom i = sineHalf i.toNat := by
  by_cases hk : i.toNat ≤ 256 <;> simp [sineRom, sineHalf, h, hk]

theorem sineRom_second {i : BitVec 10} (h : 512 < i.toNat) :
    sineRom i = F32.neg (sineHalf (i.toNat - 512)) := by
  by_cases hk : i.toNat - 512 ≤ 256 <;> simp [sineRom, sineHalf, h.not_gt, h.ne', hk]

/-- The second half of the table is the first one with its sign flipped. -/
theorem sineRom_half_turn {i : BitVec 10} (h : 513 ≤ i.toNat) :
    sineRom i = F32.neg (sineRom (i - 512#10)) := by
  have hi := i.isLt
  have hsub : (i - 512#10).toNat = i.toNat - 512 := by
    rw [BitVec.toNat_sub, BitVec.toNat_ofNat]
    omega
  rw [sineRom_second (by omega), sineRom_first (i := i - 512#10) (by omega), hsub]

/-- The second quarter of the table is the first one backwards. -/
theorem sineRom_mirror {i : BitVec 10} (hlow : 257 ≤ i.toNat) (hhigh : i.toNat ≤ 511) :
    sineRom i = sineRom (512#10 - i) := by
  have hsub : (512#10 - i).toNat = 512 - i.toNat := by
    rw [BitVec.toNat_sub, BitVec.toNat_ofNat]
    omega
  rw [sineRom_first (by omega), sineRom_first (i := 512#10 - i) (by omega), hsub, sineHalf, sineHalf,
    if_neg (by omega), if_pos (by omega)]

/-! ## NOTE_ROM -/

theorem noteRom_octave : ∀ n : BitVec 7, n.toNat ≤ 115 →
    noteRom (n + 12#7) = noteRom n + 0x00800000#32 := by
  decide +kernel

/-- Every note's frequency lies between F_MIN and FREQ_CEIL. -/
theorem noteRom_range : ∀ n : BitVec 7,
    F32.le fMin (noteRom n) = true ∧ F32.le (noteRom n) freqCeil = true := by
  decide +kernel

/-- Settles O37: the symmetries of SINE_ROM come from how it is folded out of its quarter; NOTE_ROM's
octaves and the spot values are read off the tables. -/
theorem romTablesHaveTheirSymmetries : Obligations.RomTablesHaveTheirSymmetries :=
  ⟨fun _ => sineRom_half_turn, fun _ => sineRom_mirror, by decide, by decide, by decide, by decide,
    by decide, noteRom_octave, noteRom_range, by decide, by decide, by decide, by decide⟩

end Sys2Proof.Proofs.Tables
end

section
/-! Arithmetic on intervals of values that are not negative: each operation is monotonic, so that what it
gives on an interval lies between what it gives at the ends. From that the bounds of the phase increment
(41_oscillator.md R222) and of the filter's coefficients (43_filter.md R300). -/

namespace Sys2Proof.Proofs.Intervals

open Sys2Proof Sys2Proof.Machine Sys2Proof.F32 Sys2Proof.Laws.F32 Sys2Proof.Proofs.Rounding
open Sys2Proof.Proofs.Envelope

/-! ## Values that are not negative -/

/-- A value ≥ 0, or +inf, that is not -0.0. -/
abbrev Nonneg (a : F32) : Prop := sign a = false ∧ isNaN a = false

theorem nonneg_pack (n d : Nat) : Nonneg (pack false (roundMag n d)) := by
  refine ⟨sign_pack false (roundMag_lt n d), ?_⟩
  rw [not_isNaN_iff, magBits_pack false (roundMag_lt n d)]
  exact roundMag_le_inf n d

section

variable {a b : F32}

theorem key_of_nonneg (h : Nonneg a) : key a = magBits a := by simp [key, h.1]

theorem value_of_nonneg (h : Nonneg a) : value a = scaled a := by simp [value, h.1]

theorem le_iff_magBits (ha : Nonneg a) (hb : Nonneg b) : le a b = true ↔ magBits a ≤ magBits b := by
  rw [le_iff, key_of_nonneg ha, key_of_nonneg hb]
  simp [ha.2, hb.2]

theorem lt_iff_magBits (ha : Nonneg a) (hb : Nonneg b) : lt a b = true ↔ magBits a < magBits b := by
  rw [lt_iff, key_of_nonneg ha, key_of_nonneg hb]
  simp [ha.2, hb.2]

/-- A value that is not negative and no larger than a finite one is finite. -/
theorem isFinite_of_magBits_le (h : magBits a ≤ magBits b) (hb : isFinite b = true) :
    isFinite a = true := by
  rw [isFinite_iff] at hb ⊢
  omega

theorem scaled_le_scaled (h : magBits a ≤ magBits b) : scaled a ≤ scaled b := by
  rw [scaled_eq, scaled_eq]
  exact magValue_strictMono.monotone h

theorem scaled_lt_scaled (h : magBits a < magBits b) : scaled a < scaled b := by
  rw [scaled_eq, scaled_eq]
  exact magValue_strictMono h

theorem scaled_pos (h : 0 < magBits a) : 0 < scaled a :=
  (magValue_zero ▸ magValue_strictMono h : 0 < magValue (magBits a))

end

/-! ## Intervals -/

section

variable {lo hi lo' hi' a b : F32}

theorem legalF32_iff (lo hi v : F32) :
    legalF32 lo hi v = true ↔ le lo v = true ∧ le v hi = true ∧ v ≠ 0x80000000#32 := by
  simp [legalF32, and_assoc]

/-- A stored value in an interval of values ≥ 0 is itself not negative: it is no -0.0. -/
theorem legalF32_iff_magBits (hlo : Nonneg lo) (hhi : Nonneg hi) :
    legalF32 lo hi a = true ↔ Nonneg a ∧ magBits lo ≤ magBits a ∧ magBits a ≤ magBits hi := by
  rw [legalF32_iff]
  constructor
  · rintro ⟨hl, hh, hz⟩
    obtain ⟨-, hn, hk⟩ := (le_iff lo a).1 hl
    rw [key_of_nonneg hlo] at hk
    have ha : Nonneg a := by
      refine ⟨?_, hn⟩
      by_contra hs
      rw [Bool.not_eq_false] at hs
      simp only [key, hs, if_true] at hk
      exact hz (eq_of_sign_magBits (hs.trans (by decide)) ((by omega : magBits a = 0).trans (by decide)))
    exact ⟨ha, (le_iff_magBits hlo ha).1 hl, (le_iff_magBits ha hhi).1 hh⟩
  · rintro ⟨ha, hl, hh⟩
    refine ⟨(le_iff_magBits hlo ha).2 hl, (le_iff_magBits ha hhi).2 hh, ?_⟩
    rintro rfl
    exact absurd ha.1 (by decide)

theorem mul_of_nonneg (ha : Nonneg a) (hb : Nonneg b) (hfa : isFinite a = true)
    (hfb : isFinite b = true) :
    F32.mul a b = pack false (roundMag (scaled a * scaled b) (2 ^ 149)) := by
  rw [mul_of_isFinite hfa hfb, ha.1, hb.1]
  rfl

theorem div_of_nonneg (ha : Nonneg a) (hb : Nonneg b) (hfa : isFinite a = true)
    (hfb : isFinite b = true) (h0 : 0 < magBits b) :
    F32.div a b = pack false (roundMag (scaled a * 2 ^ 149) (scaled b)) := by
  rw [div_of_isFinite hfa hfb h0.ne', ha.1, hb.1]
  rfl

/-- The sum of two values ≥ 0. -/
theorem add_of_nonneg (ha : Nonneg a) (hb : Nonneg b) (hfa : isFinite a = true)
    (hfb : isFinite b = true) : F32.add a b = pack false (roundMag (scaled a + scaled b) 1) := by
  rw [F32.add, sum_of_isFinite _ hfa hfb, value_of_nonneg ha, value_of_nonneg hb, ha.1, hb.1,
    Bool.and_self, decide_eq_false (by omega), ite_self]
  rfl

/-- The difference of two values ≥ 0 that is not negative. -/
theorem sub_of_le (ha : Nonneg a) (hb : Nonneg b) (hfa : isFinite a = true) (hfb : isFinite b = true)
    (h : scaled b ≤ scaled a) : F32.sub a b = pack false (roundMag (scaled a - scaled b) 1) := by
  rw [F32.sub, sum_of_isFinite _ hfa ((isFinite_neg b).trans hfb), value_neg, value_of_nonneg ha,
    value_of_nonneg hb, sign_neg, ha.1, hb.1, Bool.false_and, decide_eq_false (by omega), ite_self]
  congr 2
  omega

/-- The difference of two values ≥ 0 that is negative. -/
theorem sub_of_lt (ha : Nonneg a) (hb : Nonneg b) (hfa : isFinite a = true) (hfb : isFinite b = true)
    (h : scaled a < scaled b) : F32.sub a b = pack true (roundMag (scaled b - scaled a) 1) := by
  rw [F32.sub, sum_of_isFinite _ hfa ((isFinite_neg b).trans hfb), value_neg, value_of_nonneg ha,
    value_of_nonneg hb, if_neg (by omega), decide_eq_true (by omega)]
  congr 2
  omega

/-- An interval of finite values ≥ 0. -/
structure Bounds (lo hi : F32) : Prop where
  low : Nonneg lo
  high : Nonneg hi
  finite : isFinite hi = true

/-- What a value in an interval is. -/
structure Inside (lo hi a : F32) : Prop where
  nonneg : Nonneg a
  low : magBits lo ≤ magBits a
  high : magBits a ≤ magBits hi

theorem inside_iff (h : Bounds lo hi) : legalF32 lo hi a = true ↔ Inside lo hi a := by
  rw [legalF32_iff_magBits h.low h.high]
  exact ⟨fun ⟨h1, h2, h3⟩ => ⟨h1, h2, h3⟩, fun ⟨h1, h2, h3⟩ => ⟨h1, h2, h3⟩⟩

theorem Inside.finite (h : Inside lo hi a) (hb : Bounds lo hi) : isFinite a = true :=
  isFinite_of_magBits_le h.high hb.finite

theorem Inside.lowFinite (h : Inside lo hi a) (hb : Bounds lo hi) : isFinite lo = true :=
  isFinite_of_magBits_le (h.low.trans h.high) hb.finite

/-- A wider interval. -/
theorem Inside.mono (h : Inside lo hi a) (hl : magBits lo' ≤ magBits lo) (hh : magBits hi ≤ magBits hi') :
    Inside lo' hi' a :=
  ⟨h.nonneg, hl.trans h.low, h.high.trans hh⟩

theorem inside_self (h : Nonneg a) : Inside a a a := ⟨h, le_rfl, le_rfl⟩

theorem magBits_pack_roundMag (s : Bool) (n d : Nat) : magBits (pack s (roundMag n d)) = roundMag n d :=
  magBits_pack s (roundMag_lt n d)

/-- A product lies between those of the ends. -/
theorem Inside.mul (ha : Inside lo hi a) (hb : Inside lo' hi' b) (h : Bounds lo hi)
    (h' : Bounds lo' hi') : Inside (F32.mul lo lo') (F32.mul hi hi') (F32.mul a b) := by
  rw [mul_of_nonneg h.low h'.low (ha.lowFinite h) (hb.lowFinite h'),
    mul_of_nonneg h.high h'.high h.finite h'.finite,
    mul_of_nonneg ha.nonneg hb.nonneg (ha.finite h) (hb.finite h')]
  refine ⟨nonneg_pack _ _, ?_, ?_⟩ <;> rw [magBits_pack_roundMag, magBits_pack_roundMag] <;>
    refine roundMag_mono (by positivity) (by positivity) (Nat.mul_le_mul_right _ ?_)
  · exact Nat.mul_le_mul (scaled_le_scaled ha.low) (scaled_le_scaled hb.low)
  · exact Nat.mul_le_mul (scaled_le_scaled ha.high) (scaled_le_scaled hb.high)

/-- A quotient by a positive value lies between those of the ends. -/
theorem Inside.div (ha : Inside lo hi a) (hb : Inside lo' hi' b) (h : Bounds lo hi)
    (h' : Bounds lo' hi') (h0 : 0 < magBits lo') :
    Inside (F32.div lo hi') (F32.div hi lo') (F32.div a b) := by
  have hb0 : 0 < magBits b := h0.trans_le hb.low
  have hhi0 : 0 < magBits hi' := hb0.trans_le hb.high
  rw [div_of_nonneg h.low h'.high (ha.lowFinite h) h'.finite hhi0,
    div_of_nonneg h.high h'.low h.finite (hb.lowFinite h') h0,
    div_of_nonneg ha.nonneg hb.nonneg (ha.finite h) (hb.finite h') hb0]
  refine ⟨nonneg_pack _ _, ?_, ?_⟩ <;> rw [magBits_pack_roundMag, magBits_pack_roundMag]
  · refine roundMag_mono (scaled_pos hhi0) (scaled_pos hb0) ?_
    exact Nat.mul_le_mul (Nat.mul_le_mul_right _ (scaled_le_scaled ha.low)) (scaled_le_scaled hb.high)
  · refine roundMag_mono (scaled_pos hb0) (scaled_pos h0) ?_
    exact Nat.mul_le_mul (Nat.mul_le_mul_right _ (scaled_le_scaled ha.high)) (scaled_le_scaled hb.low)

/-- A difference that cannot be negative lies between those of the ends. -/
theorem Inside.sub (ha : Inside lo hi a) (hb : Inside lo' hi' b) (h : Bounds lo hi)
    (h' : Bounds lo' hi') (hle : magBits hi' ≤ magBits lo) :
    Inside (F32.sub lo hi') (F32.sub hi lo') (F32.sub a b) := by
  have hal := scaled_le_scaled ha.low
  have hah := scaled_le_scaled ha.high
  have hbl := scaled_le_scaled hb.low
  have hbh := scaled_le_scaled hb.high
  have hlh := scaled_le_scaled hle
  rw [sub_of_le h.low h'.high (ha.lowFinite h) h'.finite hlh,
    sub_of_le h.high h'.low h.finite (hb.lowFinite h') (by omega),
    sub_of_le ha.nonneg hb.nonneg (ha.finite h) (hb.finite h') (by omega)]
  refine ⟨nonneg_pack _ _, ?_, ?_⟩ <;> rw [magBits_pack_roundMag, magBits_pack_roundMag] <;>
    exact roundMag_mono Nat.one_pos Nat.one_pos (by omega)

end

/-! ## The legal sets (10_state.md R64) -/

theorem bounds_fs : Bounds fsMin fsMax := ⟨by decide, by decide, by decide⟩

theorem bounds_freq : Bounds fMin freqCeil := ⟨by decide, by decide, by decide⟩

theorem bounds_unit : Bounds F32.zero F32.one := ⟨by decide, by decide, by decide⟩

theorem bounds_time : Bounds F32.zero tMax := ⟨by decide, by decide, by decide⟩

theorem bounds_cutoff : Bounds cutoffMin cutoffMaxConfig := ⟨by decide, by decide, by decide⟩

theorem bounds_res : Bounds F32.zero rMax := ⟨by decide, by decide, by decide⟩

theorem bounds_two : Bounds F32.two F32.two := ⟨by decide, by decide, by decide⟩

theorem bounds_one : Bounds F32.one F32.one := ⟨by decide, by decide, by decide⟩

theorem bounds_twoPi : Bounds twoPi twoPi := ⟨by decide, by decide, by decide⟩

/-- 2^32, by which a frequency in cycles per sample becomes a phase increment (41_oscillator.md R222). -/
def turn : F32 := 0x4F800000#32

theorem bounds_turn : Bounds turn turn := ⟨by decide, by decide, by decide⟩

/-! ## The filter's coefficients (43_filter.md R300) -/

/-- 2 pi fc / fs before the cap: positive, whatever the legal cutoff and sample rate. -/
theorem cutoff_angle_inside {fc fs : F32} (hfc : Inside cutoffMin cutoffMaxConfig fc)
    (hfs : Inside fsMin fsMax fs) :
    Inside (F32.mul twoPi (F32.div cutoffMin fsMax)) (F32.mul twoPi (F32.div cutoffMaxConfig fsMin))
      (F32.mul twoPi (F32.div fc fs)) := by
  have hratio := hfc.div hfs bounds_cutoff bounds_fs (by decide)
  exact (inside_self bounds_twoPi.low).mul hratio bounds_twoPi
    ⟨by decide +kernel, by decide +kernel, by decide +kernel⟩

/-- f is in (0, 1.0]. -/
theorem cutoffCoeff_range {fc fs : F32} (hfc : legalF32 cutoffMin cutoffMaxConfig fc = true)
    (hfs : legalF32 fsMin fsMax fs = true) :
    F32.lt F32.zero (cutoffCoeff fc fs) = true ∧ F32.le (cutoffCoeff fc fs) F32.one = true := by
  have h := cutoff_angle_inside ((inside_iff bounds_cutoff).1 hfc) ((inside_iff bounds_fs).1 hfs)
  have hpos : magBits F32.zero < magBits (F32.mul twoPi (F32.div fc fs)) :=
    (by decide +kernel : magBits F32.zero < magBits (F32.mul twoPi (F32.div cutoffMin fsMax))).trans_le h.low
  unfold cutoffCoeff
  simp only
  split
  · decide
  · next hcap =>
    have hnonneg := h.nonneg
    refine ⟨(lt_iff_magBits bounds_unit.low hnonneg).2 hpos, ?_⟩
    rw [le_iff_magBits hnonneg bounds_unit.high]
    have hone : ¬ magBits F32.one ≤ magBits (F32.mul twoPi (F32.div fc fs)) :=
      fun hle => hcap ((le_iff_magBits bounds_unit.high hnonneg).2 hle)
    omega

/-- q is in [1 -f R_MAX, 1.0]. -/
theorem dampingCoeff_range {res : F32} (h : legalF32 F32.zero rMax res = true) :
    F32.le 0x3C23D700#32 (dampingCoeff res) = true ∧ F32.le (dampingCoeff res) F32.one = true := by
  have hsub := (inside_self bounds_one.low).sub ((inside_iff bounds_res).1 h) bounds_one bounds_res
    (by decide)
  have hin : Inside 0x3C23D700#32 F32.one (dampingCoeff res) :=
    hsub.mono (by decide +kernel) (by decide +kernel)
  exact ⟨(le_iff_magBits (by decide) hin.nonneg).2 hin.low,
    (le_iff_magBits hin.nonneg bounds_one.low).2 hin.high⟩

/-- Settles O45. -/
theorem filterCoefficientsStayStable : Obligations.FilterCoefficientsStayStable := by
  intro fc res fs hfc hres hfs
  obtain ⟨hpos, hcap⟩ := cutoffCoeff_range hfc hfs
  obtain ⟨hlow, hhigh⟩ := dampingCoeff_range hres
  exact ⟨hpos, hcap, hlow, hhigh⟩

/-! ## The phase increment (41_oscillator.md R222) -/

/-- Every number of at most 24 significant bits is a magnitude. -/
theorem exists_magValue (e : Nat) : ∀ j, j ≤ 2 ^ 24 → e ≤ 252 →
    ∃ m < 0x7F800000, magValue m = j * 2 ^ e := by
  induction e with
  | zero =>
    intro j hj _
    exact ⟨j, by omega, (by simpa using magValue_pack (k := 0) hj (by omega))⟩
  | succ e ih =>
    intro j hj he
    by_cases hlow : 2 ^ 23 ≤ j
    · exact ⟨j + (e + 1) * 2 ^ 23, by omega, magValue_pack hj fun _ => hlow⟩
    · obtain ⟨m, hm, hv⟩ := ih (2 * j) (by omega) (by omega)
      exact ⟨m, hm, by rw [hv]; ring⟩

/-- Half of a normal number that is not the smallest is exact. -/
theorem exists_half {m : Nat} (h : 2 ^ 24 ≤ m) (hm : m < 0x7F800000) :
    ∃ k < 0x7F800000, magValue m = 2 * magValue k := by
  obtain ⟨k, hk, hv⟩ := exists_magValue (m / 2 ^ 23 - 2) (2 ^ 23 + m % 2 ^ 23) (by omega) (by omega)
  refine ⟨k, hk, ?_⟩
  rw [hv, magValue, if_neg (by omega), show m / 2 ^ 23 - 1 = m / 2 ^ 23 - 2 + 1 by omega, Nat.pow_succ]
  ring

/-- Twice the Nyquist frequency is the sample rate, exactly. -/
theorem scaled_nyquist {fs : F32} (h : Inside fsMin fsMax fs) :
    2 * scaled (F32.div fs F32.two) = scaled fs := by
  have hlow : 2 ^ 24 ≤ magBits fs := (by decide : 2 ^ 24 ≤ magBits fsMin).trans h.low
  have hfin : isFinite fs = true := h.finite bounds_fs
  obtain ⟨k, hk, hv⟩ := exists_half hlow ((isFinite_iff fs).1 hfin)
  have htwo : scaled F32.two = 2 * 2 ^ 149 := by decide +kernel
  have hround : roundMag (scaled fs * 2 ^ 149) (scaled F32.two) = k := by
    rw [htwo, scaled_eq, hv, show 2 * magValue k * 2 ^ 149 = magValue k * (2 * 2 ^ 149) by ring]
    exact roundMag_magValue hk (by positivity)
  rw [div_of_nonneg h.nonneg bounds_two.low hfin bounds_two.finite (by decide), hround, scaled_eq,
    magBits_pack false (by omega), scaled_eq, hv]

/-- rne_int keeps the order of values ≥ 0. -/
theorem rneInt_mono {a b : F32} (ha : Nonneg a) (hb : Nonneg b) (hfb : isFinite b = true)
    (h : magBits a ≤ magBits b) : rneInt a ≤ rneInt b := by
  have hfa := isFinite_of_magBits_le h hfb
  have hva := value_of_nonneg ha
  have hvb := value_of_nonneg hb
  rw [rneInt_of_nonneg hfa (by omega), rneInt_of_nonneg hfb (by omega), hva, hvb]
  exact rneDiv_mono (by positivity) (by positivity) (Nat.mul_le_mul_right _ (scaled_le_scaled h))

/-- The frequency that PHASE_INC uses: the Nyquist frequency where the given one is above it. -/
theorem effective_freq_inside {freq fs : F32} (hfreq : Inside fMin freqCeil freq)
    (hfs : Inside fsMin fsMax fs) :
    Inside fMin (F32.div fs F32.two)
      (if F32.gt freq (F32.div fs F32.two) then F32.div fs F32.two else freq) := by
  have hnyq := hfs.div (inside_self bounds_two.low) bounds_fs bounds_two (by decide)
  have hlow : magBits fMin ≤ magBits (F32.div fs F32.two) :=
    (by decide +kernel : magBits fMin ≤ magBits (F32.div fsMin F32.two)).trans hnyq.low
  split
  · exact ⟨hnyq.nonneg, hlow, le_rfl⟩
  · next hgt =>
    refine ⟨hfreq.nonneg, hfreq.low, ?_⟩
    by_contra hc
    exact hgt ((lt_iff_magBits hnyq.nonneg hfreq.nonneg).2 (by omega))

/-- A frequency of at least F_MIN and at most half the sample rate is at most half a turn a sample. -/
theorem turns_per_sample_inside {f fs : F32} (hf : Inside fMin (F32.div fs F32.two) f)
    (hfs : Inside fsMin fsMax fs) :
    Inside (F32.div fMin fsMax) 0x3F000000#32 (F32.div f fs) := by
  have hnyq := hfs.div (inside_self bounds_two.low) bounds_fs bounds_two (by decide)
  have hfin : isFinite (F32.div fs F32.two) = true :=
    isFinite_of_magBits_le hnyq.high (by decide +kernel)
  have hdiv := hf.div hfs ⟨by decide, hnyq.nonneg, hfin⟩ bounds_fs (by decide)
  have hfs0 : 0 < magBits fs := (by decide : 0 < magBits fsMin).trans_le hfs.low
  refine ⟨hdiv.nonneg, hdiv.low, ?_⟩
  have hhalf : roundMag (2 ^ 148) 1 = magBits 0x3F000000#32 := by decide +kernel
  have hle := scaled_le_scaled hf.high
  have htwice := scaled_nyquist hfs
  rw [div_of_nonneg hf.nonneg hfs.nonneg (isFinite_of_magBits_le hf.high hfin) (hfs.finite bounds_fs) hfs0,
    magBits_pack_roundMag, ← hhalf]
  exact roundMag_mono (scaled_pos hfs0) Nat.one_pos (by omega)

/-- Settles O44. -/
theorem phaseIncrementIsAtMostHalfATurn : Obligations.PhaseIncrementIsAtMostHalfATurn := by
  intro freq fs hfreq hfs
  have hfs := (inside_iff bounds_fs).1 hfs
  have hf := effective_freq_inside ((inside_iff bounds_freq).1 hfreq) hfs
  have ht := turns_per_sample_inside hf hfs
  have hv := ht.mul (inside_self bounds_turn.low)
    ⟨by decide +kernel, by decide +kernel, by decide +kernel⟩ bounds_turn
  have hhigh : isFinite (F32.mul 0x3F000000#32 turn) = true := by decide +kernel
  have hlowInt : 1 ≤ rneInt (F32.mul (F32.div fMin fsMax) turn) := by decide +kernel
  have hhighInt : rneInt (F32.mul 0x3F000000#32 turn) ≤ 2 ^ 31 := by decide +kernel
  exact ⟨hlowInt.trans (rneInt_mono (by decide +kernel) hv.nonneg (isFinite_of_magBits_le hv.high hhigh) hv.low),
    (rneInt_mono hv.nonneg (by decide +kernel) hhigh hv.high).trans hhighInt⟩

end Sys2Proof.Proofs.Intervals
end

section
/-! The stored f32 parameters (10_state.md R64): what each command stores is legal, so every step keeps the
parameters legal. -/

namespace Sys2Proof.Proofs.Parameters

open Sys2Proof Sys2Proof.Machine Sys2Proof.F32 Sys2Proof.Laws.F32 Sys2Proof.Laws.State
open Sys2Proof.Laws.Ops Sys2Proof.Proofs.Changes Sys2Proof.Proofs.Structure Sys2Proof.Proofs.Intervals

/-! ## What a store writes -/

theorem legalF32_plusZero {lo hi v : F32} (hl : le lo v = true) (hh : le v hi = true) :
    legalF32 lo hi (plusZero v) = true := by
  rw [le_iff] at hl hh
  rw [legalF32_iff, le_iff, le_iff, key_plusZero, isNaN_plusZero]
  exact ⟨hl, hh, plusZero_ne_minusZero v⟩

theorem le_of_not_lt {a b : F32} (ha : isNaN a = false) (hb : isNaN b = false) (h : lt b a = false) :
    le a b = true := by
  refine (le_iff a b).2 ⟨ha, hb, ?_⟩
  by_contra hk
  rw [Bool.eq_false_iff] at h
  exact h ((lt_iff b a).2 ⟨hb, ha, by omega⟩)

/-- An operand that is not outside [lo, hi] lies inside. -/
theorem le_of_outside_false {x lo hi : F32} (hlo : isNaN lo = false) (hhi : isNaN hi = false)
    (h : outside x lo hi = false) : le lo x = true ∧ le x hi = true := by
  obtain ⟨hx, hl, hg⟩ := outside_false h
  exact ⟨le_of_not_lt hlo hx hl, le_of_not_lt hx hhi hg⟩

/-- The highest legal value of an f32 parameter (10_state.md R64), which no store exceeds in either
phase. -/
def legalMax : F32Param → F32
  | .amp => ampMax
  | .attack => tMax
  | .decay => tMax
  | .sustain => F32.one
  | .release => tMax
  | .cutoff => cutoffMaxConfig
  | .res => rMax
  | .feedback => fbMax

/-- Half a legal sample rate, less one unit, is a legal cutoff. -/
theorem cutoffMaxRunning_legal {fs : F32} (h : legalF32 fsMin fsMax fs = true) :
    le cutoffMin (cutoffMaxRunning fs) = true ∧ le (cutoffMaxRunning fs) cutoffMaxConfig = true := by
  have hnyq := ((inside_iff bounds_fs).1 h).div (inside_self bounds_two.low) bounds_fs bounds_two
    (by decide)
  have hfin : isFinite (F32.div fs F32.two) = true :=
    isFinite_of_magBits_le hnyq.high (by decide +kernel)
  have hnan : isNaN (cutoffMaxRunning fs) = false := isNaN_nextDown hfin
  have hkey : key (cutoffMaxRunning fs) = magBits (F32.div fs F32.two) - 1 := by
    rw [cutoffMaxRunning, key_nextDown hfin, key_of_nonneg hnyq.nonneg]
  have hlow : magBits cutoffMin + 1 ≤ magBits (F32.div fs F32.two) :=
    (by decide +kernel : magBits cutoffMin + 1 ≤ magBits (F32.div fsMin F32.two)).trans hnyq.low
  have hhigh : magBits (F32.div fs F32.two) ≤ magBits cutoffMaxConfig + 1 :=
    hnyq.high.trans (by decide +kernel)
  constructor
  · exact (le_iff _ _).2 ⟨by decide, hnan, by rw [hkey, key_of_nonneg bounds_cutoff.low]; omega⟩
  · exact (le_iff _ _).2 ⟨hnan, by decide, by rw [hkey, key_of_nonneg bounds_cutoff.high]; omega⟩

/-- In RUNNING the rate in force is the configured one, so it is legal. -/
theorem legal_fsAct {s : State} (hinv : CoreInv s) (h : LegalF32s s) (hp : s.phase = .running) :
    legalF32 fsMin fsMax s.audio.fsAct = true := by
  obtain ⟨-, -, -, hfs, -⟩ := hinv.engine hp
  exact h.fs _ hfs

/-- In either phase the bounds of a store are in order and within the legal set. -/
theorem f32Max_legal {s : State} (hinv : CoreInv s) (h : LegalF32s s) (p : F32Param) :
    le (Spec.f32Min p) (Spec.f32Max s p) = true ∧ le (Spec.f32Max s p) (legalMax p) = true := by
  cases p with
  | cutoff =>
    cases hp : s.phase with
    | config => simp only [Spec.f32Max, hp]; decide
    | running =>
      simp only [Spec.f32Max, hp]
      exact cutoffMaxRunning_legal (legal_fsAct hinv h hp)
  | _ =>
    simp only [Spec.f32Max]
    decide

theorem legal_storable {s : State} {p : F32Param} {x v : F32} (hinv : CoreInv s) (h : LegalF32s s)
    (hv : Storable s p x v) : legalF32 (Spec.f32Min p) (legalMax p) (plusZero v) = true := by
  obtain ⟨hmin, hmax⟩ := f32Max_legal hinv h p
  obtain ⟨hnlo, hnhi, -⟩ := (le_iff _ _).1 hmin
  obtain ⟨-, ho, rfl⟩ | ⟨-, rfl⟩ := hv
  · obtain ⟨hl, hh⟩ := le_of_outside_false hnlo hnhi ho
    exact legalF32_plusZero hl (le_trans hh hmax)
  · obtain ⟨hl, hh⟩ := clamp_range hmin (Envelope.le_self hnlo) hmin x
    exact legalF32_plusZero hl (le_trans hh hmax)

theorem legal_storedFreq (x : F32) : legalF32 fMin freqCeil (storedFreq x) = true := by
  obtain ⟨hl, hh⟩ := clamp_range (lo := fMin) (hi := freqCeil) (nanv := fMin) (by decide) (by decide)
    (by decide) x
  exact legalF32_plusZero hl hh

/-- A note's frequency is legal. -/
theorem legal_noteRom (n : BitVec 7) : legalF32 fMin freqCeil (noteRom n) = true := by
  obtain ⟨hl, hh⟩ := Tables.noteRom_range n
  refine (legalF32_iff _ _ _).2 ⟨hl, hh, fun hz => ?_⟩
  rw [hz] at hl
  exact absurd hl (by decide)

/-! ## The parameters of a state -/

theorem legalF32s_of_sameCore {s t : State} (h : LegalF32s s) (e : SameCore s t) : LegalF32s t := by
  obtain ⟨params, phase, lastErr, shadow, seq, note, mb, audio, _, _, _, _⟩ := s
  obtain ⟨rfl, rfl, rfl, rfl, rfl, rfl, rfl⟩ := e
  exact ⟨h.fs, h.freq, h.amp, h.attack, h.decay, h.sustain, h.release, h.cutoff, h.res, h.feedback⟩

/-- A parameter stays legal where it keeps its value or takes a legal one. -/
theorem legal_of_ite {lo hi w : F32} {o : Option F32} {c : Prop} [Decidable c]
    (hw : c → legalF32 lo hi w = true) (ho : ∀ v, o = some v → legalF32 lo hi v = true) :
    ∀ v, (if c then some w else o) = some v → legalF32 lo hi v = true := by
  intro v hv
  split at hv
  · next hc => exact Option.some.inj hv ▸ hw hc
  · exact ho v hv

theorem legalF32s_setF32 {s : State} {p : F32Param} {w : F32} (h : LegalF32s s)
    (hw : legalF32 (Spec.f32Min p) (legalMax p) w = true) :
    LegalF32s { s with shadow := s.shadow.setF32 p w } where
  fs := by simpa using h.fs
  freq := h.freq
  amp := by rw [setF32_amp]; exact legal_of_ite (fun hp => by subst hp; exact hw) h.amp
  attack := by rw [setF32_attack]; exact legal_of_ite (fun hp => by subst hp; exact hw) h.attack
  decay := by rw [setF32_decay]; exact legal_of_ite (fun hp => by subst hp; exact hw) h.decay
  sustain := by rw [setF32_sustain]; exact legal_of_ite (fun hp => by subst hp; exact hw) h.sustain
  release := by rw [setF32_release]; exact legal_of_ite (fun hp => by subst hp; exact hw) h.release
  cutoff := by rw [setF32_cutoff]; exact legal_of_ite (fun hp => by subst hp; exact hw) h.cutoff
  res := by rw [setF32_res]; exact legal_of_ite (fun hp => by subst hp; exact hw) h.res
  feedback := by rw [setF32_feedback]; exact legal_of_ite (fun hp => by subst hp; exact hw) h.feedback

/-- The mailbox may take any legal frequency. -/
theorem legalF32s_of_freq {s u : State} {w : F32} (h : LegalF32s s) (shadow : u.shadow = s.shadow)
    (freq : u.mb.freq = some w) (hw : legalF32 fMin freqCeil w = true) : LegalF32s u := by
  obtain ⟨_, _, _, _, _, _, _, _, _, _, _, _⟩ := u
  obtain rfl := shadow
  exact { h with freq := fun v hv => Option.some.inj (freq.symm.trans hv) ▸ hw }

theorem legalF32s_change {i : Instr} {s u : State} (hc : Change i s u) (hinv : CoreInv s)
    (h : LegalF32s s) : LegalF32s u := by
  cases hc with
  | nop | regRead => exact h
  | softReset => exact ⟨nofun, nofun, nofun, nofun, nofun, nofun, nofun, nofun, nofun, nofun⟩
  | sampleRate config legal =>
    obtain ⟨hl, hh⟩ := le_of_outside_false (by decide) (by decide) legal
    refine { h with fs := ?_ }
    rintro v ⟨⟩
    refine (legalF32_iff _ _ _).2 ⟨hl, hh, ?_⟩
    rintro rfl
    exact absurd hl (by decide)
  | f32 storable => exact legalF32s_setF32 h (legal_storable hinv h storable)
  | freq => exact legalF32s_of_freq h rfl rfl (legal_storedFreq _)
  | seqStart | tickStep => exact legalF32s_of_freq h rfl rfl (legal_noteRom _)
  | errClear | blockSize | engineMode | start | waveform | filterMode | delay | length | note | stepMs
    | seqStop | tickGate => exact { h with }

theorem legalF32s_kept : Kept (fun s => CoreInv s ∧ LegalF32s s) where
  ofCore h e := ⟨coreInv_of_sameCore h.1 e, legalF32s_of_sameCore h.2 e⟩
  change hc h := ⟨coreInv_change hc h.1, legalF32s_change hc h.1 h.2⟩
  render _ h := ⟨coreInv_render h.1, { h.2 with }⟩

/-- Settles O58. -/
theorem stepKeepsF32ParametersLegal : Obligations.StepKeepsF32ParametersLegal :=
  fun _ _ hinv h hstep => (legalF32s_kept.step hstep ⟨hinv, h⟩).2

/-- Settles O60: after reset no parameter is set, nothing runs, and both arrays list nothing. -/
theorem resetMeetsEveryInvariant : Obligations.ResetMeetsEveryInvariant where
  left :=
    { params := by decide, noteForm := rfl, noteIndex := nofun, ringForm := rfl, ringIndex := nofun
      writeIndex := by decide, block := nofun, delay := nofun, length := nofun, stepMs := nofun
      sequencer := nofun, engine := nofun, idle := fun _ => rfl }
  right := ⟨⟨nofun, nofun, nofun, nofun, nofun, nofun, nofun, nofun, nofun, nofun⟩, by decide, by decide⟩

end Sys2Proof.Proofs.Parameters
end

section
/-! The envelope's range (42_envelope.md R264 to R268): with legal times the slopes are not negative, each
ramp moves toward its target, and the level stays in [+0.0, 1.0]. -/

namespace Sys2Proof.Proofs.EnvelopeRange

open Sys2Proof Sys2Proof.Machine Sys2Proof.F32 Sys2Proof.Laws.F32 Sys2Proof.Laws.State
open Sys2Proof.Laws.Ops Sys2Proof.Proofs.Changes Sys2Proof.Proofs.Structure
open Sys2Proof.Proofs.Rounding Sys2Proof.Proofs.Intervals Sys2Proof.Proofs.Parameters
open Sys2Proof.Proofs.Envelope

/-! ## Sums and differences with a slope -/

/-- A level in [+0.0, 1.0]. -/
abbrev Level (x : F32) : Prop := Inside F32.zero F32.one x

theorem level_iff {x : F32} : legalF32 F32.zero F32.one x = true ↔ Level x := inside_iff bounds_unit

theorem Level.isFinite {x : F32} (h : Level x) : isFinite x = true := h.finite bounds_unit

theorem level_zero : Level F32.zero := level_iff.1 (by decide)

theorem level_one : Level F32.one := level_iff.1 (by decide)

theorem isInf_of_not_finite {x : F32} (hn : isNaN x = false) (h : isFinite x = false) :
    isInf x = true := by
  rw [not_isNaN_iff] at hn
  rw [Bool.eq_false_iff, ne_eq, isFinite_iff] at h
  rw [isInf_iff]
  omega

/-- A finite value rounds to itself. -/
theorem roundMag_scaled {x : F32} (h : isFinite x = true) : roundMag (scaled x) 1 = magBits x := by
  rw [scaled_eq]
  simpa using roundMag_magValue ((isFinite_iff x).1 h) Nat.one_pos

/-- Adding a value ≥ 0, perhaps +inf, moves up. -/
theorem le_add {x inc : F32} (hx : Nonneg x) (hfx : isFinite x = true) (hi : Nonneg inc) :
    Nonneg (F32.add x inc) ∧ le x (F32.add x inc) = true := by
  cases hf : isFinite inc with
  | true =>
    have hround := roundMag_scaled hfx
    rw [add_of_nonneg hx hi hfx hf]
    refine ⟨nonneg_pack _ _, (le_iff_magBits hx (nonneg_pack _ _)).2 ?_⟩
    rw [magBits_pack_roundMag, ← hround]
    exact roundMag_mono Nat.one_pos Nat.one_pos (by omega)
  | false =>
    obtain ⟨hadd, -⟩ := (specialsFollowIeee x inc).finiteInfinite hfx (isInf_of_not_finite hi.2 hf)
    rw [hadd]
    rw [isFinite_iff] at hfx
    rw [Bool.eq_false_iff, ne_eq, isFinite_iff] at hf
    exact ⟨hi, (le_iff_magBits hx hi).2 (by omega)⟩

/-- Subtracting a value ≥ 0, perhaps +inf, moves down. -/
theorem sub_le {x inc : F32} (hx : Nonneg x) (hfx : isFinite x = true) (hi : Nonneg inc) :
    le (F32.sub x inc) x = true := by
  cases hf : isFinite inc with
  | true =>
    rcases Nat.lt_or_ge (scaled x) (scaled inc) with h | h
    · rw [sub_of_lt hx hi hfx hf h, le_iff, key_of_nonneg hx, key, sign_pack true (roundMag_lt _ _),
        if_pos rfl, not_isNaN_iff, magBits_pack_roundMag]
      exact ⟨roundMag_le_inf _ _, hx.2, by omega⟩
    · have hround := roundMag_scaled hfx
      rw [sub_of_le hx hi hfx hf h, le_iff_magBits (nonneg_pack _ _) hx, magBits_pack_roundMag, ← hround]
      exact roundMag_mono Nat.one_pos Nat.one_pos (by omega)
  | false =>
    obtain ⟨-, hsub, -⟩ := (specialsFollowIeee x inc).finiteInfinite hfx (isInf_of_not_finite hi.2 hf)
    rw [hsub, le_iff, isNaN_neg, key_neg, key_of_nonneg hx, key_of_nonneg hi]
    exact ⟨hi.2, hx.2, by omega⟩

/-! ## Slopes (42_envelope.md R261, R266) -/

/-- The smallest positive f32. -/
def tiny : F32 := 0x00000001#32

/-- A slope over a legal time that is not zero is not negative. -/
theorem nonneg_slope {x t fs : F32} (hx : Level x) (ht : Inside F32.zero tMax t) (h0 : 0 < magBits t)
    (hfs : Inside fsMin fsMax fs) : Nonneg (F32.div x (F32.mul t fs)) := by
  have hpos : Inside tiny tMax t := ⟨ht.nonneg, h0, ht.high⟩
  have hprod := hpos.mul hfs ⟨by decide, by decide, by decide⟩ bounds_fs
  have hbounds : Bounds (F32.mul tiny fsMin) (F32.mul tMax fsMax) :=
    ⟨by decide +kernel, by decide +kernel, by decide +kernel⟩
  exact (hx.div hprod bounds_unit hbounds (by decide +kernel)).nonneg

theorem level_one_sub {x : F32} (h : Level x) : Level (F32.sub F32.one x) :=
  ((inside_self bounds_one.low).sub h bounds_one bounds_unit (by decide)).mono (by decide +kernel)
    (by decide +kernel)

/-- A time that is not zero, as the datapath tests it. -/
theorem eq_zero_false_iff {t : F32} (ht : Nonneg t) : F32.eq t F32.zero = false ↔ 0 < magBits t := by
  rw [← Bool.not_eq_true, eq_iff, key_of_nonneg ht, key_zero]
  have : isNaN F32.zero = false := by decide
  simp only [ht.2, this, true_and]
  omega

/-- What the ramps rely on of the block latch: a legal target for the decay, and slopes that are not
negative. -/
structure SlopesLegal (l : EnvLatch) : Prop where
  sustain : Level l.sustain
  attack : ∀ inc, l.attackInc = some inc → Nonneg inc
  decay : ∀ inc, l.decayInc = some inc → Nonneg inc
  release : F32.eq l.release F32.zero = false → ∀ x, Level x → Nonneg (releaseInc l x)

theorem slopesLegal_envSlopes {a d sus r fs : F32} (ha : legalF32 F32.zero tMax a = true)
    (hd : legalF32 F32.zero tMax d = true) (hs : legalF32 F32.zero F32.one sus = true)
    (hr : legalF32 F32.zero tMax r = true) (hfs : legalF32 fsMin fsMax fs = true) :
    SlopesLegal (envSlopes a d sus r fs) := by
  rw [inside_iff bounds_time] at ha hd hr
  rw [level_iff] at hs
  rw [inside_iff bounds_fs] at hfs
  refine ⟨hs, fun inc h => ?_, fun inc h => ?_, fun h x hx =>
    nonneg_slope hx hr ((eq_zero_false_iff hr.nonneg).1 h) hfs⟩
  · simp only [envSlopes] at h
    split at h
    · cases h
    · next h0 =>
      obtain rfl := Option.some.inj h
      exact nonneg_slope level_one ha ((eq_zero_false_iff ha.nonneg).1 (by simpa using h0)) hfs
  · simp only [envSlopes] at h
    split at h
    · cases h
    · next h0 =>
      obtain rfl := Option.some.inj h
      exact nonneg_slope (level_one_sub hs) hd ((eq_zero_false_iff hd.nonneg).1 (by simpa using h0)) hfs

/-! ## The next level of each ramp -/

/-- A ramp whose sum does not fall does not fall where it stalls either. -/
theorem le_unstall {x new : F32} (hx : Level x) (hn : Nonneg new) (h : le x new = true) :
    Nonneg (unstall F32.nextUp x new) ∧ le x (unstall F32.nextUp x new) = true := by
  unfold unstall
  split
  · have hkey := key_nextUp hx.isFinite
    have hnan := isNaN_nextUp hx.isFinite
    rw [key_of_nonneg hx.nonneg] at hkey
    exact ⟨⟨sign_of_key_pos (by omega), hnan⟩,
      (le_iff _ _).2 ⟨hx.nonneg.2, hnan, by rw [hkey, key_of_nonneg hx.nonneg]; omega⟩⟩
  · exact ⟨hn, h⟩

/-- A ramp whose difference does not rise does not rise where it stalls either. -/
theorem unstall_le {x new : F32} (hx : Level x) (h : le new x = true) :
    le (unstall F32.nextDown x new) x = true := by
  unfold unstall
  split
  · exact (le_iff _ _).2 ⟨isNaN_nextDown hx.isFinite, hx.nonneg.2, by
      rw [key_nextDown hx.isFinite]; omega⟩
  · exact h

section

variable {l : EnvLatch} {x : F32}

theorem attackNext_range (hl : SlopesLegal l) (hx : Level x) :
    Nonneg (attackNext l x) ∧ le x (attackNext l x) = true := by
  unfold attackNext
  cases h : l.attackInc with
  | none =>
    exact le_unstall hx bounds_one.low ((le_iff_magBits hx.nonneg bounds_one.low).2 hx.high)
  | some inc =>
    obtain ⟨hn, hle⟩ := le_add hx.nonneg hx.isFinite (hl.attack inc h)
    exact le_unstall hx hn hle

/-- The decay reaches its target, or moves down. -/
theorem decayNext_range (hl : SlopesLegal l) (hx : Level x) :
    le (decayNext l x) l.sustain = true ∨ le (decayNext l x) x = true := by
  unfold decayNext
  cases h : l.decayInc with
  | none => exact .inl (unstall_nextDown_le hl.sustain.isFinite x)
  | some inc => exact .inr (unstall_le hx (sub_le hx.nonneg hx.isFinite (hl.decay inc h)))

theorem releaseNext_range {start : F32} (hl : SlopesLegal l) (hx : Level x) (hs : Level start) :
    le (releaseNext l start x) x = true := by
  unfold releaseNext
  refine unstall_le hx ?_
  split
  · exact (le_iff_magBits bounds_unit.low hx.nonneg).2 hx.low
  · next h => exact sub_le hx.nonneg hx.isFinite (hl.release (by simpa using h) start hs)

/-- A level that has not yet fallen to its target. -/
theorem level_of_not_le {n target : F32} (hx : Level x) (ht : Level target) (hn : le n x = true)
    (h : le n target = false) : Level n := by
  obtain ⟨hnan, -, hk⟩ := (le_iff _ _).1 hn
  have hpos : key target < key n := by
    by_contra hc
    rw [Bool.eq_false_iff] at h
    exact h ((le_iff _ _).2 ⟨hnan, ht.nonneg.2, by omega⟩)
  rw [key_of_nonneg ht.nonneg] at hpos
  have hnonneg : Nonneg n := ⟨sign_of_key_pos (by omega), hnan⟩
  exact ⟨hnonneg, Nat.zero_le _, ((le_iff_magBits hnonneg hx.nonneg).1 hn).trans hx.high⟩

end

/-- An advance keeps the level in [+0.0, 1.0]. -/
theorem level_envAdvance {l : EnvLatch} {e : EnvState} (hl : SlopesLegal l) (hx : Level e.level)
    (hs : Level e.relStart) : Level (envAdvance l e).level := by
  cases h : e.stage with
  | idle => rw [envAdvance_idle h]; exact level_zero
  | sustain => rw [envAdvance_sustain h]; exact hl.sustain
  | attack =>
    obtain ⟨hn, -⟩ := attackNext_range hl hx
    rw [envAdvance_attack h]
    split
    · exact level_one
    · next hle =>
      rw [le_iff_magBits bounds_one.low hn] at hle
      exact ⟨hn, Nat.zero_le _, by simp only; omega⟩
  | decay =>
    rw [envAdvance_decay h]
    split
    · exact hl.sustain
    · next hle =>
      exact level_of_not_le hx hl.sustain ((decayNext_range hl hx).resolve_left hle) (by simpa using hle)
  | release =>
    rw [envAdvance_release h]
    split
    · exact level_zero
    · next hle =>
      exact level_of_not_le hx level_zero (releaseNext_range hl hx hs) (by simpa using hle)

/-- An event keeps the level, and starts a release from it. -/
theorem level_envEvents {e : EnvState} (h : EnvLegal e) (gate trig : Bool) :
    Level (envEvents gate trig e).level ∧ Level (envEvents gate trig e).relStart := by
  obtain ⟨hlevel, -⟩ := envEvents_level gate trig e
  refine ⟨hlevel ▸ level_iff.1 h.level, ?_⟩
  obtain hs | hs := envEvents_relStart gate trig e <;> rw [hs]
  · exact level_iff.1 h.relStart
  · exact level_iff.1 h.level

/-- ENV_STEP keeps the envelope legal (10_state.md R76). -/
theorem envLegal_envStep {l : EnvLatch} {e : EnvState} (hl : SlopesLegal l) (gate trig : Bool)
    (h : EnvLegal e) : EnvLegal (envStep l gate trig e) := by
  obtain ⟨hx, hs⟩ := level_envEvents h gate trig
  obtain ⟨-, hstart⟩ := envAdvance_keeps l (envEvents gate trig e)
  exact ⟨level_iff.2 (level_envAdvance hl hx hs), level_iff.2 (by rw [envStep, hstart]; exact hs)⟩

/-! ## How far one sample moves the level (42_envelope.md R264, R268) -/

/-- Two values that are not negative and stand at the same place of the order are the same. -/
theorem eq_of_magBits {a b : F32} (ha : Nonneg a) (hb : Nonneg b) (h : magBits a = magBits b) : a = b :=
  eq_of_sign_magBits (ha.1.trans hb.1.symm) h

/-- ATTACK's step: no lower than the level, and no higher than the sum, or one unit up where it stalls. -/
theorem rising_step {x new : F32} (hx : Level x) (hnew : Nonneg new) (hle : le x new = true) {r : F32}
    (hr : r = if le F32.one (unstall F32.nextUp x new) then F32.one else unstall F32.nextUp x new) :
    le x r = true ∧ (le r new = true ∨ r = F32.nextUp x) := by
  obtain ⟨hn, hxn⟩ := le_unstall hx hnew hle
  have hxone : le x F32.one = true := (le_iff_magBits hx.nonneg bounds_one.low).2 hx.high
  by_cases hstall : F32.eq new x = true
  · rw [unstall, if_pos hstall] at hr hn hxn
    have hkey := key_nextUp hx.isFinite
    rw [key_of_nonneg hn, key_of_nonneg hx.nonneg] at hkey
    split at hr
    · next hone =>
      -- the neighbour above reaches 1.0 only from 1.0 itself or from just below it
      subst hr
      refine ⟨hxone, ?_⟩
      rw [le_iff_magBits bounds_one.low hn] at hone
      rw [le_iff_magBits hx.nonneg bounds_one.low] at hxone
      rw [le_iff_magBits hx.nonneg hnew] at hle
      rw [le_iff_magBits bounds_one.low hnew]
      by_cases htop : magBits x = magBits F32.one
      · exact .inl (by omega)
      · exact .inr (eq_of_magBits bounds_one.low hn (by omega))
    · subst hr
      exact ⟨hxn, .inr rfl⟩
  · rw [unstall, if_neg hstall] at hr
    split at hr
    · next hone =>
      subst hr
      exact ⟨hxone, .inl hone⟩
    · subst hr
      exact ⟨hle, .inl (le_self hnew.2)⟩

/-- The neighbour below a positive value is not negative. -/
theorem nonneg_nextDown {x : F32} (hf : isFinite x = true) (h : 0 < key x) : Nonneg (F32.nextDown x) := by
  have hlt : (key x - 1).natAbs < 2 ^ 31 := by
    have := key_bounds x
    omega
  refine ⟨?_, isNaN_nextDown hf⟩
  rw [F32.nextDown, if_pos hf, ofKey, sign_pack _ hlt]
  split
  · rfl
  · exact decide_eq_false (by omega)

/-- DECAY's and RELEASE's step toward a target that is not above the level: no higher than the level, and
no lower than the difference, or one unit down where it stalls. -/
theorem falling_step {x new target : F32} (hx : Level x) (ht : Level target) (hle : le new x = true)
    (htx : le target x = true) {r : F32}
    (hr : r = if le (unstall F32.nextDown x new) target then target else unstall F32.nextDown x new) :
    le r x = true ∧ (le new r = true ∨ r = F32.nextDown x) := by
  have hnx := unstall_le hx hle
  by_cases hstall : F32.eq new x = true
  · rw [unstall, if_pos hstall] at hr hnx
    split at hr
    · next hdone =>
      -- the neighbour below reaches the target only from the target itself or from just above it
      subst hr
      refine ⟨htx, ?_⟩
      obtain ⟨hnn, -, hk⟩ := (eq_iff _ _).1 hstall
      obtain ⟨-, -, hdk⟩ := (le_iff _ _).1 hdone
      obtain ⟨-, -, htk⟩ := (le_iff _ _).1 htx
      have hkey := key_nextDown hx.isFinite
      by_cases hbottom : key r = key x
      · exact .inl ((le_iff _ _).2 ⟨hnn, ht.nonneg.2, by omega⟩)
      · have hnonneg := nonneg_nextDown hx.isFinite (by
          rw [key_of_nonneg ht.nonneg] at hbottom htk
          omega)
        rw [key_of_nonneg hnonneg] at hkey hdk
        rw [key_of_nonneg ht.nonneg] at hbottom hdk htk
        exact .inr (eq_of_magBits ht.nonneg hnonneg (by omega))
    · subst hr
      exact ⟨hnx, .inr rfl⟩
  · rw [unstall, if_neg hstall] at hr
    split at hr
    · next hdone =>
      subst hr
      exact ⟨htx, .inl hdone⟩
    · subst hr
      exact ⟨hle, .inl (le_self ((le_iff _ _).1 hle).1)⟩

/-! ## The stages of one sample -/

section

variable {l : EnvLatch} {e : EnvState}

/-- A stage is followed by itself or by the next one of the cycle (42_envelope.md R267). -/
theorem stage_envAdvance (l : EnvLatch) (e : EnvState) :
    (e.stage, (envAdvance l e).stage) ∈
      [ (Stage.idle, Stage.idle), (.attack, .attack), (.attack, .decay), (.decay, .decay),
        (.decay, .sustain), (.sustain, .sustain), (.release, .release), (.release, .idle) ] := by
  cases h : e.stage with
  | idle => simp [envAdvance_idle h, h]
  | attack => rw [envAdvance_attack h]; split <;> simp [h]
  | decay => rw [envAdvance_decay h]; split <;> simp [h]
  | sustain => simp [envAdvance_sustain h, h]
  | release => rw [envAdvance_release h]; split <;> simp [h]

theorem envAdvance_attack_pair (h : e.stage = .attack) :
    ((envAdvance l e).level, (envAdvance l e).stage) =
      if le F32.one (attackNext l e.level) then (F32.one, Stage.decay)
      else (attackNext l e.level, Stage.attack) := by
  rw [envAdvance_attack h]
  split <;> simp [h]

theorem envAdvance_decay_pair (h : e.stage = .decay) :
    ((envAdvance l e).level, (envAdvance l e).stage) =
      if le (decayNext l e.level) l.sustain then (l.sustain, Stage.sustain)
      else (decayNext l e.level, Stage.decay) := by
  rw [envAdvance_decay h]
  split <;> simp [h]

theorem envAdvance_release_pair (h : e.stage = .release) :
    ((envAdvance l e).level, (envAdvance l e).stage) =
      if le (releaseNext l e.relStart e.level) F32.zero then (F32.zero, Stage.idle)
      else (releaseNext l e.relStart e.level, Stage.release) := by
  rw [envAdvance_release h]
  split <;> simp [h]

/-- The first component of a choice between pairs. -/
theorem fst_of_eq_ite {c : Prop} [Decidable c] {p : F32 × Stage} {x y : F32} {t u : Stage}
    (h : p = if c then (x, t) else (y, u)) : p.1 = if c then x else y := by
  rw [h]
  split <;> rfl

/-- The attack is continuous: no step beyond the sum with its slope, or one unit where it stalls. -/
theorem attack_continuous {inc : F32} (hl : SlopesLegal l) (hx : Level e.level) (hs : e.stage = .attack)
    (hinc : l.attackInc = some inc) :
    le e.level (envAdvance l e).level = true ∧
      (le (envAdvance l e).level (F32.add e.level inc) = true ∨
        (envAdvance l e).level = F32.nextUp e.level) := by
  have hnext : attackNext l e.level = unstall F32.nextUp e.level (F32.add e.level inc) := by
    simp [attackNext, hinc]
  obtain ⟨hn, hle⟩ := le_add hx.nonneg hx.isFinite (hl.attack inc hinc)
  exact rising_step hx hn hle (hnext ▸ fst_of_eq_ite (envAdvance_attack_pair hs))

/-- So is the decay, from a level that is not below its target. -/
theorem decay_continuous {inc : F32} (hl : SlopesLegal l) (hx : Level e.level) (hs : e.stage = .decay)
    (hinc : l.decayInc = some inc) (htarget : le l.sustain e.level = true) :
    le (envAdvance l e).level e.level = true ∧
      (le (F32.sub e.level inc) (envAdvance l e).level = true ∨
        (envAdvance l e).level = F32.nextDown e.level) := by
  have hnext : decayNext l e.level = unstall F32.nextDown e.level (F32.sub e.level inc) := by
    simp [decayNext, hinc]
  exact falling_step hx hl.sustain (sub_le hx.nonneg hx.isFinite (hl.decay inc hinc)) htarget
    (hnext ▸ fst_of_eq_ite (envAdvance_decay_pair hs))

/-- So is the release. -/
theorem release_continuous (hl : SlopesLegal l) (hx : Level e.level) (hstart : Level e.relStart)
    (hs : e.stage = .release) (hpos : F32.eq l.release F32.zero = false) :
    le (envAdvance l e).level e.level = true ∧
      (le (F32.sub e.level (releaseInc l e.relStart)) (envAdvance l e).level = true ∨
        (envAdvance l e).level = F32.nextDown e.level) := by
  have hnext : releaseNext l e.relStart e.level =
      unstall F32.nextDown e.level (F32.sub e.level (releaseInc l e.relStart)) := by
    simp [releaseNext, hpos]
  exact falling_step hx level_zero (sub_le hx.nonneg hx.isFinite (hl.release hpos _ hstart))
    ((le_iff_magBits bounds_unit.low hx.nonneg).2 hx.low)
    (hnext ▸ fst_of_eq_ite (envAdvance_release_pair hs))

end

/-! ## The ramps in the statement's terms -/

section

variable {a d sus r fs : F32}

theorem attackNext_envSlopes (x : F32) :
    attackNext (envSlopes a d sus r fs) x = Spec.unstalled F32.nextUp x (Spec.attackRamp a fs x) := by
  show _ = unstall F32.nextUp x
    (if F32.eq a F32.zero then F32.one else F32.add x (F32.div F32.one (F32.mul a fs)))
  simp only [attackNext, envSlopes]
  split <;> rfl

theorem decayNext_envSlopes (x : F32) :
    decayNext (envSlopes a d sus r fs) x =
      Spec.unstalled F32.nextDown x (Spec.decayRamp d sus fs x) := by
  show _ = unstall F32.nextDown x
    (if F32.eq d F32.zero then sus else F32.sub x (F32.div (F32.sub F32.one sus) (F32.mul d fs)))
  simp only [decayNext, envSlopes]
  split <;> rfl

theorem releaseNext_envSlopes (start x : F32) :
    releaseNext (envSlopes a d sus r fs) start x =
      Spec.unstalled F32.nextDown x (Spec.releaseRamp r fs start x) := rfl

/-- A positive time is not the one the datapath takes for zero. -/
theorem eq_zero_of_lt {t : F32} (h : lt F32.zero t = true) : F32.eq t F32.zero = false := by
  obtain ⟨-, -, hk⟩ := (lt_iff _ _).1 h
  rw [← Bool.not_eq_true, eq_iff]
  exact fun ⟨_, _, he⟩ => by omega

/-- A decay that finds its target above the level takes it at once (42_envelope.md R268). -/
theorem decayNext_le_of_lt {l : EnvLatch} {x : F32} (hl : SlopesLegal l) (hx : Level x)
    (h : lt x l.sustain = true) : le (decayNext l x) l.sustain = true := by
  obtain hle | hle := decayNext_range hl hx
  · exact hle
  · exact le_trans hle (Scope.le_of_lt h)

end

/-- Settles O41: the range is `envLegal_envStep`, the continuity one lemma per ramp, and the exact step of
each ramp its equation. -/
theorem envelopeStaysInUnitRange : Obligations.EnvelopeStaysInUnitRange := by
  rintro a d sus r fs gate trig e e1 e2 ha hd hs hr hfs he rfl rfl
  have hl := slopesLegal_envSlopes ha hd hs hr hfs
  obtain ⟨hlevel, hgate⟩ := envEvents_level gate trig e
  obtain ⟨hx, hstart⟩ := level_envEvents he gate trig
  obtain ⟨hkeepGate, hkeepStart⟩ := envAdvance_keeps (envSlopes a d sus r fs) (envEvents gate trig e)
  rw [← hlevel]
  refine ⟨envLegal_envStep hl gate trig he, level_of_idle, stage_envAdvance _ _, rfl, ?_, ?_, ?_, ?_,
    ?_, ⟨hkeepGate.trans hgate, hkeepStart⟩, ?_, ?_, ?_⟩
  · intro hstage hpos
    exact attack_continuous hl hx hstage (if_neg (by simp [eq_zero_of_lt hpos]))
  · intro hstage hpos hle
    exact decay_continuous hl hx hstage (if_neg (by simp [eq_zero_of_lt hpos])) hle
  · intro hstage hlt
    have h := envAdvance_decay_pair (l := envSlopes a d sus r fs) hstage
    rw [if_pos (decayNext_le_of_lt hl hx hlt)] at h
    exact ⟨congrArg Prod.fst h, congrArg Prod.snd h⟩
  · intro hstage
    rw [envStep, envAdvance_sustain hstage]
    rfl
  · intro hstage hpos
    exact release_continuous hl hx hstart hstage (eq_zero_of_lt hpos)
  · rintro n hstage rfl
    rw [← attackNext_envSlopes (d := d) (sus := sus) (r := r)]
    exact envAdvance_attack_pair hstage
  · rintro n hstage rfl
    rw [← decayNext_envSlopes (a := a) (r := r)]
    exact envAdvance_decay_pair hstage
  · rintro n hstage rfl
    exact envAdvance_release_pair hstage

/-! ## The whole machine -/

theorem legal_latched {lo hi : F32} {num : BitVec 16} {o : Option F32} (hne : o ≠ none)
    (h : ∀ v, o = some v → legalF32 lo hi v = true) : legalF32 lo hi (latched num o) = true := by
  obtain ⟨v, rfl⟩ := Option.ne_none_iff_exists'.1 hne
  exact h v rfl

/-- In a voice mode the latched slopes are those of legal parameters. -/
theorem slopesLegal_voiceLatch {s : State} (hset : Spec.voiceSet s) (h : LegalF32s s)
    (hfs : legalF32 fsMin fsMax s.audio.fsAct = true) : SlopesLegal s.voiceLatch.env := by
  obtain ⟨-, -, -, ha, hd, hs, hr, -⟩ := hset
  exact slopesLegal_envSlopes (legal_latched ha h.attack) (legal_latched hd h.decay)
    (legal_latched hs h.sustain) (legal_latched hr h.release) hfs

/-- A RUNNING block keeps the envelope legal: in a mode with a voice its parameters are set. -/
theorem envLegal_renderBlock {s : State} (hinv : CoreInv s) (h : LegalF32s s) (hp : s.phase = .running)
    (he : EnvLegal s.audio.env) : EnvLegal s.renderBlock.audio.env := by
  obtain ⟨m, hm, hvalid, -⟩ := hinv.engine hp
  have hset : Spec.modeSet s m := (modeParamsValid_iff s m).1 hvalid
  have hfs := legal_fsAct hinv h hp
  refine renderSamples_keeps (P := fun a => EnvLegal a.env) (fun trig x a ha => ?_) _ _ s.latchedAudio he
  cases m with
  | voice =>
    simp only [State.blockLatch, hm, Option.getD_some, sample]
    exact envLegal_envStep (slopesLegal_voiceLatch hset h hfs) _ _ ha
  | delay =>
    simp only [State.blockLatch, hm, Option.getD_some, sample]
    exact ha
  | voiceDelay =>
    simp only [State.blockLatch, hm, Option.getD_some, sample]
    exact envLegal_envStep (slopesLegal_voiceLatch hset.1 h hfs) _ _ ha

theorem envLegal_reset : EnvLegal EnvState.reset := ⟨by decide, by decide⟩

theorem envLegal_change {i : Instr} {s u : State} (hc : Change i s u) (h : EnvLegal s.audio.env) :
    EnvLegal u.audio.env := by
  cases hc with
  | softReset | start => exact envLegal_reset
  | _ => exact h

theorem envLegal_kept : Kept (fun s => (CoreInv s ∧ LegalF32s s) ∧ EnvLegal s.audio.env) where
  ofCore h e := ⟨legalF32s_kept.ofCore h.1 e, e.audio ▸ h.2⟩
  change hc h := ⟨legalF32s_kept.change hc h.1, envLegal_change hc h.2⟩
  render hp h := ⟨legalF32s_kept.render hp h.1, envLegal_renderBlock h.1.1 h.1.2 hp h.2⟩

/-- Settles O59. -/
theorem stepKeepsTheEnvelopeLegal : Obligations.StepKeepsTheEnvelopeLegal :=
  fun _ _ hinv h he hstep => (envLegal_kept.step hstep ⟨⟨hinv, h⟩, he⟩).2

end Sys2Proof.Proofs.EnvelopeRange
end

section
/-! Results that need no rounding: the waveshaper's values (41_oscillator.md R229 to R234), and the filter
at rest (43_filter.md R306). -/

namespace Sys2Proof.Proofs.Exact

open Sys2Proof Sys2Proof.Machine Sys2Proof.F32 Sys2Proof.Laws.F32 Sys2Proof.Proofs.Rounding
open Sys2Proof.Proofs.Intervals Sys2Proof.Proofs.Tables Sys2Proof.Proofs.EnvelopeRange

/-! ## Exact results -/

/-- `x` is finite, and its value is `v` units of 2^-149. -/
def Exactly (x : F32) (v : Int) : Prop := isFinite x = true ∧ value x = v

/-- `v` units of 2^-149 are the value of an f32. -/
def Representable (v : Int) : Prop := ∃ m < 0x7F800000, magValue m = v.natAbs

theorem representable_of_natAbs {v : Int} {j e : Nat} (h : v.natAbs = j * 2 ^ e) (hj : j ≤ 2 ^ 24)
    (he : e ≤ 252) : Representable v := by
  obtain ⟨m, hm, hv⟩ := exists_magValue e j hj he
  exact ⟨m, hm, hv.trans h.symm⟩

/-- A number that is an integer of 24 bits times a power of two is an f32. -/
theorem representable_mul_pow {j : Int} {e : Nat} (hj : j.natAbs ≤ 2 ^ 24) (he : e ≤ 252) :
    Representable (j * 2 ^ e) :=
  representable_of_natAbs (by rw [Int.natAbs_mul, Int.natAbs_pow]; rfl) hj he

/-- A result that is an f32 is not rounded. -/
theorem exactly_of_roundMag {s : Bool} {v : Int} {n d : Nat} (hv : Representable v) (hd : 0 < d)
    (hn : n = v.natAbs * d) (hs : v ≠ 0 → s = decide (v < 0)) :
    Exactly (pack s (roundMag n d)) v := by
  obtain ⟨m, hm, hmv⟩ := hv
  have hround : roundMag n d = m := by rw [hn, ← hmv]; exact roundMag_magValue hm hd
  have hlt : m < 2 ^ 31 := by omega
  rw [hround]
  refine ⟨by rw [isFinite_iff, magBits_pack s hlt]; exact hm, ?_⟩
  rw [value_pack s hlt, hmv]
  by_cases h0 : v = 0
  · simp [h0]
  · rw [hs h0]
    by_cases hneg : v < 0 <;> simp only [hneg, decide_true, decide_false, if_true, if_false,
      Bool.false_eq_true] <;> omega

section

variable {a b : F32} {x y z : Int}

theorem Exactly.sum (op : ArithOp) (ha : Exactly a x) (hb : Exactly b y) (h : Representable (x + y)) :
    Exactly (sum op a b) (x + y) := by
  obtain ⟨hfa, rfl⟩ := ha
  obtain ⟨hfb, rfl⟩ := hb
  rw [sum_of_isFinite op hfa hfb]
  exact exactly_of_roundMag h Nat.one_pos (Nat.mul_one _).symm fun h0 => if_neg h0

theorem Exactly.neg (ha : Exactly a x) : Exactly (F32.neg a) (-x) :=
  ⟨(isFinite_neg a).trans ha.1, by rw [value_neg, ha.2]⟩

theorem Exactly.sub (ha : Exactly a x) (hb : Exactly b y) (h : Representable (x - y)) :
    Exactly (F32.sub a b) (x - y) := by
  rw [sub_eq_add_neg] at h ⊢
  exact ha.sum .sub hb.neg h

theorem Exactly.abs (ha : Exactly a x) : Exactly (F32.abs a) |x| := by
  obtain ⟨hfa, rfl⟩ := ha
  refine ⟨by rw [isFinite_iff, magBits_abs]; exact (isFinite_iff a).1 hfa, ?_⟩
  rw [value, sign_abs, if_neg Bool.false_ne_true, ← Int.natCast_natAbs, natAbs_value, scaled_eq,
    scaled_eq, magBits_abs]

theorem Exactly.mul (ha : Exactly a x) (hb : Exactly b y) (hz : x * y = z * 2 ^ 149)
    (h : Representable z) : Exactly (F32.mul a b) z := by
  obtain ⟨hfa, rfl⟩ := ha
  obtain ⟨hfb, rfl⟩ := hb
  rw [mul_of_isFinite hfa hfb]
  refine exactly_of_roundMag h (by positivity) ?_ fun h0 => ?_
  · rw [← natAbs_value, ← natAbs_value, ← Int.natAbs_mul, hz, Int.natAbs_mul]
    rfl
  · have hprod : value a * value b ≠ 0 := by
      rw [hz]
      exact mul_ne_zero h0 (by norm_num)
    obtain ⟨h1, h2⟩ := mul_ne_zero_iff.1 hprod
    rw [sign_of_value_ne_zero h1, sign_of_value_ne_zero h2, ← mul_neg_iff_of_ne_zero h1 h2, hz,
      decide_eq_decide]
    omega

/-- A value of at most 1.0 in magnitude. -/
theorem unit_of_magBits (h : magBits a ≤ 0x3F800000) :
    le F32.minusOne a = true ∧ le a F32.one = true := by
  have hn : isNaN a = false := by rw [not_isNaN_iff]; omega
  have hk := natAbs_key a
  constructor <;> rw [le_iff]
  · exact ⟨by decide, hn, by rw [key_minusOne]; omega⟩
  · exact ⟨hn, by decide, by rw [key_one]; omega⟩

theorem unit_of_exactly (ha : Exactly a x) (hx : x.natAbs ≤ 2 ^ 149) :
    le F32.minusOne a = true ∧ le a F32.one = true := by
  apply unit_of_magBits
  have hone : magValue 0x3F800000 = 2 ^ 149 := by decide +kernel
  have hscaled := natAbs_value a
  rw [ha.2, scaled_eq] at hscaled
  exact magValue_strictMono.le_iff_le.1 (by omega)

end

/-! ## SHAPE -/

theorem exactly_one : Exactly F32.one (2 ^ 149) := ⟨by decide, by decide +kernel⟩

theorem exactly_two : Exactly F32.two (2 ^ 150) := ⟨by decide, by decide +kernel⟩

/-- The top 24 bits of the phase word. -/
theorem toNat_phase (oscP : BitVec 32) : (oscP.extractLsb' 8 24).toNat = oscP.toNat / 2 ^ 8 := by
  have := oscP.isLt
  rw [BitVec.extractLsb'_toNat, Nat.shiftRight_eq_div_pow]
  exact Nat.mod_eq_of_lt (by omega)

/-- u2f is exact below 2^24 (00_scope.md R13). -/
theorem exactly_ofNat {n : Nat} (h : n < 2 ^ 24) : Exactly (F32.ofNat n) (n * 2 ^ 149) := by
  refine exactly_of_roundMag (representable_mul_pow (by omega) (by norm_num)) Nat.one_pos ?_ ?_
  · rw [Int.natAbs_mul, Int.natAbs_pow]
    simp
  · intro _
    rw [eq_comm, decide_eq_false_iff_not]
    omega

/-- The phase as an f32 is exact (41_oscillator.md R224). -/
theorem exactly_phaseF32 (oscP : BitVec 32) :
    Exactly (phaseF32 oscP) ((oscP.toNat / 2 ^ 8 : Nat) * 2 ^ 125) := by
  have hlt : oscP.toNat / 2 ^ 8 < 2 ^ 24 := by
    have := oscP.isLt
    omega
  have hscale : Exactly 0x33800000#32 (2 ^ 125) := ⟨by decide, by decide +kernel⟩
  rw [phaseF32, toNat_phase]
  exact (exactly_ofNat hlt).mul hscale (by ring) (representable_mul_pow (by omega) (by norm_num))

theorem exactly_saw (oscP : BitVec 32) :
    Exactly (shapeSaw oscP) (((oscP.toNat / 2 ^ 8 : Nat) - 2 ^ 23 : Int) * 2 ^ 126) := by
  have hlt := oscP.isLt
  have hdouble : Exactly (F32.mul F32.two (phaseF32 oscP)) ((oscP.toNat / 2 ^ 8 : Nat) * 2 ^ 126) :=
    exactly_two.mul (exactly_phaseF32 oscP) (by ring) (representable_mul_pow (by omega) (by norm_num))
  have hv : ((oscP.toNat / 2 ^ 8 : Nat) - 2 ^ 23 : Int) * 2 ^ 126 =
      (oscP.toNat / 2 ^ 8 : Nat) * 2 ^ 126 - 2 ^ 149 := by ring
  have hrep : Representable (((oscP.toNat / 2 ^ 8 : Nat) - 2 ^ 23 : Int) * 2 ^ 126) :=
    representable_mul_pow (by omega) (by norm_num)
  rw [hv] at hrep ⊢
  exact hdouble.sub exactly_one hrep

theorem exactly_triangle (oscP : BitVec 32) :
    Exactly (shapeTriangle oscP)
      ((2 ^ 22 - |((oscP.toNat / 2 ^ 8 : Nat) - 2 ^ 23 : Int)|) * 2 ^ 127) := by
  have hlt := oscP.isLt
  have hfold := (exactly_saw oscP).abs
  rw [abs_mul, abs_of_pos (show (0 : Int) < 2 ^ 126 by positivity)] at hfold
  have habs : |((oscP.toNat / 2 ^ 8 : Nat) - 2 ^ 23 : Int)| ≤ 2 ^ 23 := by
    rw [abs_le]
    omega
  have hnonneg := abs_nonneg ((oscP.toNat / 2 ^ 8 : Nat) - 2 ^ 23 : Int)
  generalize |((oscP.toNat / 2 ^ 8 : Nat) - 2 ^ 23 : Int)| = k at *
  have hdouble : Exactly (F32.mul F32.two (F32.abs (shapeSaw oscP))) (k * 2 ^ 127) :=
    exactly_two.mul hfold (by ring) (representable_mul_pow (by omega) (by norm_num))
  have hv : (2 ^ 22 - k) * 2 ^ 127 = 2 ^ 149 - k * 2 ^ 127 := by ring
  have hrep : Representable ((2 ^ 22 - k) * 2 ^ 127) :=
    representable_mul_pow (by omega) (by norm_num)
  rw [hv] at hrep ⊢
  exact exactly_one.sub hdouble hrep

theorem shapeSine_eq (oscP : BitVec 32) :
    shapeSine oscP = sineRom (BitVec.ofNat 10 (oscP.toNat / 2 ^ 22)) := by
  rw [shapeSine]
  congr 1
  apply BitVec.eq_of_toNat_eq
  rw [BitVec.extractLsb'_toNat, Nat.shiftRight_eq_div_pow, BitVec.toNat_ofNat]

theorem sineQuarter_le : ∀ n ∈ sineQuarter, n ≤ 0x3F800000 := by decide +kernel

theorem magBits_sineHalf (k : Nat) : magBits (sineHalf k) ≤ 0x3F800000 := by
  rw [sineHalf]
  generalize (if k ≤ 256 then k else 512 - k) = j
  have hle : sineQuarter.getD j 0 ≤ 0x3F800000 := by
    rw [List.getD_eq_getElem?_getD]
    cases h : sineQuarter[j]? with
    | none => simp
    | some n => exact sineQuarter_le n (List.mem_of_getElem? h)
  rw [magBits, BitVec.toNat_ofNat]
  omega

theorem magBits_sineRom (i : BitVec 10) : magBits (sineRom i) ≤ 0x3F800000 := by
  rcases lt_trichotomy i.toNat 512 with h | h | h
  · rw [sineRom_first h]
    exact magBits_sineHalf _
  · obtain rfl : i = 512#10 := BitVec.eq_of_toNat_eq h
    decide
  · rw [sineRom_second h, magBits_neg]
    exact magBits_sineHalf _

theorem shapeSquare_eq (oscP : BitVec 32) :
    shapeSquare oscP = if 2 ^ 31 ≤ oscP.toNat then F32.minusOne else F32.one := by
  have hbit : oscP.getLsbD 31 = decide (2 ^ 31 ≤ oscP.toNat) := sign_eq oscP
  rw [shapeSquare, hbit]
  simp

/-- Settles O36: SAW and TRIANGLE are exact, SINE is an entry of its table, SQUARE one of two values; and
each of them is in [-1.0, 1.0]. -/
theorem sawAndTriangleAreExact : Obligations.SawAndTriangleAreExact := by
  intro oscP
  have hlt := oscP.isLt
  refine ⟨(exactly_saw oscP).1, (exactly_saw oscP).2, (exactly_triangle oscP).1, (exactly_triangle oscP).2,
    shapeSine_eq oscP, fun h => ?_, fun h => ?_, fun wf => ?_⟩
  · exact (shapeSquare_eq oscP).trans (if_neg (by omega))
  · exact (shapeSquare_eq oscP).trans (if_pos h)
  · cases wf with
    | sine => exact unit_of_magBits (magBits_sineRom _)
    | saw => exact unit_of_exactly (exactly_saw oscP) (by omega)
    | triangle =>
      refine unit_of_exactly (exactly_triangle oscP) ?_
      rcases abs_cases ((oscP.toNat / 2 ^ 8 : Nat) - 2 ^ 23 : Int) with ⟨h, _⟩ | ⟨h, _⟩ <;> rw [h] <;>
        omega
    | square =>
      show le F32.minusOne (shapeSquare oscP) = true ∧ le (shapeSquare oscP) F32.one = true
      rw [shapeSquare_eq]
      split <;> decide

/-! ## The filter at rest -/

theorem mul_zero_of_nonneg {f : F32} (hf : isFinite f = true) (hs : sign f = false) :
    F32.mul f 0#32 = 0#32 := by
  rw [mul_of_nonneg ⟨hs, isNaN_of_isFinite hf⟩ (by decide) hf (by decide),
    show scaled 0#32 = 0 by decide, Nat.mul_zero, roundMag_zero]
  rfl

theorem add_zero_of_ne_minusZero {x : F32} (hx : isFinite x = true) (hne : x ≠ 0x80000000#32) :
    F32.add x 0#32 = x := by
  have hround : roundMag (value x).natAbs 1 = magBits x := by
    rw [natAbs_value]
    exact roundMag_scaled hx
  rw [F32.add, sum_of_isFinite _ hx (by decide), show value 0#32 = 0 from value_zero, add_zero, hround]
  refine Eq.trans ?_ (pack_sign_magBits x)
  congr 1
  split
  · next h0 =>
    have hmag : magBits x = magBits 0x80000000#32 := (value_eq_zero_iff x).1 h0
    cases hs : sign x with
    | false => rfl
    | true => exact absurd (eq_of_sign_magBits (hs.trans (by decide)) hmag) hne
  · next h0 => exact (sign_of_value_ne_zero h0).symm

theorem sub_self_of_isFinite {x : F32} (hx : isFinite x = true) : F32.sub x x = 0#32 := by
  rw [F32.sub, sum_of_isFinite _ hx ((isFinite_neg x).trans hx), value_neg, add_neg_cancel, if_pos rfl,
    sign_neg, Bool.and_not_self, Int.natAbs_zero, roundMag_zero]
  rfl

/-- Settles O43: each product with a zero is +0.0, and adding it changes nothing. -/
theorem filterRestsAtItsInput : Obligations.FilterRestsAtItsInput := by
  intro f q x hf hq hx hsf hsq hne
  have hf0 := mul_zero_of_nonneg hf hsf
  have hq0 := mul_zero_of_nonneg hq hsq
  have hzero : F32.add 0#32 0#32 = 0#32 := add_zero_of_ne_minusZero (by decide) (by decide)
  have hsub : F32.sub 0#32 0#32 = 0#32 := sub_self_of_isFinite (by decide)
  simp only [fltStep, hf0, hq0, hzero, hsub, add_zero_of_ne_minusZero hx hne, sub_self_of_isFinite hx]

end Sys2Proof.Proofs.Exact
end

section
/-! The register map and the valid bitmaps (10_state.md R50, R60 to R63), and REG_READ
(40_command_port.md R190). -/

namespace Sys2Proof.Proofs.Registers

open Sys2Proof Sys2Proof.Machine

/-! ## The map -/

/-- STATUS put together from its fields is STATUS by its value. -/
theorem status_eq (s : State) : Spec.status s = s.statusWord := by
  unfold Spec.status State.statusWord
  cases s.lastErr <;> cases s.seq.run <;> cases s.phase <;> rfl

/-- The numbers below 0x080 and their registers, in the order of 10_state.md R60. -/
def fixedMap : List (Nat × Reg) :=
  [ (0x000, .id), (0x001, .status), (0x002, .paramValid), (0x003, .noteValid), (0x010, .fs),
    (0x011, .block), (0x012, .engineMode), (0x020, .freq), (0x021, .waveform), (0x022, .amp),
    (0x028, .attack), (0x029, .decay), (0x02A, .sustain), (0x02B, .release), (0x030, .cutoff),
    (0x031, .res), (0x032, .fmode), (0x038, .delay), (0x039, .feedback), (0x040, .seqLen),
    (0x041, .stepMs), (0x042, .seqStep), (0x043, .seqLastMs), (0x044, .mbGate), (0x045, .mbTrig) ]

theorem fixedReg_of_mem : ∀ e ∈ fixedMap, fixedReg e.1 = some e.2 ∧ e.1 < 0x080 := by decide

theorem mem_fixedMap_of_fixedReg {n : Nat} {r : Reg} (h : fixedReg n = some r) : (n, r) ∈ fixedMap := by
  unfold fixedReg at h
  split at h <;> cases h <;> decide

/-- The statement's map is the fixed registers and the notes, each with its value. -/
theorem registers_eq (s : State) :
    Spec.registers s = fixedMap.map (fun e => (e.1, s.regValue e.2)) ++
      (List.range s.params.seqMax).map (fun i => (0x080 + i, s.regValue (.note i))) := by
  have hgate : (BitVec.ofBool s.mb.gate).setWidth 32 = if s.mb.gate then 1#32 else 0#32 := by
    cases s.mb.gate <;> rfl
  simp [Spec.registers, fixedMap, State.regValue, status_eq, idValue, hgate]

/-- A number of the map is the number of a register, and stands there with its value. -/
theorem mem_registers_iff (s : State) (num : BitVec 16) (o : Option (BitVec 32)) :
    (num.toNat, o) ∈ Spec.registers s ↔
      ∃ r, regOf s.params.seqMax num = some r ∧ s.regValue r = o := by
  rw [registers_eq, List.mem_append, List.mem_map, List.mem_map, regOf]
  constructor
  · rintro (⟨e, he, heq⟩ | ⟨i, hi, heq⟩) <;> obtain ⟨hn, rfl⟩ := Prod.mk.inj heq
    · obtain ⟨hreg, hlt⟩ := fixedReg_of_mem e he
      rw [if_neg (by omega), ← hn]
      exact ⟨e.2, hreg, rfl⟩
    · have hi := List.mem_range.1 hi
      rw [if_pos (by omega), if_pos (by omega), ← hn, Nat.add_sub_cancel_left]
      exact ⟨_, rfl, rfl⟩
  · rintro ⟨r, hr, rfl⟩
    split at hr
    · next hge =>
      split at hr <;> cases hr
      next hlt =>
        exact .inr ⟨num.toNat - 0x080, List.mem_range.2 hlt, by rw [Nat.add_sub_cancel' hge]⟩
    · exact .inl ⟨(num.toNat, r), mem_fixedMap_of_fixedReg hr, rfl⟩

/-- Settles O15: `readReg` looks the number up in the map. -/
theorem regReadReturnsTheMappedRegister : Obligations.RegReadReturnsTheMappedRegister := by
  refine fun s n => ⟨fun v h => ?_, fun h => ?_, fun h => ?_⟩ <;>
    show s.completeData 0x01#8 (s.readReg n) = _
  · obtain ⟨r, hr, hv⟩ := (mem_registers_iff s n (some v)).1 h
    simp only [State.readReg, hr, hv]
    rfl
  · obtain ⟨r, hr, hv⟩ := (mem_registers_iff s n none).1 h
    simp only [State.readReg, hr, hv]
    rfl
  · cases hr : regOf s.params.seqMax n with
    | none => simp only [State.readReg, hr]; rfl
    | some r => exact absurd rfl (h _ ((mem_registers_iff s n _).2 ⟨r, hr, rfl⟩))

/-! ## The valid bitmaps -/

/-- A bit of a register that is a list of bits, bit 0 first, with zeros above. -/
theorem getLsbD_bits (l : List Bool) (k : Nat) :
    ((BitVec.ofBoolListLE l).setWidth 32).getLsbD k = (decide (k < 32) && l.getD k false) := by
  rw [BitVec.getLsbD_setWidth, BitVec.getLsbD_ofBoolListLE]

theorem paramValidWord_high (s : State) {k : Nat} (h : 17 ≤ k) : s.paramValidWord.getLsbD k = false := by
  rw [State.paramValidWord, getLsbD_bits,
    List.getD_eq_default _ _ (show s.paramBits.length ≤ k from h), Bool.and_false]

/-- NOTE_VALID[k] says that entry k is below SEQ_MAX and set (10_state.md R63). -/
theorem noteValidWord_bit (s : State) (k : Nat) :
    s.noteValidWord.getLsbD k =
      (decide (k < 16) && (decide (k < s.params.seqMax) && s.note.isSet k)) := by
  rw [State.noteValidWord, getLsbD_bits, State.noteBits]
  by_cases hk : k < 16
  · rw [List.getD_eq_getElem _ _ (by simpa using hk), List.getElem_map, List.getElem_range,
      decide_eq_true hk, decide_eq_true (by omega)]
  · rw [List.getD_eq_default _ _ (by simpa using hk), decide_eq_false hk, Bool.and_false,
      Bool.false_and]

/-- Settles O16: the bits of PARAM_VALID are read off its list, those of NOTE_VALID are
`noteValidWord_bit`. -/
theorem validBitsSayWhatIsSet : Obligations.ValidBitsSayWhatIsSet := by
  refine fun s => ⟨fun e he => ?_, fun k => paramValidWord_high s, fun k hk hmax => ?_, fun k h => ?_⟩
  · rw [State.paramValidWord, getLsbD_bits]
    fin_cases he <;> rfl
  · rw [noteValidWord_bit, decide_eq_true hk, decide_eq_true hmax]
    rfl
  · rw [noteValidWord_bit]
    obtain h | h := h
    · rw [decide_eq_false (by omega), Bool.false_and]
    · rw [decide_eq_false (show ¬ k < s.params.seqMax by omega), Bool.false_and, Bool.and_false]

end Sys2Proof.Proofs.Registers
end

section
/-! The commands that store a parameter: one equation for each regime of 40_command_port.md R184, and the
commands' own from them. -/

namespace Sys2Proof.Proofs.Commands

open Sys2Proof Sys2Proof.Machine Sys2Proof.F32 Sys2Proof.Laws.F32 Sys2Proof.Laws.Encoding
open Sys2Proof.Laws.Arrays Sys2Proof.Proofs.Scope Sys2Proof.Proofs.Changes
open Sys2Proof.Proofs.Structure Sys2Proof.Proofs.Parameters

/-! ## Responses -/

theorem complete_eq_ok (op : BitVec 8) (s t : State) : s.complete op (.ok t) = Spec.ok op t := rfl

theorem complete_eq_fail (op : BitVec 8) (s : State) (c : Code) :
    s.complete op (.error c) = Spec.fail op c s := rfl

/-- A field of a response, bit by bit. -/
theorem getLsbD_responseWord (op : BitVec 8) (c : Code) (v : BitVec 32) (i : Nat) :
    (responseWord op c v).getLsbD i =
      if i < 32 then v.getLsbD i
      else if i < 40 then c.number.getLsbD (i - 32)
      else if i < 56 then false else op.getLsbD (i - 56) := by
  have h : ∀ w : BitVec (8 + 16 + 8 + 32), w = op ++ 0#16 ++ c.number ++ v → w.getLsbD i =
      if i < 32 then v.getLsbD i
      else if i < 40 then c.number.getLsbD (i - 32)
      else if i < 56 then false else op.getLsbD (i - 56) := by
    rintro w rfl
    simp only [BitVec.getLsbD_append, BitVec.getLsbD_zero]
    split_ifs <;> (try omega) <;> rfl
  exact h _ rfl

/-- Settles O5. -/
theorem responseCarriesOpCodeAndData : Obligations.ResponseCarriesOpCodeAndData := by
  refine fun op c v => ⟨?_, ?_, LastErr.code_responseWord op c v, Responses.dataOf_responseWord op c v⟩ <;>
    apply BitVec.eq_of_getLsbD_eq <;> intro i hi <;> rw [bit_of_parts _ _ _ _ hi, getLsbD_responseWord]
  · rw [if_neg (by omega), if_neg (by omega), if_neg (by omega), Nat.add_sub_cancel_left]
  · rw [if_neg (by omega), if_neg (by omega), if_pos (by omega), BitVec.getLsbD_zero]

/-- Settles O14: none of the three has a check. -/
theorem nopErrClearAndSeqStopComplete : Obligations.NopErrClearAndSeqStopComplete :=
  fun s => ⟨complete_eq_ok _ s s, complete_eq_ok _ s _, complete_eq_ok _ s _⟩

/-! ## Operands and their bounds -/

section

variable {x lo hi nanv : F32}

theorem outside_eq_false (hl : le lo x = true) (hh : le x hi = true) : outside x lo hi = false := by
  obtain ⟨-, hx, -⟩ := (le_iff lo x).1 hl
  simp [outside, hx, lt_eq_false_of_le hl, gt, lt_eq_false_of_le hh]

theorem outside_eq_true (h : isNaN x = true ∨ lt x lo = true ∨ lt hi x = true) :
    outside x lo hi = true := by
  simpa [outside, gt, or_assoc] using h

theorem clamp_of_isNaN (h : isNaN x = true) : clamp x lo hi nanv = nanv := if_pos h

theorem clamp_of_lt (h : lt x lo = true) : clamp x lo hi nanv = lo := by
  obtain ⟨hx, -, -⟩ := (lt_iff x lo).1 h
  simp [clamp, hx, h]

theorem clamp_of_gt (hle : le lo hi = true) (h : lt hi x = true) : clamp x lo hi nanv = hi := by
  obtain ⟨-, hx, -⟩ := (lt_iff hi x).1 h
  simp [clamp, hx, lt_eq_false_of_le (le_trans hle (le_of_lt h)), gt, h]

theorem clamp_of_inside (hl : le lo x = true) (hh : le x hi = true) : clamp x lo hi nanv = x := by
  obtain ⟨-, hx, -⟩ := (le_iff lo x).1 hl
  simp [clamp, hx, lt_eq_false_of_le hl, gt, lt_eq_false_of_le hh]

/-- A value from 1.0 on is stored as it is. -/
theorem plusZero_of_one_le (h : le F32.one x = true) : plusZero x = x := by
  obtain ⟨-, -, hk⟩ := (le_iff _ _).1 h
  rw [key_one] at hk
  refine if_neg fun heq => ?_
  obtain ⟨-, -, hz⟩ := (eq_iff _ _).1 heq
  rw [key_zero] at hz
  omega

end

/-! ## The f32 parameters -/

/-- The model's store writes the register that the statement's does. -/
theorem setF32_eq_withF32 (h : Shadow) (p : F32Param) (v : F32) : h.setF32 p v = Spec.withF32 h v p := by
  cases p <;> rfl

section

variable {s : State} {p : F32Param} {x lo hi nanv : F32}

theorem storeF32_config_legal (hp : s.phase = .config) (ho : outside x lo hi = false) :
    s.storeF32 p x lo hi nanv = .ok { s with shadow := Spec.withF32 s.shadow (Spec.stored x) p } := by
  simp only [State.storeF32, hp, ho, setF32_eq_withF32]
  rfl

theorem storeF32_config_illegal (hp : s.phase = .config) (ho : outside x lo hi = true) :
    s.storeF32 p x lo hi nanv = .error .configRange := by
  simp only [State.storeF32, hp, ho]
  rfl

theorem storeF32_running (hp : s.phase = .running) :
    s.storeF32 p x lo hi nanv =
      .ok { s with shadow := Spec.withF32 s.shadow (Spec.stored (clamp x lo hi nanv)) p } := by
  simp only [State.storeF32, hp, setF32_eq_withF32]
  rfl

end

/-- Settles O17. -/
theorem configStoresLegalF32Parameter : Obligations.ConfigStoresLegalF32Parameter := by
  intro p x s hp hl hh
  rw [exec_f32Command, storeF32_config_legal hp (outside_eq_false hl hh)]
  rfl

/-- Settles O18. -/
theorem configRefusesIllegalF32Parameter : Obligations.ConfigRefusesIllegalF32Parameter := by
  intro p x s hp h
  rw [exec_f32Command, storeF32_config_illegal hp (outside_eq_true h)]
  rfl

/-- Settles O19: the statement's chain of cases is clampf. -/
theorem runningClampsF32Parameter : Obligations.RunningClampsF32Parameter := by
  intro p x s hp
  rw [exec_f32Command, storeF32_running hp]
  rfl

theorem execOscSetFreq_eq (x : F32) (s : State) :
    exec (.oscSetFreq x) s =
      Spec.ok 0x10#8 { s with mb := { s.mb with freq := some (plusZero (clamp x fMin freqCeil fMin)) } } :=
  rfl

/-- Settles O20: FREQ is clamped in either phase, and no value of its set is a zero. -/
theorem oscSetFreqClampsInBothPhases : Obligations.OscSetFreqClampsInBothPhases := by
  refine fun x s => ⟨fun h => ?_, fun h => ?_, fun hl hh => ?_⟩ <;> rw [execOscSetFreq_eq]
  · have hclamp : clamp x fMin freqCeil fMin = fMin := by
      obtain h | h := h
      · exact clamp_of_isNaN h
      · exact clamp_of_lt h
    rw [hclamp, plusZero_of_one_le (by decide)]
    rfl
  · have hclamp : clamp x fMin freqCeil fMin = freqCeil := clamp_of_gt (by decide) h
    rw [hclamp, plusZero_of_one_le (by decide)]
    rfl
  · have hclamp : clamp x fMin freqCeil fMin = x := clamp_of_inside hl hh
    rw [hclamp, plusZero_of_one_le hl]

/-! ## Enumerated parameters (30_encoding.md R149) -/

theorem waveformOf_of_mem {imm : BitVec 16} {wf : Waveform}
    (h : (imm.toNat, wf) ∈ [(0, Waveform.sine), (1, .saw), (2, .triangle), (3, .square)]) :
    waveformOf imm = some wf := by
  simp only [List.mem_cons, Prod.mk.injEq, List.not_mem_nil, or_false] at h
  obtain ⟨h, rfl⟩ | ⟨h, rfl⟩ | ⟨h, rfl⟩ | ⟨h, rfl⟩ := h <;> simp [waveformOf, h]

theorem waveformOf_eq_none {imm : BitVec 16} (h : 4 ≤ imm.toNat) : waveformOf imm = none := by
  unfold waveformOf
  split <;> simp_all

theorem filterModeOf_of_mem {imm : BitVec 16} {m : FilterMode}
    (h : (imm.toNat, m) ∈ [(0, FilterMode.low), (1, .band), (2, .high)]) :
    filterModeOf imm = some m := by
  simp only [List.mem_cons, Prod.mk.injEq, List.not_mem_nil, or_false] at h
  obtain ⟨h, rfl⟩ | ⟨h, rfl⟩ | ⟨h, rfl⟩ := h <;> simp [filterModeOf, h]

theorem filterModeOf_eq_none {imm : BitVec 16} (h : 3 ≤ imm.toNat) : filterModeOf imm = none := by
  unfold filterModeOf
  split <;> simp_all

theorem engineModeOf_of_mem {imm : BitVec 16} {m : EngineMode}
    (h : (imm.toNat, m) ∈ [(0, EngineMode.voice), (1, .delay), (2, .voiceDelay)]) :
    engineModeOf imm = some m := by
  simp only [List.mem_cons, Prod.mk.injEq, List.not_mem_nil, or_false] at h
  obtain ⟨h, rfl⟩ | ⟨h, rfl⟩ | ⟨h, rfl⟩ := h <;> simp [engineModeOf, h]

theorem engineModeOf_eq_none {imm : BitVec 16} (h : 3 ≤ imm.toNat) : engineModeOf imm = none := by
  unfold engineModeOf
  split <;> simp_all

/-- Settles O21: each command does what its operand's table says. -/
theorem waveformAndFilterModeFollowTheirTables : Obligations.WaveformAndFilterModeFollowTheirTables := by
  refine fun s imm => ⟨fun wf h => ?_, fun h => ?_, fun m h => ?_, fun h => ?_⟩
  · simp only [exec, execOscSetWaveform, waveformOf_of_mem h, complete_eq_ok]
  · simp only [exec, execOscSetWaveform, waveformOf_eq_none h, complete_eq_fail]
  · simp only [exec, execFltSetMode, filterModeOf_of_mem h, complete_eq_ok]
  · simp only [exec, execFltSetMode, filterModeOf_eq_none h, complete_eq_fail]

/-- Settles O22: the check in RUNNING is that the new mode's parameters are set. -/
theorem engSetModeChecksTheNewModesParameters : Obligations.EngSetModeChecksTheNewModesParameters := by
  refine fun s imm => ⟨fun m h => ⟨fun hok => ?_, fun hp hunset => ?_⟩, fun h => ?_⟩
  · have hcheck : ¬ (s.phase = .running ∧ s.modeParamsValid m = false) := by
      rintro ⟨hp, hv⟩
      obtain hc | hset := hok
      · exact absurd (hc.symm.trans hp) (by decide)
      · exact absurd ((modeParamsValid_iff s m).2 hset) (by simp [hv])
    simp only [exec, execEngSetMode, engineModeOf_of_mem h, if_neg hcheck, complete_eq_ok]
  · have hcheck : s.phase = .running ∧ s.modeParamsValid m = false :=
      ⟨hp, Bool.eq_false_iff.2 fun hv => hunset ((modeParamsValid_iff s m).1 hv)⟩
    simp only [exec, execEngSetMode, engineModeOf_of_mem h, if_pos hcheck, complete_eq_fail]
  · simp only [exec, execEngSetMode, engineModeOf_eq_none h, complete_eq_fail]

/-! ## Integer parameters and the rate -/

/-- Settles O23: the phase first, then the legal set. -/
theorem sampleRateAndBlockSizeAreSetInConfigOnly : Obligations.SampleRateAndBlockSizeAreSetInConfigOnly := by
  refine fun s x n => ⟨fun hp hl hh => ?_, fun hp h => ?_, fun hp => ?_, fun hp hl hh => ?_, fun hp h => ?_,
    fun hp => ?_⟩
  · have ho : outside x fsMin fsMax = false := outside_eq_false hl hh
    simp only [exec, execCfgSampleRate, hp, ho, Bool.false_eq_true, if_false, complete_eq_ok]
  · have ho : outside x fsMin fsMax = true := outside_eq_true h
    simp only [exec, execCfgSampleRate, hp, ho, if_true, complete_eq_fail]
  · simp only [exec, execCfgSampleRate, hp, complete_eq_fail]
  · have ho : ¬ (n.toNat < 1 ∨ s.params.blockMax < n.toNat) := by omega
    simp only [exec, execCfgBlockSize, hp, if_neg ho, complete_eq_ok]
  · have ho : n.toNat < 1 ∨ s.params.blockMax < n.toNat := by omega
    simp only [exec, execCfgBlockSize, hp, if_pos ho, complete_eq_fail]
  · simp only [exec, execCfgBlockSize, hp, complete_eq_fail]

/-- Settles O24. -/
theorem dlySetDelayRefusesBeyondCapacity : Obligations.DlySetDelayRefusesBeyondCapacity := by
  refine fun s n => ⟨fun h => ?_, fun h => ?_⟩
  · simp only [exec, execDlySetDelay, if_neg (show ¬ s.params.dlyCap ≤ n.toNat by omega), complete_eq_ok]
  · simp only [exec, execDlySetDelay, if_pos h, complete_eq_fail]

section

variable {s : State} {n lo hi : Nat}

/-- An operand inside its set is accepted as it is in either phase. -/
theorem rangedNat_of_inside (hl : lo ≤ n) (hh : n ≤ hi) : s.rangedNat n lo hi = .ok n := by
  unfold State.rangedNat
  split
  · exact if_neg (by omega)
  · rw [clampNat, max_eq_left hl, min_eq_left hh]

theorem rangedNat_config_outside (hp : s.phase = .config) (h : n < lo ∨ hi < n) :
    s.rangedNat n lo hi = .error .configRange := by
  simp only [State.rangedNat, hp, if_pos h]

theorem rangedNat_running (hp : s.phase = .running) :
    s.rangedNat n lo hi = .ok (min (max n lo) hi) := by
  simp only [State.rangedNat, hp, clampNat]

end

/-- Settles O46: refused while the sequencer runs; stopped, the integer regime between 1 and SEQ_MAX. -/
theorem seqSetLengthIsFrozenWhileRunning : Obligations.SeqSetLengthIsFrozenWhileRunning := by
  refine fun s n => ⟨fun hrun => ?_, fun hrun hl hh => ?_, fun hrun hp h => ?_, fun hrun hp h0 hmax => ?_,
    fun hrun hp hl hh => ?_⟩ <;> simp only [exec, execSeqSetLength, hrun, if_true, if_false,
      Bool.false_eq_true]
  · rfl
  · rw [rangedNat_of_inside hl hh]
    rfl
  · rw [rangedNat_config_outside hp (by omega)]
    rfl
  · rw [rangedNat_running hp, h0, max_eq_right (by omega), min_eq_left hmax]
    rfl
  · rw [rangedNat_running hp, max_eq_left hl, min_eq_right hh.le]
    rfl

/-- Settles O47: the index first, then the note; the entry written is read back, the others stay. -/
theorem seqSetNoteStoresOneEntry : Obligations.SeqSetNoteStoresOneEntry := by
  refine fun s i n => ⟨fun h => ?_, fun h hp hn => ?_, fun h hok => ?_⟩
  · simp only [exec, execSeqSetNote, if_pos h, complete_eq_fail]
  · simp only [exec, execSeqSetNote, if_neg (Nat.not_le.2 h),
      rangedNat_config_outside (lo := 0) (hi := noteMax) hp (.inr hn), complete_eq_fail]
  · have hranged : s.rangedNat n.toNat 0 noteMax = .ok (min n.toNat 127) := by
      obtain hp | hn := hok
      · rw [rangedNat_running hp, max_eq_left (Nat.zero_le _)]
        rfl
      · rw [min_eq_left hn]
        exact rangedNat_of_inside (Nat.zero_le _) hn
    refine ⟨s.note.write i.toNat (BitVec.ofNat 7 (min n.toNat 127)), ?_, ?_, fun j hj => ?_⟩
    · simp only [exec, execSeqSetNote, if_neg (Nat.not_le.2 h), hranged, complete_eq_ok]
    · rw [NoteRam.write, entryAt_insertEntry, if_pos rfl]
    · rw [NoteRam.write, entryAt_insertEntry, if_neg hj]

/-- Settles O48: the integer regime from 1 on, which leaves out zero alone. -/
theorem seqSetStepMsStoresAPositiveTime : Obligations.SeqSetStepMsStoresAPositiveTime := by
  refine fun s ms => ⟨fun h => ?_, fun h hp => ?_, fun h hp => ?_⟩ <;>
    simp only [exec, execSeqSetStepMs]
  · have hpos : ms.toNat ≠ 0 := fun h0 => h (BitVec.eq_of_toNat_eq h0)
    have hlt := ms.isLt
    rw [rangedNat_of_inside (by omega) (by omega)]
    simp only [BitVec.ofNat_toNat, BitVec.setWidth_eq, complete_eq_ok]
  · subst h
    rw [rangedNat_config_outside hp (.inl (by decide))]
    rfl
  · subst h
    rw [rangedNat_running hp]
    rfl

end Sys2Proof.Proofs.Commands
end

section
/-! START (46_engine.md R434). -/

namespace Sys2Proof.Proofs.Starting

open Sys2Proof Sys2Proof.Machine Sys2Proof.Proofs.Structure Sys2Proof.Proofs.Commands

/-- With FS, BLOCK and ENGINE_MODE set, what is left of START's checks in CONFIG. -/
theorem execStart_config {s : State} {fs : F32} {blk : BitVec 16} {m : EngineMode}
    (hp : s.phase = .config) (hfs : s.shadow.fs = some fs) (hblk : s.shadow.block = some blk)
    (hm : s.shadow.engineMode = some m) :
    exec .start s = s.complete 0x0B#8
      (if s.modeParamsValid m = false then .error .unset
        else if usesVoice m && !cutoffBelowNyquist s.shadow.cutoff fs then .error .configRange
        else .ok { s with phase := .running, audio := startedAudio fs blk s.mb.trig }) := by
  simp only [exec, execStart, hp, hfs, hblk, hm]

theorem execStart_running {s : State} (hp : s.phase = .running) :
    exec .start s = Spec.fail 0x0B#8 .wrongPhase s := by
  simp only [exec, execStart, hp, complete_eq_fail]

/-- START needs FS, BLOCK and ENGINE_MODE. -/
theorem execStart_unset {s : State} (hp : s.phase = .config)
    (h : s.shadow.fs = none ∨ s.shadow.block = none ∨ s.shadow.engineMode = none) :
    exec .start s = Spec.fail 0x0B#8 .unset s := by
  simp only [exec, execStart, hp]
  split
  · next hfs hblk hm => simp [hfs, hblk, hm] at h
  · rfl

/-- Settles O25. -/
theorem startClearsTheAudioDomain : Obligations.StartClearsTheAudioDomain := by
  intro s fs blk m hp hfs hblk hm hset hcut
  have hcheck : (usesVoice m && !cutoffBelowNyquist s.shadow.cutoff fs) = false := by
    by_cases hd : m = .delay
    · rw [hd]
      rfl
    · obtain ⟨fc, hfc, hlt⟩ := hcut hd
      have hbelow : cutoffBelowNyquist s.shadow.cutoff fs = true := by rw [hfc]; exact hlt
      rw [hbelow, Bool.not_true, Bool.and_false]
  refine ⟨Memory.zeroFilled, ?_, fun i => rfl⟩
  rw [execStart_config hp hfs hblk hm, (modeParamsValid_iff s m).2 hset, hcheck]
  rfl

/-- Settles O26: the phase, then what is unset, then the cutoff. -/
theorem startFailsInPriorityOrder : Obligations.StartFailsInPriorityOrder := by
  refine fun s => ⟨execStart_running, fun hp h => ?_, fun fs fc m hp hfs hblk hm hset hd hfc hlt => ?_⟩
  · by_cases hany : s.shadow.fs = none ∨ s.shadow.block = none ∨ s.shadow.engineMode = none
    · exact execStart_unset hp hany
    · obtain ⟨m, hm, hunset⟩ : ∃ m, s.shadow.engineMode = some m ∧ ¬ Spec.modeSet s m := by tauto
      simp only [not_or, Option.ne_none_iff_exists'] at hany
      obtain ⟨⟨fs, hfs⟩, ⟨blk, hblk⟩, -⟩ := hany
      have hvalid : s.modeParamsValid m = false :=
        Bool.eq_false_iff.2 fun hv => hunset ((modeParamsValid_iff s m).1 hv)
      rw [execStart_config hp hfs hblk hm, if_pos hvalid]
      rfl
  · obtain ⟨blk, hblk⟩ := Option.ne_none_iff_exists'.1 hblk
    have hcheck : (usesVoice m && !cutoffBelowNyquist s.shadow.cutoff fs) = true := by
      have hbelow : cutoffBelowNyquist s.shadow.cutoff fs = false := by rw [hfc]; exact hlt
      rw [hbelow]
      cases m with
      | delay => exact absurd rfl hd
      | _ => rfl
    rw [execStart_config hp hfs hblk hm, (modeParamsValid_iff s m).2 hset, hcheck]
    rfl

end Sys2Proof.Proofs.Starting
end

section
/-! The delay line (44_delay.md section 1): one step, and what a run of steps leaves where it was. -/

namespace Sys2Proof.Proofs.DelayLine

open Sys2Proof Sys2Proof.Machine Sys2Proof.Laws.State Sys2Proof.Laws.Arrays
open Sys2Proof.Proofs.Structure

/-- Settles O35: the entry is read before it is written. -/
theorem delayStepWritesOneEntry : Obligations.DelayStepWritesOneEntry := by
  refine fun cap d g x a hwf => ⟨rfl, ?_, fun j hj => ?_⟩ <;> rw [dlyAdvance_dly, memory_read_write hwf]
  · exact if_pos rfl
  · exact if_neg hj

/-- `n` steps on, the write index has wrapped as often as it came to the capacity (44_delay.md R343). -/
theorem toNat_nextWrite_iterate {cap : Nat} (hcap : cap ≤ 2 ^ 32) (n : Nat) :
    ∀ w : BitVec 32, w.toNat < cap → ((nextWrite cap)^[n] w).toNat = (w.toNat + n) % cap := by
  induction n with
  | zero => exact fun w hw => (Nat.mod_eq_of_lt hw).symm
  | succ n ih =>
    intro w hw
    have hnext := toNat_nextWrite (Nat.zero_lt_of_lt hw) hcap w
    rw [Function.iterate_succ_apply,
      ih (nextWrite cap w) (hnext ▸ Nat.mod_lt _ (Nat.zero_lt_of_lt hw)), hnext, Nat.mod_add_mod,
      Nat.add_assoc, Nat.add_comm 1 n]

section

variable {cap d : Nat} {g : F32}

@[simp] theorem delayRun_cons (x : F32) (xs : List F32) (a : AudioState) :
    Spec.delayRun cap d g (x :: xs) a = Spec.delayRun cap d g xs (dlyAdvance cap d g x a) := rfl

theorem delayRun_dlyW (xs : List F32) (a : AudioState) :
    (Spec.delayRun cap d g xs a).dlyW = (nextWrite cap)^[xs.length] a.dlyW := by
  induction xs generalizing a with
  | nil => rfl
  | cons x xs ih => rw [delayRun_cons, ih, dlyAdvance_dlyW, List.length_cons, Function.iterate_succ_apply]

/-- A run leaves every entry that its write index does not pass. -/
theorem delayRun_read (hcap : cap ≤ 2 ^ 32) (xs : List F32) {k : Nat} :
    ∀ a : AudioState, a.dly.wf = true → a.dlyW.toNat < cap →
      (∀ j < xs.length, (a.dlyW.toNat + j) % cap ≠ k) →
      (Spec.delayRun cap d g xs a).dly.read k = a.dly.read k := by
  induction xs with
  | nil => exact fun _ _ _ _ => rfl
  | cons x xs ih =>
    intro a hwf hw hk
    have hpos : 0 < cap := Nat.zero_lt_of_lt hw
    have hnext := toNat_nextWrite hpos hcap a.dlyW
    have hhere : k ≠ a.dlyW.toNat := by
      have h := hk 0 (by simp)
      rw [Nat.add_zero, Nat.mod_eq_of_lt hw] at h
      exact h.symm
    rw [delayRun_cons, ih (dlyAdvance cap d g x a) (memory_write_wf hwf _ _), dlyAdvance_dly,
      memory_read_write hwf, if_neg hhere]
    · rw [dlyAdvance_dlyW, hnext]
      exact Nat.mod_lt _ hpos
    · intro j hj
      rw [dlyAdvance_dlyW, hnext, Nat.mod_add_mod, Nat.add_assoc, Nat.add_comm 1 j]
      exact hk (j + 1) (by simpa using hj)

end

/-- `D` steps after the write at `w` the read index is `w` again, `D` being the delay, or the capacity
where the delay is 0. -/
theorem readIndex_after {cap d w : Nat} (hw : w < cap) (hd : d < cap) :
    ((w + if d = 0 then cap else d) % cap + cap - d) % cap = w := by
  split
  · next h0 =>
    rw [h0, Nat.add_mod_right, Nat.mod_eq_of_lt hw, Nat.sub_zero, Nat.add_mod_right, Nat.mod_eq_of_lt hw]
  · rcases Nat.lt_or_ge (w + d) cap with h | h
    · rw [Nat.mod_eq_of_lt h, show w + d + cap - d = w + cap by omega, Nat.add_mod_right,
        Nat.mod_eq_of_lt hw]
    · rw [Nat.mod_eq_sub_mod h, Nat.mod_eq_of_lt (show w + d - cap < cap by omega),
        show w + d - cap + cap - d = w by omega, Nat.mod_eq_of_lt hw]

/-- Fewer steps than the capacity do not come back to where they began. -/
theorem add_mod_ne_self {cap w j : Nat} (hw : w < cap) (h0 : 0 < j) (hj : j < cap) : (w + j) % cap ≠ w := by
  rcases Nat.lt_or_ge (w + j) cap with h | h
  · rw [Nat.mod_eq_of_lt h]
    omega
  · rw [Nat.mod_eq_sub_mod h, Nat.mod_eq_of_lt (by omega)]
    omega

/-- Settles O34: the entry just written is passed by no later write, and the read index reaches it. -/
theorem delayedSampleReturnsAfterTheDelay : Obligations.DelayedSampleReturnsAfterTheDelay := by
  intro cap d g x xs a _ hcap hwf hw hd hlen
  have hpos : 0 < cap := Nat.zero_lt_of_lt hw
  have hlt : xs.length + 1 ≤ cap := by
    rw [hlen]
    split <;> omega
  have hnext := toNat_nextWrite hpos hcap a.dlyW
  have hindex : readIndex cap d (Spec.delayRun cap d g (x :: xs) a).dlyW = a.dlyW.toNat := by
    rw [delayRun_dlyW, readIndex, toNat_nextWrite_iterate hcap _ _ hw, List.length_cons, hlen]
    exact readIndex_after hw hd
  rw [delayed, hindex, delayRun_cons,
    delayRun_read hcap xs (dlyAdvance cap d g x a) (memory_write_wf hwf _ _), dlyAdvance_dly,
    memory_read_write hwf, if_pos rfl]
  · rw [dlyAdvance_dlyW, hnext]
    exact Nat.mod_lt _ hpos
  · intro j hj
    rw [dlyAdvance_dlyW, hnext, Nat.mod_add_mod, Nat.add_assoc]
    exact add_mod_ne_self hw (by omega) (by omega)

end Sys2Proof.Proofs.DelayLine
end

section
/-! RENDER (46_engine.md R435 to R442): one sample after another, what each sample is, and what a block
keeps. -/

namespace Sys2Proof.Proofs.Rendering

open Sys2Proof Sys2Proof.Machine Sys2Proof.Laws.F32 Sys2Proof.Laws.State Sys2Proof.Laws.Ops
open Sys2Proof.Proofs.Structure Sys2Proof.Proofs.DelayLine

/-! ## RENDER as a whole -/

/-- Settles O27. -/
theorem renderIsSilentInConfig : Obligations.RenderIsSilentInConfig := by
  intro s hp
  simp only [exec, execRender, hp]
  rfl

theorem execRender_running {s : State} (hp : s.phase = .running)
    (hshape : hasShape s.params.numCh s.audio.blkAct.toNat s.audioIn = true) :
    exec .render s = .next
      { s with
        audio := s.renderBlock.audio
        outBlocks := List.replicate s.params.numCh s.renderBlock.out :: s.outBlocks } := by
  simp only [exec, execRender, hp, hshape, if_true]

/-- In RUNNING a RENDER that gives a next state has rendered its block. -/
theorem eq_of_execRender_running {s t : State} (hp : s.phase = .running) (h : exec .render s = .next t) :
    t = { s with
          audio := s.renderBlock.audio
          outBlocks := List.replicate s.params.numCh s.renderBlock.out :: s.outBlocks } := by
  obtain ⟨hc, -⟩ | ⟨-, -, rfl⟩ := execRender_next h
  · exact absurd (hp.symm.trans hc) (by decide)
  · rfl

theorem renderBlock_of_audioIn {s : State} {input : List F32} {others : List (List F32)}
    (hin : s.audioIn = input :: others) :
    s.renderBlock = renderSamples s.params.dlyCap s.blockLatch s.trigEvent input s.latchedAudio := by
  rw [State.renderBlock, hin, List.headD_cons]

/-- Settles O28. -/
theorem renderAnswersOneBlockOnEveryChannel : Obligations.RenderAnswersOneBlockOnEveryChannel := by
  intro s input others hp hin hlen hothers hnum
  have hshape : hasShape s.params.numCh s.audio.blkAct.toNat s.audioIn = true := by
    simp only [hasShape, hin, List.length_cons, List.all_cons, Bool.and_eq_true, beq_iff_eq,
      List.all_eq_true]
    exact ⟨hnum, hlen, hothers⟩
  obtain ⟨hfs, hblk⟩ := renderBlock_rates s
  refine ⟨_, _, execRender_running hp hshape, ?_, ?_, hfs, hblk⟩
  · rw [renderBlock_of_audioIn hin, renderSamples_length, hlen]
  · refine renderSamples_keeps (P := fun a => a.lastTrig = s.mb.trig) (fun trig x a ha => ?_) _ _
      s.latchedAudio rfl
    cases s.blockLatch <;> exact ha

/-! ## The output -/

/-- Every sample of a block is saturated. -/
theorem exists_sat_of_mem {cap : Nat} {l : Latch} {y : F32} :
    ∀ {trig : Bool} {xs : List F32} {a : AudioState}, y ∈ (renderSamples cap l trig xs a).out →
      ∃ x, y = F32.sat x := by
  intro trig xs
  induction xs generalizing trig with
  | nil => exact fun h => absurd h List.not_mem_nil
  | cons x xs ih =>
    intro a h
    obtain h | h := List.mem_cons.1 h
    · exact ⟨_, h⟩
    · exact ih h

/-- Settles O30: silence in CONFIG, and saturated samples in RUNNING. -/
theorem outputIsAlwaysInRange : Obligations.OutputIsAlwaysInRange := by
  intro s t h
  obtain ⟨-, rfl⟩ | ⟨-, -, rfl⟩ := execRender_next h <;>
    refine ⟨_, rfl, fun ch hch x hx => ?_⟩
  · obtain ⟨channel, -, rfl⟩ := List.mem_map.1 hch
    obtain ⟨-, -, rfl⟩ := List.mem_map.1 hx
    decide
  · obtain rfl := List.eq_of_mem_replicate hch
    obtain ⟨y, rfl⟩ := exists_sat_of_mem hx
    exact ⟨(sat_range y).1, Scope.minusOne_le_sat_le_one y⟩

/-! ## The mode of a block -/

section

variable {s : State}

theorem blockLatch_voice (h : s.shadow.engineMode = some .voice) : s.blockLatch = .voice s.voiceLatch := by
  simp only [State.blockLatch, h, Option.getD_some]

theorem blockLatch_delay (h : s.shadow.engineMode = some .delay) : s.blockLatch = .delay s.delayLatch := by
  simp only [State.blockLatch, h, Option.getD_some]

theorem blockLatch_voiceDelay (h : s.shadow.engineMode = some .voiceDelay) :
    s.blockLatch = .voiceDelay s.voiceLatch s.delayLatch := by
  simp only [State.blockLatch, h, Option.getD_some]

end

/-- Settles O31: what no sample of the mode touches, a block keeps; in CONFIG nothing moves. -/
theorem unusedUnitsKeepTheirState : Obligations.UnusedUnitsKeepTheirState := by
  intro s t h
  obtain ⟨-, rfl⟩ | ⟨-, -, rfl⟩ := execRender_next h
  · exact ⟨fun _ => ⟨rfl, rfl, rfl⟩, fun _ => ⟨rfl, rfl⟩⟩
  · refine ⟨fun hm => ?_, fun hm => ?_⟩
    · refine renderSamples_keeps
        (P := fun a => a.oscP = s.audio.oscP ∧ a.env = s.audio.env ∧ a.flt = s.audio.flt)
        (fun trig x a ha => ?_) _ _ s.latchedAudio ⟨rfl, rfl, rfl⟩
      rw [blockLatch_delay hm]
      exact ha
    · refine renderSamples_keeps (P := fun a => a.dly = s.audio.dly ∧ a.dlyW = s.audio.dlyW)
        (fun trig x a ha => ?_) _ _ s.latchedAudio ⟨rfl, rfl⟩
      rw [blockLatch_voice hm]
      exact ha

/-! ## What advances by the same step in every sample -/

/-- A part of the audio domain that every sample moves by `g` has moved once for each sample of a block. -/
theorem renderSamples_iterate {α : Type} {f : AudioState → α} {g : α → α} {cap : Nat} {l : Latch}
    (hstep : ∀ trig x a, f (sample cap l trig x a).audio = g (f a)) (trig : Bool) (xs : List F32)
    (a : AudioState) : f (renderSamples cap l trig xs a).audio = g^[xs.length] (f a) := by
  induction xs generalizing trig a with
  | nil => rfl
  | cons x xs ih =>
    rw [renderSamples_cons, ih, hstep, List.length_cons, Function.iterate_succ_apply]

theorem toNat_phaseAdvance_iterate (inc n : Nat) : ∀ P : BitVec 32,
    ((phaseAdvance inc)^[n] P).toNat = (P.toNat + n * inc) % 2 ^ 32 := by
  induction n with
  | zero =>
    intro P
    rw [Nat.zero_mul, Nat.add_zero]
    exact (Nat.mod_eq_of_lt P.isLt).symm
  | succ n ih =>
    intro P
    rw [Function.iterate_succ_apply, ih, phaseAdvance, BitVec.toNat_ofNat, Nat.mod_add_mod,
      Nat.add_assoc, Nat.succ_mul, Nat.add_comm inc]

/-- Settles O32. -/
theorem phaseAdvancesByTheIncrementEachSample : Obligations.PhaseAdvancesByTheIncrementEachSample := by
  intro s t input others v hp hin hv h
  have hstep : ∀ trig x a, (sample s.params.dlyCap s.blockLatch trig x a).audio.oscP =
      phaseAdvance v.inc a.oscP := by
    unfold Spec.latchedVoice at hv
    cases hl : s.blockLatch with
    | delay d => simp [hl] at hv
    | voice w =>
      obtain rfl : w = v := by simpa [hl] using hv
      exact fun _ _ _ => rfl
    | voiceDelay w d =>
      obtain rfl : w = v := by simpa [hl] using hv
      exact fun _ _ _ => rfl
  rw [eq_of_execRender_running hp h, renderBlock_of_audioIn hin]
  exact (congrArg BitVec.toNat (renderSamples_iterate hstep _ _ _)).trans
    (toNat_phaseAdvance_iterate v.inc input.length s.audio.oscP)

/-- Settles O33. -/
theorem writeIndexAdvancesByOneEachSample : Obligations.WriteIndexAdvancesByOneEachSample := by
  intro s t input others hp _ hcap hw hm hin h
  have hstep : ∀ trig x a, (sample s.params.dlyCap s.blockLatch trig x a).audio.dlyW =
      nextWrite s.params.dlyCap a.dlyW := by
    obtain hm | hm := hm
    · rw [blockLatch_delay hm]
      exact fun _ _ _ => rfl
    · rw [blockLatch_voiceDelay hm]
      exact fun _ _ _ => rfl
  rw [eq_of_execRender_running hp h, renderBlock_of_audioIn hin]
  exact (congrArg BitVec.toNat (renderSamples_iterate hstep _ _ _)).trans
    (toNat_nextWrite_iterate hcap input.length _ hw)

/-! ## One sample, from the registers -/

section

variable {s : State} {v : Spec.Voice}

/-- VOICE_STEP's audio domain, written out from the registers. -/
theorem voiceStep_audio (h : Spec.voiceIs s v) (trig : Bool) (a : AudioState) :
    (voiceStep s.voiceLatch trig a).audio = Spec.voiceAudio v s.audio.fsAct s.mb.gate trig a := by
  obtain ⟨h1, h2, h3, h4, h5, h6, h7, h8, h9, h10⟩ := h
  simp only [State.voiceLatch, h1, h2, h3, h4, h5, h6, h7, h8, h9, h10, latched, Option.getD_some]
  rfl

/-- VOICE_STEP's sample is the output that FMODE selects. -/
theorem voiceStep_out (h : Spec.voiceIs s v) (trig : Bool) (a : AudioState) :
    (voiceStep s.voiceLatch trig a).out =
      Spec.selected v (Spec.voiceAudio v s.audio.fsAct s.mb.gate trig a) := by
  have hmode : s.voiceLatch.fmode = v.fmode := by
    obtain ⟨-, -, -, -, -, -, -, -, -, h⟩ := h
    simp only [State.voiceLatch, h, Option.getD_some]
  rw [← voiceStep_audio h]
  show fltOut s.voiceLatch.fmode (voiceStep s.voiceLatch trig a).audio.flt = _
  rw [hmode, Spec.selected]
  cases v.fmode <;> rfl

end

/-- DLY_STEP, written out from the registers. -/
theorem delayStep_eq {s : State} {d : BitVec 32} {g : F32} (hd : s.shadow.delay = some d)
    (hg : s.shadow.feedback = some g) (cap : Nat) (y : F32) (a : AudioState) :
    delayStep cap s.delayLatch y a =
      { out := F32.add y (Spec.ringSample cap d.toNat a), audio := Spec.delayAudio cap d.toNat g y a } := by
  simp only [State.delayLatch, hd, hg, latched, Option.getD_some]
  rfl

section

variable {s : State} {v : Spec.Voice} {d : BitVec 32} {g : F32}

theorem sample_voice (hm : s.shadow.engineMode = some .voice) (hv : Spec.voiceIs s v) (cap : Nat)
    (trig : Bool) (x : F32) (a : AudioState) :
    (sample cap s.blockLatch trig x a).audio = Spec.voiceAudio v s.audio.fsAct s.mb.gate trig a ∧
      (sample cap s.blockLatch trig x a).out =
        Spec.selected v (Spec.voiceAudio v s.audio.fsAct s.mb.gate trig a) := by
  rw [blockLatch_voice hm]
  exact ⟨voiceStep_audio hv trig a, voiceStep_out hv trig a⟩

theorem sample_delay (hm : s.shadow.engineMode = some .delay) (hd : s.shadow.delay = some d)
    (hg : s.shadow.feedback = some g) (cap : Nat) (trig : Bool) (x : F32) (a : AudioState) :
    sample cap s.blockLatch trig x a =
      { out := F32.add (F32.sat x) (Spec.ringSample cap d.toNat a)
        audio := Spec.delayAudio cap d.toNat g (F32.sat x) a } := by
  rw [blockLatch_delay hm]
  exact delayStep_eq hd hg cap (F32.sat x) a

/-- The ring of the audio domain after VOICE_STEP is the one before it, so the delay reads the same
sample. -/
theorem sample_voiceDelay (hm : s.shadow.engineMode = some .voiceDelay) (hv : Spec.voiceIs s v)
    (hd : s.shadow.delay = some d) (hg : s.shadow.feedback = some g) (cap : Nat) (trig : Bool) (x : F32)
    (a : AudioState) :
    sample cap s.blockLatch trig x a =
      { out := F32.add
          (F32.sat (Spec.selected v (Spec.voiceAudio v s.audio.fsAct s.mb.gate trig a)))
          (Spec.ringSample cap d.toNat a)
        audio := Spec.delayAudio cap d.toNat g
          (F32.sat (Spec.selected v (Spec.voiceAudio v s.audio.fsAct s.mb.gate trig a)))
          (Spec.voiceAudio v s.audio.fsAct s.mb.gate trig a) } := by
  rw [blockLatch_voiceDelay hm]
  show delayStep cap s.delayLatch (F32.sat (voiceStep s.voiceLatch trig a).out)
    (voiceStep s.voiceLatch trig a).audio = _
  rw [delayStep_eq hd hg, voiceStep_out hv, voiceStep_audio hv]
  rfl

end

/-- L.trig_event: the counter has moved (46_engine.md R437). -/
theorem trigEvent_eq (s : State) : s.trigEvent = decide (s.mb.trig ≠ s.audio.lastTrig) := by
  rw [Bool.eq_iff_iff, State.trigEvent, bne_iff_ne, decide_eq_true_eq]

/-! ## The states a block goes through -/

/-- The audio domain before the first sample, between the samples, and after the last one. -/
def trail (cap : Nat) (l : Latch) : Bool → List F32 → AudioState → List AudioState
  | _, [], a => [a]
  | trig, x :: xs, a => a :: trail cap l false xs (sample cap l trig x a).audio

section

variable {cap : Nat} {l : Latch}

theorem trail_length (trig : Bool) (xs : List F32) (a : AudioState) :
    (trail cap l trig xs a).length = xs.length + 1 := by
  induction xs generalizing trig a with
  | nil => rfl
  | cons x xs ih => simp [trail, ih]

theorem trail_zero (trig : Bool) (xs : List F32) (a : AudioState) :
    (trail cap l trig xs a)[0]? = some a := by
  cases xs <;> rfl

/-- The trail ends where the block does. -/
theorem trail_last (trig : Bool) (xs : List F32) (a : AudioState) :
    (trail cap l trig xs a)[xs.length]? = some (renderSamples cap l trig xs a).audio := by
  induction xs generalizing trig a with
  | nil => rfl
  | cons x xs ih => exact ih false _

/-- Each state of the trail is a sample after the one before it, and only the first has the trigger. -/
theorem trail_succ (xs : List F32) : ∀ (trig : Bool) (a b : AudioState) (i : Nat) (x : F32),
    xs[i]? = some x → (trail cap l trig xs a)[i]? = some b →
      (trail cap l trig xs a)[i + 1]? = some (sample cap l (decide (i = 0) && trig) x b).audio ∧
        (renderSamples cap l trig xs a).out[i]? =
          some (F32.sat (sample cap l (decide (i = 0) && trig) x b).out) := by
  induction xs with
  | nil => exact fun _ _ _ _ _ h => by simp at h
  | cons y ys ih =>
    intro trig a b i x hx hb
    cases i with
    | zero =>
      obtain rfl : y = x := by simpa using hx
      obtain rfl : a = b := by simpa [trail] using hb
      exact ⟨trail_zero .., rfl⟩
    | succ i =>
      have h := ih false (sample cap l trig y a).audio b i x hx hb
      rw [Bool.and_false] at h
      simpa [trail] using h

end

/-- Settles O29: the states are the block's trail, and in each mode a sample is what `voiceStep_audio`,
`voiceStep_out` and `delayStep_eq` write out. -/
theorem renderStepsOneSampleAfterAnother : Obligations.RenderStepsOneSampleAfterAnother := by
  intro s input others t hp hin h
  have ht := eq_of_execRender_running hp h
  have hblock := renderBlock_of_audioIn hin
  refine ⟨trail s.params.dlyCap s.blockLatch s.trigEvent input s.latchedAudio, s.renderBlock.out,
    trail_length .., ?_, trail_zero .., ?_, by rw [ht], fun i x a trig hx ha htrig => ?_⟩
  · rw [hblock, renderSamples_length]
  · rw [ht, hblock]
    exact trail_last ..
  · have hnow : (decide (i = 0) && s.trigEvent) = trig := by rw [htrig, trigEvent_eq]
    obtain ⟨hnext, hout⟩ := trail_succ input s.trigEvent s.latchedAudio a i x hx ha
    rw [← hblock, hnow] at hout
    rw [hnow] at hnext
    refine ⟨⟨hnext, hout⟩, fun v hm hv => ?_, fun d g hm hd hg => ?_, fun v d g y hm hv hd hg hy => ?_⟩
    · obtain ⟨haudio, hsample⟩ := sample_voice hm hv s.params.dlyCap trig x a
      rw [haudio] at hnext
      rw [hsample] at hout
      exact ⟨hnext, hout⟩
    · rw [sample_delay hm hd hg] at hnext hout
      exact ⟨hnext, hout⟩
    · rw [sample_voiceDelay hm hv hd hg, ← hy] at hnext hout
      exact ⟨hnext, hout⟩

end Sys2Proof.Proofs.Rendering
end

section
/-! The sequencer (45_sequencer.md section 3): SEQ_START, CTL_TICK, and ticks in a row. -/

namespace Sys2Proof.Proofs.Sequencing

open Sys2Proof Sys2Proof.Machine Sys2Proof.Proofs.Structure Sys2Proof.Proofs.Commands

/-! ## Notes -/

theorem isSet_iff (m : NoteRam) (i : Nat) : m.isSet i = true ↔ entryAt m i ≠ none :=
  isSome_eq_true_iff _

/-- The frequency of a step whose note is set. -/
theorem stepFreq_of_entryAt {s : State} {i : Nat} {note : BitVec 7} (h : entryAt s.note i = some note) :
    s.stepFreq i = noteRom note := by
  rw [State.stepFreq, NoteRam.read, h, Option.getD_some]

/-! ## SEQ_START -/

theorem execSeqStart_complete {s : State} {now : BitVec 32} {n : BitVec 5} (hlen : s.seq.len = some n)
    (hms : s.seq.stepMs ≠ none) (hnotes : s.notesValid n.toNat = true) :
    exec (.seqStart now) s = Spec.ok 0x33#8
      { s with
        seq := { s.seq with run := true, step := 0#4, lastMs := now }
        mb := { s.mb with freq := some (s.stepFreq 0), trig := s.mb.trig + 1#32 } } := by
  obtain ⟨ms, hms⟩ := Option.ne_none_iff_exists'.1 hms
  simp only [exec, execSeqStart, hlen, hms, hnotes, if_true, complete_eq_ok]

theorem execSeqStart_incomplete {s : State} {now : BitVec 32}
    (h : ∀ n, s.seq.len = some n → s.seq.stepMs ≠ none → s.notesValid n.toNat = false) :
    exec (.seqStart now) s = Spec.fail 0x33#8 .unset s := by
  simp only [exec, execSeqStart]
  split
  · next len ms hlen hms =>
    rw [h len hlen (by simp [hms])]
    rfl
  · rfl

/-- Settles O49. -/
theorem seqStartPlaysStepZero : Obligations.SeqStartPlaysStepZero := by
  refine fun s now => ⟨fun n note0 hlen _ hms hset hnote => ?_, fun h => ?_⟩
  · have hnotes : s.notesValid n.toNat = true :=
      (notesValid_iff s n.toNat).2 fun i hi => (isSet_iff s.note i).2 (hset i hi)
    rw [execSeqStart_complete hlen hms hnotes, stepFreq_of_entryAt hnote]
  · refine execSeqStart_incomplete fun n hlen hms => Bool.eq_false_iff.2 fun hnotes => ?_
    obtain h | h | ⟨m, i, hm, hi, hunset⟩ := h
    · exact absurd (hlen.symm.trans h) (by simp)
    · exact hms h
    · obtain rfl : n = m := Option.some.inj (hlen.symm.trans hm)
      exact (isSet_iff s.note i).1 ((notesValid_iff s n.toNat).1 hnotes i hi) hunset

/-! ## CTL_TICK -/

section

variable {s : State} {gate : Bool} {now : BitVec 32}

theorem execCtlTick_of_due (h : s.seq.due now = true) :
    exec (.ctlTick gate now) s = Spec.ok 0x35#8
      { s with
        seq := { s.seq with step := s.seq.nextStep, lastMs := now }
        mb := { freq := some (s.stepFreq s.seq.nextStep.toNat), gate := gate,
                trig := s.mb.trig + 1#32 } } := by
  simp only [exec, execCtlTick, h, if_true, complete_eq_ok]

theorem execCtlTick_of_not_due (h : s.seq.due now = false) :
    exec (.ctlTick gate now) s = Spec.ok 0x35#8 { s with mb := { s.mb with gate := gate } } := by
  simp only [exec, execCtlTick, h, Bool.false_eq_true, if_false, complete_eq_ok]

end

/-- When a step is due, where the step time is set (45_sequencer.md R393). -/
theorem due_iff {q : SeqState} {ms now : BitVec 32} (h : q.stepMs = some ms) :
    q.due now = true ↔ q.run = true ∧ ms.toNat ≤ (now - q.lastMs).toNat := by
  simp [SeqState.due, SeqState.elapsed, h]

/-- The step after this one, as a number. -/
theorem toNat_nextStep {q : SeqState} {n : BitVec 5} (hlen : q.len = some n) (hn : n.toNat ≤ 16)
    (hstep : q.step.toNat < n.toNat) : q.nextStep.toNat = (q.step.toNat + 1) % n.toNat := by
  have hmod := Nat.mod_lt (q.step.toNat + 1) (Nat.zero_lt_of_lt hstep)
  simp only [SeqState.nextStep, hlen, Option.map_some, Option.getD_some, BitVec.toNat_ofNat]
  exact Nat.mod_eq_of_lt (by omega)

/-- Settles O50. -/
theorem ctlTickTakesAtMostOneStep : Obligations.CtlTickTakesAtMostOneStep := by
  refine fun s gate now => ⟨fun n ms note hrun hlen hn hms hle hstep hnote => ?_, fun h => ?_⟩
  · rw [execCtlTick_of_due ((due_iff hms).2 ⟨hrun, hle⟩), toNat_nextStep hlen hn hstep,
      stepFreq_of_entryAt hnote]
    simp only [SeqState.nextStep, hlen, Option.map_some, Option.getD_some]
  · refine execCtlTick_of_not_due ?_
    obtain h | ⟨ms, hms, hlt⟩ := h
    · rw [SeqState.due, h, Bool.false_and]
    · rw [← Bool.not_eq_true, due_iff hms]
      omega

/-- Right after a step none is due, where the step time is not zero. -/
theorem not_due_after_step {q : SeqState} {now : BitVec 32} (hpos : ∀ ms, q.stepMs = some ms → ms ≠ 0#32)
    (hset : q.run = true → q.stepMs ≠ none) (step : BitVec 4) :
    SeqState.due { q with step := step, lastMs := now } now = false := by
  by_cases hrun : q.run = true
  · obtain ⟨ms, hms⟩ := Option.ne_none_iff_exists'.1 (hset hrun)
    have hne : ms.toNat ≠ 0 := fun h0 => hpos ms hms (BitVec.eq_of_toNat_eq h0)
    rw [← Bool.not_eq_true, due_iff (q := { q with step := step, lastMs := now }) hms, BitVec.sub_self]
    simpa using fun _ => hne
  · simp [SeqState.due, hrun]

/-- Settles O51: after either tick no step is due at the same time, and the gate is already published. -/
theorem ctlTickIsIdempotent : Obligations.CtlTickIsIdempotent := by
  intro s t gate now hpos hset h
  cases hdue : s.seq.due now with
  | true =>
    obtain rfl := Host.Outcome.next.inj ((execCtlTick_of_due hdue).symm.trans h)
    exact execCtlTick_of_not_due (not_due_after_step hpos hset _)
  | false =>
    obtain rfl := Host.Outcome.next.inj ((execCtlTick_of_not_due hdue).symm.trans h)
    exact execCtlTick_of_not_due hdue

/-! ## Ticks in a row -/

/-- One tick, one step time after the last step, takes one step. -/
theorem tickRun_succ {s : State} {gate : Bool} {ms : BitVec 32} (k : Nat) (hrun : s.seq.run = true)
    (hms : s.seq.stepMs = some ms) :
    ∃ freq responses, Spec.tickRun gate ms (k + 1) s = Spec.tickRun gate ms k
      { s with
        seq := { s.seq with step := s.seq.nextStep, lastMs := s.seq.lastMs + ms }
        mb := { freq := freq, gate := gate, trig := s.mb.trig + 1#32 }
        responses := responses } := by
  have hdue : s.seq.due (s.seq.lastMs + ms) = true := by
    rw [due_iff hms, add_sub_cancel_left]
    exact ⟨hrun, le_rfl⟩
  refine ⟨some (s.stepFreq s.seq.nextStep.toNat), responseWord 0x35#8 .ok 0#32 :: s.responses, ?_⟩
  simp only [Spec.tickRun, hms, execCtlTick_of_due hdue]
  rfl

/-- Settles O52, by induction on the number of ticks. -/
theorem ticksAtTheStepTimeStepEachTime : Obligations.TicksAtTheStepTimeStepEachTime := by
  intro s gate n ms k
  induction k generalizing s with
  | zero =>
    intro hrun hlen _ hms hstep
    exact ⟨s, rfl, hrun, hlen, hms, (Nat.mod_eq_of_lt hstep).symm, by simp, by simp⟩
  | succ k ih =>
    intro hrun hlen hn hms hstep
    obtain ⟨freq, responses, htick⟩ := tickRun_succ (gate := gate) k hrun hms
    have hnext := toNat_nextStep hlen hn hstep
    obtain ⟨t, ht, hrun', hlen', hms', hstep', hlast, htrig⟩ := ih
      { s with
        seq := { s.seq with step := s.seq.nextStep, lastMs := s.seq.lastMs + ms }
        mb := { freq := freq, gate := gate, trig := s.mb.trig + 1#32 }
        responses := responses } hrun hlen hn hms
      (hnext ▸ Nat.mod_lt _ (Nat.zero_lt_of_lt hstep))
    refine ⟨t, htick.trans ht, hrun', hlen', hms', ?_, ?_, ?_⟩
    · rw [hstep', hnext, Nat.mod_add_mod, Nat.add_assoc, Nat.add_comm 1 k]
    · rw [hlast, BitVec.ofNat_add, show BitVec.ofNat 32 1 = 1 from rfl]
      ring
    · rw [htrig, BitVec.ofNat_add]
      ring

end Sys2Proof.Proofs.Sequencing
end

section
/-! The two domains (10_state.md sections 1 and 6): what moves PHASE, who writes what, what a command may
observe, and the rates in force. -/

namespace Sys2Proof.Proofs.Domains

open Sys2Proof Sys2Proof.Machine Sys2Proof.Laws.Ops Sys2Proof.Laws.State
open Sys2Proof.Proofs.Changes Sys2Proof.Proofs.LastErr Sys2Proof.Proofs.RoundTrip
open Sys2Proof.Proofs.Structure

/-! ## Frames of the changes -/

section

variable {i : Instr} {s u : State}

/-- No command writes the arguments, the inbox or the audio port's blocks. -/
theorem change_streams (hc : Change i s u) :
    u.params = s.params ∧ u.inbox = s.inbox ∧ u.audioIn = s.audioIn ∧ u.outBlocks = s.outBlocks := by
  cases hc <;> exact ⟨rfl, rfl, rfl, rfl⟩

theorem change_audio (hc : Change i s u) (hstart : i ≠ .start) (hreset : i ≠ .softReset) :
    u.audio = s.audio := by
  cases hc with
  | start => exact absurd rfl hstart
  | softReset => exact absurd rfl hreset
  | _ => rfl

/-- How PHASE moves, if it does. -/
def PhaseMoves (i : Instr) (s t : State) : Prop :=
  t.phase = s.phase ∨ (i = .start ∧ s.phase = .config ∧ t.phase = .running) ∨
    (i = .softReset ∧ t.phase = .config)

theorem change_phase (hc : Change i s u) : PhaseMoves i s u := by
  cases hc with
  | start config => exact .inr (.inl ⟨rfl, config, rfl⟩)
  | softReset => exact .inr (.inr ⟨rfl, rfl⟩)
  | _ => exact .inl rfl

/-- START's only change leaves CONFIG. -/
theorem change_start (hc : Change i s u) (hi : i = .start) : s.phase = .config ∧ u.phase = .running := by
  cases hc with
  | start config => exact ⟨config, rfl⟩
  | @f32 _ p => cases p <;> cases hi
  | _ => cases hi

theorem change_softReset (hc : Change i s u) (hi : i = .softReset) : u.phase = .config := by
  cases hc with
  | softReset => rfl
  | @f32 _ p => cases p <;> cases hi
  | _ => cases hi

/-- In RUNNING nothing but SOFT_RESET changes the configured sample rate and block size. -/
theorem change_configured (hc : Change i s u) (hp : s.phase = .running) (hreset : i ≠ .softReset) :
    u.shadow.fs = s.shadow.fs ∧ u.shadow.block = s.shadow.block := by
  cases hc with
  | sampleRate config => exact absurd (config.symm.trans hp) (by decide)
  | blockSize config => exact absurd (config.symm.trans hp) (by decide)
  | softReset => exact absurd rfl hreset
  | f32 => exact ⟨setF32_fs .., setF32_block ..⟩
  | _ => exact ⟨rfl, rfl⟩

/-- What leaves CONFIG puts the configured sample rate and block size in force. -/
theorem change_latches (hc : Change i s u) (hs : s.phase = .config) (hu : u.phase = .running) :
    s.shadow.fs = some u.audio.fsAct ∧ s.shadow.block = some u.audio.blkAct ∧ u.shadow = s.shadow := by
  cases hc with
  | start _ rate size => exact ⟨rate, size, rfl⟩
  | softReset => cases hu
  | _ => exact absurd (hs.symm.trans hu) (by decide)

end

/-! ## PHASE -/

theorem exec_phase {i : Instr} {s t : State} (h : exec i s = .next t) : PhaseMoves i s t := by
  by_cases hr : i = .render
  · subst hr
    obtain ⟨-, rfl⟩ | ⟨-, -, rfl⟩ := execRender_next h <;> exact .inl rfl
  · cases exec_ended hr h with
    | answered u v change response => subst response; exact (change_phase change :)
    | failed c listed raised => subst raised; exact .inl rfl

/-- A START that responds OK has started. -/
theorem start_of_ok {s t : State} (h : exec .start s = .next t)
    (hresp : t.responses = responseWord 0x0B#8 .ok 0#32 :: s.responses) :
    s.phase = .config ∧ t.phase = .running := by
  cases exec_ended (by decide) h with
  | answered u v change response => subst response; exact (change_start change rfl :)
  | failed c listed raised =>
    subst raised
    obtain rfl : Code.ok = c :=
      code_eq_of_responseWord_eq (List.cons.inj (hresp.symm.trans (raise_responses ..))).1
    exact absurd listed.1 (by decide)

/-- A step that moves PHASE took a hardware reset, or the word of a START or of a SOFT_RESET in order. -/
theorem request_of_phase_ne {s t : State} (h : step s = .next t) (hne : t.phase ≠ s.phase) :
    (∃ rest, s.inbox = .reset :: rest) ∨
    (∃ rendering rest, s.inbox = .command (bytesOfWord (encode .start)) false rendering :: rest) ∨
    (∃ rest, s.inbox = .command (bytesOfWord (encode .softReset)) false false :: rest) := by
  obtain ⟨-, rfl⟩ | ⟨i, u, hf, hexec⟩ | hf := step_next h
  · exact absurd rfl hne
  · obtain ⟨bytes, rendering, rest, hin, hd, hreset, rfl⟩ | ⟨bytes, input, rest, -, hd, rfl⟩ := fetch_run hf
    · obtain ⟨-, rfl⟩ := decodedBytesAreTheEncoding _ _ _ hd
      obtain hsame | ⟨rfl, -⟩ | ⟨rfl, -⟩ := exec_phase hexec
      · exact absurd hsame hne
      · exact .inr (.inl ⟨rendering, rest, hin⟩)
      · obtain rfl := hreset rfl
        exact .inr (.inr ⟨rest, hin⟩)
    · obtain ⟨hport, -⟩ := decodedBytesAreTheEncoding _ _ _ hd
      obtain hsame | ⟨rfl, -⟩ | ⟨rfl, -⟩ := exec_phase hexec
      · exact absurd hsame hne
      · cases hport
      · cases hport
  · obtain ⟨rest, hin, -⟩ | ⟨_, _, _, _, -, -, rfl⟩ := fetch_done hf
    · exact .inl ⟨rest, hin⟩
    · exact absurd rfl hne

theorem step_reset {s : State} {rest : List Request} (hin : s.inbox = .reset :: rest) :
    step s = .next { s.applyReset with inbox := rest } := by
  simp only [step, State.fetch, hin]

/-- Settles O53. -/
theorem onlyStartAndResetMoveThePhase : Obligations.OnlyStartAndResetMoveThePhase := by
  refine ⟨rfl, fun i s t h hs ht => ?_, fun i s t h hs ht => ?_, fun s t => start_of_ok,
    fun s t => request_of_phase_ne, fun s t h => ?_, fun s t rest hin h => ?_⟩
  · obtain hsame | ⟨hi, -⟩ | ⟨-, hconfig⟩ := exec_phase h
    · exact absurd (hs.symm.trans (hsame.symm.trans ht)) (by decide)
    · exact hi
    · exact absurd (hconfig.symm.trans ht) (by decide)
  · obtain hsame | ⟨-, hconfig, -⟩ | ⟨hi, -⟩ := exec_phase h
    · exact absurd (hs.symm.trans (hsame.symm.trans ht)) (by decide)
    · exact absurd (hs.symm.trans hconfig) (by decide)
    · exact hi
  · obtain rfl := Host.Outcome.next.inj h
    rfl
  · obtain rfl := Host.Outcome.next.inj ((step_reset hin).symm.trans h)
    rfl

/-! ## Who writes what -/

/-- Settles O54: `render_keeps` and the frames of the changes. -/
theorem eachDomainWritesOnlyItsOwnState : Obligations.EachDomainWritesOnlyItsOwnState := by
  intro i s t h
  by_cases hr : i = .render
  · subst hr
    obtain ⟨-, rfl⟩ | ⟨-, -, rfl⟩ := execRender_next h <;>
      exact ⟨⟨rfl, rfl, rfl⟩, fun _ => ⟨rfl, rfl, rfl, rfl, rfl, rfl, rfl⟩, fun hne => absurd rfl hne,
        fun hne => absurd rfl hne⟩
  · cases exec_ended hr h with
    | answered u v change response =>
      subst response
      obtain ⟨params, inbox, audioIn, outBlocks⟩ := change_streams change
      exact ⟨⟨params, inbox, audioIn⟩, fun hi => absurd hi hr, fun _ => outBlocks,
        fun _ hstart hreset => (change_audio change hstart hreset :)⟩
    | failed c listed raised =>
      subst raised
      exact ⟨⟨rfl, rfl, rfl⟩, fun hi => absurd hi hr, fun _ => rfl, fun _ _ _ => rfl⟩

/-! ## The rates in force -/

/-- In RUNNING no instruction but SOFT_RESET changes the rates, configured or in force. -/
theorem exec_rates {i : Instr} {s t : State} (h : exec i s = .next t) (hp : s.phase = .running)
    (hreset : i ≠ .softReset) :
    t.audio.fsAct = s.audio.fsAct ∧ t.audio.blkAct = s.audio.blkAct ∧ t.shadow.fs = s.shadow.fs ∧
      t.shadow.block = s.shadow.block := by
  by_cases hr : i = .render
  · subst hr
    obtain ⟨hrate, hsize⟩ := renderBlock_rates s
    obtain ⟨-, rfl⟩ | ⟨-, -, rfl⟩ := execRender_next h
    · exact ⟨rfl, rfl, rfl, rfl⟩
    · exact ⟨hrate, hsize, rfl, rfl⟩
  · cases exec_ended hr h with
    | answered u v change response =>
      subst response
      have hstart : i ≠ .start := fun hi =>
        absurd ((change_start change hi).1.symm.trans hp) (by decide)
      have haudio := change_audio change hstart hreset
      obtain ⟨hrate, hsize⟩ := change_configured change hp hreset
      exact ⟨congrArg AudioState.fsAct haudio, congrArg AudioState.blkAct haudio, hrate, hsize⟩
    | failed c listed raised => subst raised; exact ⟨rfl, rfl, rfl, rfl⟩

theorem ratesAreConfigured_change {i : Instr} {s u : State} (hc : Change i s u)
    (h : Spec.ratesAreConfigured s) : Spec.ratesAreConfigured u := by
  intro hu
  cases hs : s.phase with
  | config =>
    obtain ⟨hrate, hsize, hshadow⟩ := change_latches hc hs hu
    exact hshadow ▸ ⟨hrate, hsize⟩
  | running =>
    have hreset : i ≠ .softReset := fun hi => absurd ((change_softReset hc hi).symm.trans hu) (by decide)
    have hstart : i ≠ .start := fun hi => absurd ((change_start hc hi).1.symm.trans hs) (by decide)
    obtain ⟨hrate, hsize⟩ := change_configured hc hs hreset
    rw [hrate, hsize, change_audio hc hstart hreset]
    exact h hs

theorem ratesAreConfigured_kept : Kept Spec.ratesAreConfigured where
  ofCore h e := by
    intro ht
    rw [e.shadow, e.audio]
    exact h (e.phase.symm.trans ht)
  change := ratesAreConfigured_change
  render {s} hp h := by
    intro _
    obtain ⟨hrate, hsize⟩ := renderBlock_rates s
    obtain ⟨hfs, hblock⟩ := h hp
    exact ⟨hfs.trans (congrArg some hrate.symm), hblock.trans (congrArg some hsize.symm)⟩

/-- What leaves CONFIG has latched the configured rates. -/
theorem start_latches {s t : State} (h : exec .start s = .next t) (hs : s.phase = .config)
    (ht : t.phase = .running) :
    s.shadow.fs = some t.audio.fsAct ∧ s.shadow.block = some t.audio.blkAct ∧ t.shadow = s.shadow := by
  cases exec_ended (by decide) h with
  | answered u v change response => subst response; exact (change_latches change hs ht :)
  | failed c listed raised => subst raised; exact absurd (hs.symm.trans ht) (by decide)

/-- Settles O56. -/
theorem sampleRateAndBlockSizeAreFixedWhileRunning :
    Obligations.SampleRateAndBlockSizeAreFixedWhileRunning := by
  refine ⟨fun i s t h hp hreset => exec_rates h hp hreset, fun s t h hs ht => ?_,
    fun s t => ratesAreConfigured_kept.step, rfl⟩
  obtain ⟨hrate, hsize, hshadow⟩ := start_latches h hs ht
  exact ⟨hrate, hsize, hshadow ▸ hrate, hshadow ▸ hsize⟩

/-! ## What a command may observe -/

/-- Two results of the same checks and effect: the same code, or states that agree but for the audio
domain. -/
def Alike : Except Code State → Except Code State → Prop
  | .ok t, .ok u => ∃ b, u = { t with audio := b }
  | .error c, .error d => c = d
  | _, _ => False

/-- Two next states that agree but for the audio domain. -/
def SameEnd (o p : Host.Outcome State Fault Refusal) : Prop :=
  ∃ t b, o = .next t ∧ p = .next { t with audio := b }

/-- The same check on both sides. -/
theorem alike_ite {c c' : Prop} [Decidable c] [Decidable c'] {t t' e e' : Except Code State} (hc : c ↔ c')
    (ht : Alike t t') (he : Alike e e') : Alike (if c then t else e) (if c' then t' else e') := by
  by_cases h : c
  · rw [if_pos h, if_pos (hc.1 h)]
    exact ht
  · rw [if_neg h, if_neg fun h' => h (hc.2 h')]
    exact he

section

variable {s : State} {a : AudioState}

theorem sameEnd_of_alike {op : BitVec 8} {r r' : Except Code State} (h : Alike r r') :
    SameEnd (s.complete op r) ({ s with audio := a }.complete op r') := by
  cases r <;> cases r'
  case ok.ok t u =>
    obtain ⟨b, rfl⟩ := h
    exact ⟨_, b, rfl, rfl⟩
  case error.error c d =>
    obtain rfl : c = d := h
    exact ⟨_, a, rfl, rfl⟩
  all_goals exact h.elim

/-- A register's value is the control domain's. -/
theorem readReg_audio (num : BitVec 16) : { s with audio := a }.readReg num = s.readReg num := by
  have hvalue : { s with audio := a }.regValue = s.regValue := by
    funext r
    cases r <;> rfl
  simp only [State.readReg, hvalue]

theorem sameEnd_completeData {op : BitVec 8} (r : Except Code (BitVec 32)) :
    SameEnd (s.completeData op r) ({ s with audio := a }.completeData op r) := by
  cases r <;> exact ⟨_, a, rfl, rfl⟩

theorem sameEnd_regRead (num : BitVec 16) :
    SameEnd (exec (.regRead num) s) (exec (.regRead num) { s with audio := a }) := by
  have hread : exec (.regRead num) { s with audio := a } =
      { s with audio := a }.completeData 0x01#8 (s.readReg num) := by
    rw [← readReg_audio (a := a)]
    rfl
  rw [hread]
  exact sameEnd_completeData _

theorem rangedNat_audio (n lo hi : Nat) : { s with audio := a }.rangedNat n lo hi = s.rangedNat n lo hi := rfl

theorem storeF32_alike (p : F32Param) (x lo hi nanv : F32) :
    Alike (s.storeF32 p x lo hi nanv) ({ s with audio := a }.storeF32 p x lo hi nanv) := by
  unfold State.storeF32
  cases s.phase with
  | config => exact alike_ite Iff.rfl rfl ⟨a, rfl⟩
  | running => exact ⟨a, rfl⟩

/-- Of the audio domain a parameter's bound has fs_act alone. -/
theorem sameEnd_f32Command (ha : a.fsAct = s.audio.fsAct) (p : F32Param) (x : F32) :
    SameEnd (exec (Spec.f32Command p x) s) (exec (Spec.f32Command p x) { s with audio := a }) := by
  have hmax : Spec.f32Max { s with audio := a } p = Spec.f32Max s p := by
    simp only [Spec.f32Max, ha]
  rw [exec_f32Command, exec_f32Command, hmax]
  exact sameEnd_of_alike (storeF32_alike ..)

theorem sameEnd_cfgSampleRate (hz : F32) :
    SameEnd (exec (.cfgSampleRate hz) s) (exec (.cfgSampleRate hz) { s with audio := a }) := by
  refine sameEnd_of_alike ?_
  dsimp only
  split
  · rfl
  · exact alike_ite Iff.rfl rfl ⟨a, rfl⟩

theorem sameEnd_cfgBlockSize (n : BitVec 16) :
    SameEnd (exec (.cfgBlockSize n) s) (exec (.cfgBlockSize n) { s with audio := a }) := by
  refine sameEnd_of_alike ?_
  dsimp only
  split
  · rfl
  · exact alike_ite Iff.rfl rfl ⟨a, rfl⟩

theorem sameEnd_engSetMode (imm : BitVec 16) :
    SameEnd (exec (.engSetMode imm) s) (exec (.engSetMode imm) { s with audio := a }) := by
  refine sameEnd_of_alike ?_
  dsimp only
  split
  · rfl
  · exact alike_ite Iff.rfl rfl ⟨a, rfl⟩

/-- START gives both the same audio domain. -/
theorem sameEnd_start : SameEnd (exec .start s) (exec .start { s with audio := a }) := by
  refine sameEnd_of_alike ?_
  dsimp only
  split
  · rfl
  · split
    · exact alike_ite Iff.rfl rfl (alike_ite Iff.rfl rfl ⟨_, rfl⟩)
    · rfl

theorem sameEnd_oscSetWaveform (imm : BitVec 16) :
    SameEnd (exec (.oscSetWaveform imm) s) (exec (.oscSetWaveform imm) { s with audio := a }) := by
  refine sameEnd_of_alike ?_
  split
  · rfl
  · exact ⟨a, rfl⟩

theorem sameEnd_fltSetMode (imm : BitVec 16) :
    SameEnd (exec (.fltSetMode imm) s) (exec (.fltSetMode imm) { s with audio := a }) := by
  refine sameEnd_of_alike ?_
  split
  · rfl
  · exact ⟨a, rfl⟩

theorem sameEnd_dlySetDelay (n : BitVec 32) :
    SameEnd (exec (.dlySetDelay n) s) (exec (.dlySetDelay n) { s with audio := a }) :=
  sameEnd_of_alike (alike_ite Iff.rfl rfl ⟨a, rfl⟩)

theorem sameEnd_seqSetLength (n : BitVec 16) :
    SameEnd (exec (.seqSetLength n) s) (exec (.seqSetLength n) { s with audio := a }) := by
  refine sameEnd_of_alike ?_
  refine alike_ite Iff.rfl rfl ?_
  simp only [rangedNat_audio]
  split
  · rfl
  · exact ⟨a, rfl⟩

theorem sameEnd_seqSetNote (i : BitVec 16) (n : BitVec 32) :
    SameEnd (exec (.seqSetNote i n) s) (exec (.seqSetNote i n) { s with audio := a }) := by
  refine sameEnd_of_alike ?_
  refine alike_ite Iff.rfl rfl ?_
  simp only [rangedNat_audio]
  split
  · rfl
  · exact ⟨a, rfl⟩

theorem sameEnd_seqSetStepMs (ms : BitVec 32) :
    SameEnd (exec (.seqSetStepMs ms) s) (exec (.seqSetStepMs ms) { s with audio := a }) := by
  refine sameEnd_of_alike ?_
  simp only [rangedNat_audio]
  split
  · rfl
  · exact ⟨a, rfl⟩

theorem sameEnd_seqStart (now : BitVec 32) :
    SameEnd (exec (.seqStart now) s) (exec (.seqStart now) { s with audio := a }) := by
  refine sameEnd_of_alike ?_
  dsimp only
  split
  · exact alike_ite Iff.rfl ⟨a, rfl⟩ rfl
  · rfl

theorem sameEnd_ctlTick (gate : Bool) (now : BitVec 32) :
    SameEnd (exec (.ctlTick gate now) s) (exec (.ctlTick gate now) { s with audio := a }) := by
  refine sameEnd_of_alike (s := s) (a := a) (r := .ok _) (r' := .ok _) ?_
  dsimp only
  split <;> exact ⟨a, rfl⟩

end

/-- Settles O55: every command makes the same checks, and has the same effect on the control domain. -/
theorem commandsDoNotObserveTheAudioDomain : Obligations.CommandsDoNotObserveTheAudioDomain := by
  intro i s a hr ha
  show SameEnd _ _
  cases i with
  | render => exact absurd rfl hr
  | nop | errClear | oscSetFreq | seqStop =>
    exact sameEnd_of_alike (s := s) (a := a) (r := .ok _) (r' := .ok _) ⟨a, rfl⟩
  | softReset => exact sameEnd_of_alike (s := s) (a := a) (r := .ok _) (r' := .ok _) ⟨_, rfl⟩
  | regRead reg => exact sameEnd_regRead reg
  | cfgSampleRate hz => exact sameEnd_cfgSampleRate hz
  | cfgBlockSize n => exact sameEnd_cfgBlockSize n
  | engSetMode imm => exact sameEnd_engSetMode imm
  | start => exact sameEnd_start
  | oscSetWaveform imm => exact sameEnd_oscSetWaveform imm
  | oscSetAmp x => exact sameEnd_f32Command ha .amp x
  | envSetAttack x => exact sameEnd_f32Command ha .attack x
  | envSetDecay x => exact sameEnd_f32Command ha .decay x
  | envSetSustain x => exact sameEnd_f32Command ha .sustain x
  | envSetRelease x => exact sameEnd_f32Command ha .release x
  | fltSetCutoff x => exact sameEnd_f32Command ha .cutoff x
  | fltSetRes x => exact sameEnd_f32Command ha .res x
  | fltSetMode imm => exact sameEnd_fltSetMode imm
  | dlySetDelay n => exact sameEnd_dlySetDelay n
  | dlySetFeedback x => exact sameEnd_f32Command ha .feedback x
  | seqSetLength n => exact sameEnd_seqSetLength n
  | seqSetNote i n => exact sameEnd_seqSetNote i n
  | seqSetStepMs ms => exact sameEnd_seqSetStepMs ms
  | seqStart now => exact sameEnd_seqStart now
  | ctlTick gate now => exact sameEnd_ctlTick gate now

end Sys2Proof.Proofs.Domains
end

section
/-! A step (20_memory.md section 6): what it runs, what it refuses (60_exceptions.md R500), and reset
(70_reset_and_hazards.md R530, R531). -/

namespace Sys2Proof.Proofs.Stepping

open Sys2Proof Sys2Proof.Machine Sys2Proof.Laws.Encoding Sys2Proof.Proofs.RoundTrip
open Sys2Proof.Proofs.LastErr Sys2Proof.Proofs.Responses Sys2Proof.Proofs.Registers
open Sys2Proof.Proofs.Domains

/-! ## A step, by the head of the inbox -/

section

variable {s : State} {bytes : List Byte} {rendering : Bool} {input : Block} {rest : List Request} {i : Instr}

theorem step_command (hin : s.inbox = .command bytes false rendering :: rest)
    (hd : decode .command bytes = .ok i) (hreset : i = .softReset → rendering = false) :
    step s = exec i { s with inbox := rest } := by
  have hnot : ¬(i = .softReset ∧ rendering = true) := fun ⟨hi, ht⟩ =>
    absurd ((hreset hi).symm.trans ht) (by decide)
  simp only [step, State.fetch, hin, fetchCommand, hd, hnot, Bool.false_eq_true, if_false]

theorem step_audio (hin : s.inbox = .audio bytes input false :: rest) (hd : decode .audio bytes = .ok i) :
    step s = exec i { s with inbox := rest, audioIn := input } := by
  simp only [step, State.fetch, hin, fetchAudio, hd, Bool.false_eq_true, if_false]

theorem decode_softReset : decode .command (bytesOfWord (encode .softReset)) = .ok .softReset :=
  decode_command_bytesOfWord (decodeCommand_encode (by decide))

theorem step_softResetDuringRender
    (hin : s.inbox = .command (bytesOfWord (encode .softReset)) false true :: rest) :
    step s = .refused .softResetDuringRender := by
  simp only [step, State.fetch, hin, fetchCommand, decode_softReset, and_self, Bool.false_eq_true,
    if_false, if_true]

theorem step_command_overlapped (hin : s.inbox = .command bytes true rendering :: rest) :
    step s = .refused .overlappingRequest := by
  simp only [step, State.fetch, hin, fetchCommand, if_true]

theorem step_audio_overlapped (hin : s.inbox = .audio bytes input true :: rest) :
    step s = .refused .overlappingRequest := by
  simp only [step, State.fetch, hin, fetchAudio, if_true]

theorem step_partialWord (hin : s.inbox = .command bytes false rendering :: rest)
    (hw : wholeWord bytes = false) : step s = .refused .partialWord := by
  rw [← wordOfBytes_isSome, Option.isSome_eq_false_iff, Option.isNone_iff_eq_none] at hw
  have hd : decode .command bytes = .error .partialWord := by simp only [decode, hw]
  simp only [step, State.fetch, hin, fetchCommand, hd, Bool.false_eq_true, if_false]

/-- On the audio port nothing but the RENDER word is accepted. -/
theorem step_audio_badWord (hin : s.inbox = .audio bytes input false :: rest)
    (hw : bytes ≠ bytesOfWord renderWord) : step s = .refused .badAudioWord := by
  cases hd : decode .audio bytes with
  | ok i =>
    obtain ⟨hport, hbytes⟩ := decodedBytesAreTheEncoding _ _ _ hd
    have hi : i = .render := by
      by_contra hne
      exact absurd (hport.trans (port_of_ne_render hne)) (by decide)
    exact absurd (hi ▸ hbytes : bytes = bytesOfWord (encode .render)) hw
  | error e => simp only [step, State.fetch, hin, fetchAudio, hd, Bool.false_eq_true, if_false]

end

/-- Settles O6. -/
theorem stepRunsDecodedInstruction : Obligations.StepRunsDecodedInstruction :=
  ⟨fun _ _ _ _ _ => step_command, fun _ _ _ _ _ => step_audio, fun _ _ => step_softResetDuringRender⟩

/-! ## What is refused -/

section

variable {s : State} {rest : List Request}

theorem meetsDuties_command_iff (bytes : List Byte) (overlapped rendering : Bool) :
    (Request.command bytes overlapped rendering).meetsDuties s = true ↔
      overlapped = false ∧ wholeWord bytes = true ∧
        (bytes = bytesOfWord (encode .softReset) → rendering = false) := by
  cases rendering <;> simp [Request.meetsDuties, and_assoc]

theorem meetsDuties_audio_iff (bytes : List Byte) (input : Block) (overlapped : Bool) :
    (Request.audio bytes input overlapped).meetsDuties s = true ↔
      overlapped = false ∧ bytes = bytesOfWord renderWord ∧
        (s.phase = .config ∨ hasShape s.params.numCh s.audio.blkAct.toNat input = true) := by
  simp [Request.meetsDuties, and_assoc]

theorem exists_word_of_wholeWord {bytes : List Byte} (h : wholeWord bytes = true) :
    ∃ w, bytes = bytesOfWord w := by
  rw [← wordOfBytes_isSome] at h
  obtain ⟨w, hw⟩ := Option.isSome_iff_exists.1 h
  exact ⟨w, bytesOfWord_of_wordOfBytes hw⟩

/-- A command in order is run, and no command is refused; an ILLEGAL word fails. -/
theorem step_command_total {w : Word64} {rendering : Bool}
    (hin : s.inbox = .command (bytesOfWord w) false rendering :: rest)
    (hreset : bytesOfWord w = bytesOfWord (encode .softReset) → rendering = false) :
    ∃ t, step s = .next t := by
  cases hw : decodeCommand w with
  | none => exact ⟨_, step_illegal hin hw⟩
  | some i =>
    rw [step_command hin (decode_command_bytesOfWord hw) fun hi =>
      hreset (by rw [encode_of_decodeCommand hw, hi])]
    exact exec_total _ (ne_render_of_decodeCommand hw)

theorem step_command_refused {bytes : List Byte} {overlapped rendering : Bool}
    (hin : s.inbox = .command bytes overlapped rendering :: rest)
    (h : ¬(overlapped = false ∧ wholeWord bytes = true ∧
      (bytes = bytesOfWord (encode .softReset) → rendering = false))) : ∃ r, step s = .refused r := by
  cases overlapped with
  | true => exact ⟨_, step_command_overlapped hin⟩
  | false =>
    cases hw : wholeWord bytes with
    | false => exact ⟨_, step_partialWord hin hw⟩
    | true =>
      obtain ⟨rfl, rfl⟩ : bytes = bytesOfWord (encode .softReset) ∧ rendering = true := by
        simpa [hw] using h
      exact ⟨_, step_softResetDuringRender hin⟩

/-- RENDER is refused in RUNNING alone, and there for the shape of the block alone. -/
theorem execRender_total (h : s.phase = .config ∨ hasShape s.params.numCh s.audio.blkAct.toNat s.audioIn = true) :
    ∃ t, execRender s = .next t := by
  unfold execRender
  split
  · exact ⟨_, rfl⟩
  · next hp =>
    rw [if_pos (h.resolve_left (by simp [hp]))]
    exact ⟨_, rfl⟩

theorem execRender_badShape (hp : s.phase ≠ .config)
    (hshape : hasShape s.params.numCh s.audio.blkAct.toNat s.audioIn = false) :
    execRender s = .refused .blockShape := by
  unfold execRender
  split
  · next hconfig => exact absurd hconfig hp
  · rw [hshape, if_neg Bool.false_ne_true]

theorem step_render {input : Block} (hin : s.inbox = .audio (bytesOfWord renderWord) input false :: rest) :
    step s = execRender { s with inbox := rest, audioIn := input } :=
  step_audio hin (decodeOfEncodeIsInstruction .render)

theorem step_audio_refused {bytes : List Byte} {input : Block} {overlapped : Bool}
    (hin : s.inbox = .audio bytes input overlapped :: rest)
    (h : ¬(overlapped = false ∧ bytes = bytesOfWord renderWord ∧
      (s.phase = .config ∨ hasShape s.params.numCh s.audio.blkAct.toNat input = true))) :
    ∃ r, step s = .refused r := by
  cases overlapped with
  | true => exact ⟨_, step_audio_overlapped hin⟩
  | false =>
    by_cases hw : bytes = bytesOfWord renderWord
    · subst hw
      obtain ⟨hconfig, hshape⟩ : ¬ s.phase = .config ∧
          hasShape s.params.numCh s.audio.blkAct.toNat input = false := by
        simpa using h
      exact ⟨_, (step_render hin).trans (execRender_badShape hconfig hshape)⟩
    · exact ⟨_, step_audio_badWord hin hw⟩

end

/-- Settles O8, request by request. -/
theorem stepIsRefusedExactlyOnHostErrors : Obligations.StepIsRefusedExactlyOnHostErrors := by
  refine ⟨fun s q rest hin h => ?_, fun s q rest hin h => ?_, fun s hin => ?_⟩
  · rw [← Bool.not_eq_true] at h
    cases q with
    | command bytes overlapped rendering =>
      exact step_command_refused hin (mt (meetsDuties_command_iff ..).2 h)
    | audio bytes input overlapped => exact step_audio_refused hin (mt (meetsDuties_audio_iff ..).2 h)
    | reset => exact absurd rfl h
  · cases q with
    | command bytes overlapped rendering =>
      obtain ⟨rfl, hwhole, hreset⟩ := (meetsDuties_command_iff ..).1 h
      obtain ⟨w, rfl⟩ := exists_word_of_wholeWord hwhole
      exact step_command_total hin hreset
    | audio bytes input overlapped =>
      obtain ⟨rfl, rfl, hshape⟩ := (meetsDuties_audio_iff ..).1 h
      rw [step_render hin]
      exact execRender_total hshape
    | reset => exact ⟨_, step_reset hin⟩
  · exact ⟨s, by simp only [step, State.fetch, hin]⟩

/-! ## Reset -/

/-- SOFT_RESET is RESET and its response. -/
theorem exec_softReset (s : State) : exec .softReset s = .next (s.applyReset.respond 0x03#8 0#32) := rfl

/-- The parameters and the notes are unset. -/
structure AllUnset (t : State) : Prop where
  shadow : t.shadow = Shadow.unset
  seq : t.seq = SeqState.reset
  mb : t.mb = Mailbox.reset
  note : t.note = []

theorem AllUnset.validWords {t : State} (h : AllUnset t) : t.paramValidWord = 0#32 ∧ t.noteValidWord = 0#32 := by
  constructor
  · rw [State.paramValidWord, State.paramBits, h.shadow, h.seq, h.mb]
    decide
  · apply BitVec.eq_of_getLsbD_eq
    intro k _
    have hunset : t.note.isSet k = false := by
      rw [h.note]
      rfl
    rw [noteValidWord_bit, hunset, Bool.and_false, Bool.and_false, BitVec.getLsbD_zero]

/-- Settles O9. -/
theorem resetGivesTheResetTable : Obligations.ResetGivesTheResetTable := by
  refine ⟨fun s => ⟨s.audio.dly, exec_softReset s⟩, fun s rest hin => ⟨s.audio.dly, step_reset hin⟩,
    ⟨[], rfl⟩, fun s t h => AllUnset.validWords ?_, AllUnset.validWords ⟨rfl, rfl, rfl, rfl⟩⟩
  obtain h | ⟨rest, hin, h⟩ := h
  · obtain rfl := Host.Outcome.next.inj ((exec_softReset s).symm.trans h)
    exact ⟨rfl, rfl, rfl, rfl⟩
  · obtain rfl := Host.Outcome.next.inj ((step_reset hin).symm.trans h)
    exact ⟨rfl, rfl, rfl, rfl⟩

/-- Settles O10. -/
theorem softResetKeepsTheDelayRing : Obligations.SoftResetKeepsTheDelayRing :=
  fun s => ⟨_, exec_softReset s, fun _ => rfl⟩

end Sys2Proof.Proofs.Stepping
end
